-- ==== Sys2Proof/Word.lean ====
section
/-! DEFINITION. The words of HUFF: registers and host addresses are 32 bits (00_scope.md R6), a symbol is a byte, and a
bit string is a list of bits, first bit first (R10). -/

namespace Sys2Proof

/-- A host-visible register, a host address or a command word: 32 bits, bit 0 least significant (00_scope.md R6, R8). -/
abbrev Word := BitVec 32

/-- A byte; also a symbol, 0 to 255 (00_scope.md R6, R12). -/
abbrev Byte := BitVec 8

/-- A code or a path: its first bit, the step taken at the root, comes first (00_scope.md R10). `false` is 0 (left),
`true` is 1 (right). -/
abbrev BitString := List Bool

end Sys2Proof
end

