-- ==== Sys2Proof/Syntax.lean ====
section
/-! DEFINITION. The command set of HUFF-CMD version 1: one constructor per row of spec/opcode_table.json (30_encoding.md R95). -/

namespace Sys2Proof

/-- A command. Format N takes no operand, format B the symbol in IMM8, format S the step bit, `false` = 0 = left
(30_encoding.md R92, R93). -/
inductive Instr where
  | nop
  | histCount
  | histClear
  | histGet (b : Byte)
  | histSet (b : Byte)
  | treeBuild
  | codeDerive
  | codeClear
  | codeGet (b : Byte)
  | codeSet (b : Byte)
  | tableSerialize
  | pack
  | encode
  | treeClear
  | treeInsert (b : Byte)
  | treeSearch
  | treeStep (bit : Bool)
  | treeReset
  | tableParse
  | unpack
  | decode
deriving DecidableEq, Repr

end Sys2Proof
end

