-- ==== Sys2Proof/WellFormed.lean ====
section
/-! DEFINITION. When a command word is legal (30_encoding.md R91, R92, R95, R96), said on the word's fields and apart from the
decoder. The operands of `Instr` are typed exactly (a byte, one bit), so every `Instr` is well formed by its type and the
checks are on words. -/

namespace Sys2Proof

/-- The fields of a command word (30_encoding.md R91). -/
structure CommandFields where
  opc  : BitVec 8
  rsvd : BitVec 16
  imm8 : BitVec 8
deriving DecidableEq, Repr

/-- The fields of a word: OPC [31:24], RSVD [23:8], IMM8 [7:0] (30_encoding.md R91). -/
def CommandFields.ofWord (w : Word) : CommandFields :=
  { opc := w.extractLsb' 24 8, rsvd := w.extractLsb' 8 16, imm8 := w.extractLsb' 0 8 }

/-- The three formats, which differ only in what IMM8 may hold (30_encoding.md R92). -/
inductive Format where
  | n
  | b
  | s
deriving DecidableEq, Repr

/-- What IMM8 may hold in a format (30_encoding.md R92). -/
def Format.immLegal (f : Format) (imm : BitVec 8) : Bool :=
  match f with
  | .n => imm == 0
  | .b => true
  | .s => imm.extractLsb' 1 7 == 0

/-- The assigned operation codes with their formats (30_encoding.md R95). -/
def opcodeMap : List (BitVec 8 × Format) :=
  [(0x00, .n), (0x10, .n), (0x11, .n), (0x12, .b), (0x13, .b), (0x20, .n), (0x30, .n), (0x31, .n), (0x32, .b), (0x33, .b),
   (0x34, .n), (0x40, .n), (0x4F, .n), (0x50, .n), (0x51, .b), (0x52, .n), (0x53, .s), (0x54, .n), (0x60, .n), (0x70, .n),
   (0x7F, .n)]

/-- The check of 30_encoding.md R96: OPC assigned, RSVD zero, IMM8 legal in the format. -/
def CommandFields.wellFormed (f : CommandFields) : Bool :=
  match opcodeMap.lookup f.opc with
  | none => false
  | some fmt => f.rsvd == 0 && fmt.immLegal f.imm8

/-- A command word that is not illegal (30_encoding.md R96). -/
def wellFormedWord (w : Word) : Bool :=
  (CommandFields.ofWord w).wellFormed

end Sys2Proof
end

