-- ==== Sys2Proof/Decode.lean ====
section
/-! DEFINITION. The decoder, total on every 32-bit word (30_encoding.md R98), and the encoder (R91, R95). -/

namespace Sys2Proof

/-- Why a word is illegal (30_encoding.md R96). The hardware records the word, not the reason: the name is the model's. -/
inductive IllegalWord where
  /-- RSVD [23:8] is not 0. -/
  | reservedNotZero
  /-- OPC is unassigned. -/
  | opcodeUnassigned
  /-- IMM8 is not 0 in format N. -/
  | immediateNotZero
  /-- IMM8[7:1] is not 0 in format S. -/
  | stepBitsNotZero
deriving DecidableEq, Repr

/-- What a word decodes to (30_encoding.md R98). -/
inductive Decoded where
  | command (i : Instr)
  | illegal (why : IllegalWord)
deriving DecidableEq, Repr

/-- The format-N commands with their operation codes (30_encoding.md R95). -/
def formatNTable : List (BitVec 8 × Instr) :=
  [(0x00, .nop), (0x10, .histCount), (0x11, .histClear), (0x20, .treeBuild), (0x30, .codeDerive), (0x31, .codeClear),
   (0x34, .tableSerialize), (0x40, .pack), (0x4F, .encode), (0x50, .treeClear), (0x52, .treeSearch), (0x54, .treeReset),
   (0x60, .tableParse), (0x70, .unpack), (0x7F, .decode)]

/-- The format-B commands, which take the operand `b` = IMM8, with their operation codes (30_encoding.md R93, R95). -/
def formatBTable : List (BitVec 8 × (Byte → Instr)) :=
  [(0x12, .histGet), (0x13, .histSet), (0x32, .codeGet), (0x33, .codeSet), (0x51, .treeInsert)]

/-- `decode(w)` of 30_encoding.md R98, its tests in the rule's order. -/
def decode (w : Word) : Decoded :=
  let f := CommandFields.ofWord w
  if f.rsvd ≠ 0 then .illegal .reservedNotZero
  else
    match formatNTable.lookup f.opc with
    | some i => if f.imm8 ≠ 0 then .illegal .immediateNotZero else .command i
    | none =>
      match formatBTable.lookup f.opc with
      | some op => .command (op f.imm8)
      | none =>
        if f.opc = 0x53 then
          if f.imm8.extractLsb' 1 7 ≠ 0 then .illegal .stepBitsNotZero else .command (.treeStep (f.imm8.getLsbD 0))
        else .illegal .opcodeUnassigned

/-- The operation code of a command (30_encoding.md R95). -/
def opcodeOf (i : Instr) : BitVec 8 :=
  match i with
  | .nop => 0x00
  | .histCount => 0x10
  | .histClear => 0x11
  | .histGet _ => 0x12
  | .histSet _ => 0x13
  | .treeBuild => 0x20
  | .codeDerive => 0x30
  | .codeClear => 0x31
  | .codeGet _ => 0x32
  | .codeSet _ => 0x33
  | .tableSerialize => 0x34
  | .pack => 0x40
  | .encode => 0x4F
  | .treeClear => 0x50
  | .treeInsert _ => 0x51
  | .treeSearch => 0x52
  | .treeStep _ => 0x53
  | .treeReset => 0x54
  | .tableParse => 0x60
  | .unpack => 0x70
  | .decode => 0x7F

/-- The IMM8 field of a command: 0 in format N, the symbol in format B, the step bit in bit 0 in format S
(30_encoding.md R92). -/
def immediateOf (i : Instr) : BitVec 8 :=
  match i with
  | .nop | .histCount | .histClear | .treeBuild | .codeDerive | .codeClear | .tableSerialize | .pack | .encode
  | .treeClear | .treeSearch | .treeReset | .tableParse | .unpack | .decode => 0
  | .histGet b | .histSet b | .codeGet b | .codeSet b | .treeInsert b => b
  | .treeStep bit => if bit then 1 else 0

/-- The command word of a command: OPC, RSVD = 0, IMM8 (30_encoding.md R91). -/
def encode (i : Instr) : Word :=
  opcodeOf i ++ (0 : BitVec 16) ++ immediateOf i

/-- The command word that a table row's `nbits` bits `w` stand for: every bit above `nbits` is 0. One command word has 32
bits (30_encoding.md R90). -/
def tableWord (nbits w : Nat) : Word :=
  BitVec.ofNat 32 (w % 2 ^ nbits)

/-- The command the decoder reads from a table row's word. -/
def decodeTableWord (nbits w : Nat) : Option Instr :=
  match decode (tableWord nbits w) with
  | .command i => some i
  | .illegal _ => none

end Sys2Proof
end

