-- ==== Sys2Proof/Config.lean ====
section
/-! DEFINITION. The parameters of an implementation (00_scope.md R6, R7) and the free values: what 93_implementation_defined.md
Part 2 marks "any value". A free value is a constant without a body, so nothing proved can rest on what it is. -/

namespace Sys2Proof

/-- The four parameters that an implementation chooses (00_scope.md R6). They are hardwired (10_state.md R37): State carries
them and nothing ever writes them, so that a statement over every state is one over every tuple (R7). -/
structure Caps where
  ibufCap : Nat
  obufCap : Nat
  tbufCap : Nat
  nodeCap : Nat
deriving DecidableEq, Repr

/-- The legal ranges of 00_scope.md R6. -/
abbrev Caps.Legal (c : Caps) : Prop :=
  (1 ≤ c.ibufCap ∧ c.ibufCap ≤ 2 ^ 24) ∧ (1 ≤ c.obufCap ∧ c.obufCap ≤ 2 ^ 24) ∧
    (1 ≤ c.tbufCap ∧ c.tbufCap ≤ 2 ^ 24) ∧ (65281 ≤ c.nodeCap ∧ c.nodeCap ≤ 65535)

namespace Config

/-- The default parameters of 00_scope.md R6. -/
def defaultCaps : Caps :=
  { ibufCap := 1048576, obufCap := 8388608, tbufCap := 65536, nodeCap := 65535 }

/-- MAX_CODE_LEN (00_scope.md R6). -/
def maxCodeLen : Nat := 255

/-- FREE VALUE (U1, 20_memory.md R64, log entry 3): the byte that reset event number `epoch` draws for the buffer byte at
a host address. It stays until the byte is written. -/
opaque drawnByte : (epoch : Nat) → (address : Nat) → Byte

/-- FREE VALUE (U2, 20_memory.md R73, log entry 4): what draw number `n` answers to a host read while the engine is BUSY. -/
opaque busyRead : (n : Nat) → Word

/-- FREE VALUE (U11, 40_command_protocol.md R130, log entry 2): how many host turns pass before the engine performs an
accepted command. Any finite number: the engine's step comes (weak fairness). -/
opaque performDelay : (n : Nat) → Nat

/-- FREE VALUE (U9, 10_state.md R41, log entry 8): the payload of NODE entry `i` where no such node exists. No reachable
state reads it. -/
opaque strayPayload : (i : Nat) → Option Byte

/-- FREE VALUE (U9, 10_state.md R41, log entry 8): a child of NODE entry `i` where no such node exists. -/
opaque strayChild : (i : Nat) → (bit : Bool) → Option Nat

/-- FREE VALUE (U9, 10_state.md R41, log entry 8): the weight of NODE entry `i` where no such node exists. -/
opaque strayWeight : (i : Nat) → BitVec 72

end Config

end Sys2Proof
end

