-- ==== Sys2Proof/Machine/State.lean ====
section
/-! DEFINITION. The state of HUFF: every register and memory of 10_state.md and 20_memory.md, the reset input, and the host
agent with the model's own counters of free values. -/

namespace Sys2Proof.Machine

/-- The engine phase (10_state.md R44). STATUS.BUSY is 1 exactly when it is `busy`. -/
inductive Phase where
  | idle
  | busy
deriving DecidableEq, Repr

/-- The command errors (60_exceptions.md R301, codes 1 to 7). Code 0, no error, is `none` of `Option ErrorCode`. Codes 8 to
15 are never produced. -/
inductive ErrorCode where
  | ioFailure
  | missingSymbolCode
  | corruptStream
  | malformedTable
  | invalidPath
  | illegalCommand
  | nodeCapacity
deriving DecidableEq, Repr

/-- An existing entry of the NODE arena (10_state.md R41). `payload` is PV and PAY (PAY is unspecified while PV = 0 and is not
held then), `none` in `left` and `right` is NIL, `weight` is the 72-bit W. -/
structure Node where
  payload : Option Byte
  left    : Option Nat
  right   : Option Nat
  weight  : BitVec 72
deriving DecidableEq, Repr, Inhabited

/-- The fields of RESULT (10_state.md R36). `none` in `node` is NIL, which reads 0xFFFF. -/
structure Result where
  found   : Bool
  leaf    : Bool
  payload : Byte
  node    : Option Nat
deriving DecidableEq, Repr

/-- The codes and their symbols: CODE[b] (10_state.md R40). `none` is VALID = 0, whose LEN and BITS are unspecified and not
held (70_reset_and_hazards.md R332). `some c` is VALID = 1, LEN the length of `c`, BITS the bits of `c`. -/
abbrev CodeTable := Vector (Option BitString) 256

/-- HIST (10_state.md R39). -/
abbrev Histogram := Vector (BitVec 64) 256

/-- The bytes of the three buffers written since reset, by host address, addresses strictly rising. An unlisted address
holds what reset drew for it (`Config.drawnByte`, log entry 3). -/
abbrev Memory := List Host.Cell

/-- The response of a host access (20_memory.md R65). `unanswered`: the reset input is asserted (70_reset_and_hazards.md
R330). -/
inductive BusResponse where
  | okay
  | busErr
  | unanswered
deriving DecidableEq, Repr

/-- What the host agent may do (20_memory.md R65, 30_encoding.md R100, 70_reset_and_hazards.md R330, R344). Targets are places in
the host program. -/
inductive HostOp where
  /-- `MemRead(address, width)`: `rd32`, `rd8`. -/
  | read (address : Word) (width : Nat)
  /-- `MemWrite(address, width, value)`: `wr32`, `wr8`, `cmd`. -/
  | write (address : Word) (width : Nat) (value : Word)
  /-- `wait`: repeat `rd32 STATUS` until bit [0] is 0. -/
  | waitDone
  /-- `if FIELD == value goto target`, FIELD the bits [hi:lo] of the last value read. -/
  | ifField (hi lo : Nat) (value : Nat) (target : Nat)
  /-- `goto target`. -/
  | goto (target : Nat)
  /-- The platform asserts the reset input. -/
  | assertReset
  /-- The platform releases the reset input. -/
  | releaseReset
deriving DecidableEq, Repr

/-- The host agent (00_scope.md R5): its program, its place in it, the last value read, the last response, and the delays that
a run pins from outside for the commands it will issue (log entries 2 and 13). -/
structure HostSide where
  prog     : List HostOp
  pc       : Nat
  value    : Word
  response : Option BusResponse
  pinned   : List Nat
deriving DecidableEq, Repr

/-- The state of HUFF and of the agents around it. -/
structure State where
  /-- IBUF_CAP, OBUF_CAP, TBUF_CAP, NODE_CAP, hardwired (10_state.md R37). -/
  caps     : Caps
  /-- STATUS.BUSY (R25, R44). -/
  phase    : Phase
  /-- STATUS.DONE (R25). -/
  done     : Bool
  /-- STATUS.REJECT (R25). -/
  reject   : Bool
  /-- STATUS.ERRCODE, `none` is 0 (R25). STATUS.ERR is derived from it. -/
  errCode  : Option ErrorCode
  /-- CMD (R26). -/
  cmd      : Word
  /-- IRQ_EN.DONE_IE (R27). -/
  doneIe   : Bool
  /-- ERR_INFO (R28). -/
  errInfo  : Word
  /-- IN_LEN (R29). -/
  inLen    : Word
  /-- OUT_LEN (R30). -/
  outLen   : Word
  /-- INIT_SIZE (R31). -/
  initSize : Word
  /-- COMP_SIZE (R31). -/
  compSize : Word
  /-- DATA_BITS (R32). -/
  dataBits : Word
  /-- TBL_LEN (R33). -/
  tblLen   : Word
  /-- COUNT_LO (R34). -/
  countLo  : Word
  /-- COUNT_HI (R34). -/
  countHi  : Word
  /-- PATH_LEN[7:0] (R35). -/
  pathLen  : BitVec 8
  /-- PATH0 to PATH7 (R35). -/
  path     : Vector Word 8
  /-- RESULT (R36). -/
  result   : Result
  /-- CURSOR, `none` is NIL (R38). -/
  cursor   : Option Nat
  /-- ROOT, `none` is NIL (R38). -/
  root     : Option Nat
  /-- SYM_COUNT[8:0] (R38). -/
  symCount : BitVec 9
  /-- NODE[0] to NODE[NODE_COUNT-1] (R41). NODE_COUNT is its length (R38). -/
  nodes    : List Node
  /-- HIST (R39). -/
  hist     : Histogram
  /-- CODE (R40). -/
  code     : CodeTable
  /-- IBUF, OBUF and TBUF (20_memory.md R64). -/
  mem      : Memory
  /-- The reset input is asserted (70_reset_and_hazards.md R330). -/
  resetPin : Bool
  /-- The model's own: host turns left before the engine performs the accepted command (log entry 2). -/
  delay    : Nat
  /-- The model's own: how many reset events there have been (log entry 3). -/
  resets   : Nat
  /-- The model's own: how many free values have been drawn (log entry 4). -/
  draws    : Nat
  /-- The host agent. -/
  host     : HostSide
deriving DecidableEq, Repr

/-- The faults of the model. A command error of HUFF is no fault: it completes the command (60_exceptions.md R300, R304). -/
inductive Fault where
  /-- Raised by CODE_DERIVE (and so by ENCODE's third sub-command) where the traversal of 44_code_table.md R211 meets a node
  deeper than MAX_CODE_LEN = 255: the arena has a cycle or a longer path, and the rule's loop does not end or its code does
  not fit LEN. R42 and R211 say that no reachable state is so. Safe: the model stops (log entry 9). -/
  | treeUnbounded
deriving DecidableEq, Repr

/-- The refusals of the model. -/
inductive Refusal where
  /-- Answered by `exec` alone, for a command that has no meaning yet. Safe: the model stops. -/
  | notModelled (mnemonic : String)
deriving DecidableEq, Repr

/-- NOTFOUND of 41_tree.md R140, which is also RESULT's reset value: it reads 0xFFFF0000. -/
def Result.notFound : Result :=
  { found := false, leaf := false, payload := 0, node := none }

/-- The reset state of 70_reset_and_hazards.md R331 and R332 for given hardwired capacities. `resets` numbers the reset
event, which names the buffer bytes it draws. `draws` and `host` belong to the model and to the host, which a reset of the
block leaves alone. -/
def State.afterReset (caps : Caps) (resetPin : Bool) (resets draws : Nat) (host : HostSide) : State :=
  { caps := caps, phase := .idle, done := false, reject := false, errCode := none, cmd := 0, doneIe := false, errInfo := 0,
    inLen := 0, outLen := 0, initSize := 0, compSize := 0, dataBits := 0, tblLen := 0, countLo := 0, countHi := 0,
    pathLen := 0, path := Vector.replicate 8 0, result := Result.notFound, cursor := none, root := none, symCount := 0,
    nodes := [], hist := Vector.replicate 256 0, code := Vector.replicate 256 none, mem := [], resetPin := resetPin,
    delay := 0, resets := resets, draws := draws, host := host }

/-- A host with no program (log entry 13). -/
def HostSide.quiet : HostSide :=
  { prog := [], pc := 0, value := 0, response := none, pinned := [] }

/-- The machine right after reset, with the default capacities (70_reset_and_hazards.md R331, R332). -/
def State.reset : State :=
  State.afterReset Config.defaultCaps false 0 0 HostSide.quiet

end Sys2Proof.Machine
end

