-- ==== Sys2Proof/Machine/Ops.lean ====
section
/-! DEFINITION. The shared operations: the buffers' bytes, the node arena, the life of a command (accept, complete, raise) and
the effect of a command's rule. -/

namespace Sys2Proof.Machine

/-! ## The buffers (20_memory.md R63, R64) -/

/-- The canonical form of memory: addresses strictly rising. An unlisted address has no value of its own, so no entry can
equal what an unlisted address holds (log entry 3). -/
abbrev Memory.wf (m : Memory) : Prop :=
  m.Pairwise (fun x y => x.1 < y.1)

/-- The byte written at an address since reset, if any. -/
def Memory.get? : Memory → Nat → Option Byte
  | [], _ => none
  | (k, v) :: m, a => if k = a then some v else Memory.get? m a

/-- Write one byte, in the canonical form. -/
def Memory.put : Memory → Nat → Byte → Memory
  | [], a, v => [(a, v)]
  | (k, w) :: m, a, v =>
    if a < k then (a, v) :: (k, w) :: m
    else if a = k then (a, v) :: m
    else (k, w) :: Memory.put m a v

/-- Write bytes at `a`, `a + 1`, … -/
def Memory.putBytes : Memory → Nat → List Byte → Memory
  | m, _, [] => m
  | m, a, v :: vs => Memory.putBytes (Memory.put m a v) (a + 1) vs

/-- The host address of IBUF byte 0 (20_memory.md R63). -/
def ibufBase : Nat := 0x01000000

/-- The host address of OBUF byte 0 (20_memory.md R63). -/
def obufBase : Nat := 0x02000000

/-- The host address of TBUF byte 0 (20_memory.md R63). -/
def tbufBase : Nat := 0x03000000

/-- The byte at a buffer's host address: what was written there since reset, else the byte that reset drew
(20_memory.md R64, 70_reset_and_hazards.md R332, log entry 3). -/
def readByte (s : State) (a : Nat) : Byte :=
  (Memory.get? s.mem a).getD (Config.drawnByte s.resets a)

/-- The `n` bytes from address `a` upward. -/
def readBytes (s : State) (a n : Nat) : List Byte :=
  (List.range n).map (fun i => readByte s (a + i))

/-- IBUF bytes 0 to IN_LEN-1 (20_memory.md R64). -/
def inputBytes (s : State) : List Byte :=
  readBytes s ibufBase s.inLen.toNat

/-- TBUF bytes 0 to TBL_LEN-1 (20_memory.md R64). -/
def tableBytes (s : State) : List Byte :=
  readBytes s tbufBase s.tblLen.toNat

/-- Write bytes from address `a` upward. -/
def writeBytes (s : State) (a : Nat) (vs : List Byte) : State :=
  { s with mem := Memory.putBytes s.mem a vs }

/-! ## The life of a command (40_command_protocol.md R120 to R124, 60_exceptions.md R304, R310) -/

/-- Accept: the step of a CMD write while IDLE (40_command_protocol.md R121). REJECT is not changed. After an error this is
the only "return" there is (60_exceptions.md R310). -/
def acceptCommand (w : Word) (s : State) : State :=
  { s with cmd := w, done := false, errCode := none, errInfo := 0, phase := .busy }

/-- Complete: DONE <- 1, phase <- IDLE (40_command_protocol.md R123). -/
def complete (s : State) : State :=
  { s with done := true, phase := .idle }

/-- `raise E(info)`: record the error, then complete (60_exceptions.md R304). No other state is saved, no mode changes and
control goes nowhere (R310). -/
def raise (e : ErrorCode) (info : Word) (s : State) : State :=
  complete { s with errCode := some e, errInfo := info }

/-- What a command's rule comes to: `complete` in a state, `raise E(info)` in a state that keeps what the rule wrote before, or
a traversal that does not end. -/
inductive Effect where
  | completed (s : State)
  | raised (e : ErrorCode) (info : Word) (s : State)
  | stuck (f : Fault)
deriving DecidableEq, Repr

/-- Sub-commands in order: the first that raises an error ends the command (40_command_protocol.md R127). -/
def Effect.andThen (e : Effect) (next : State → Effect) : Effect :=
  match e with
  | .completed s => next s
  | .raised c info s => .raised c info s
  | .stuck f => .stuck f

/-- The perform step that ends a command (40_command_protocol.md R123, 60_exceptions.md R304). -/
def Effect.finish (e : Effect) : Host.Outcome State Fault Refusal :=
  match e with
  | .completed s => .next (complete s)
  | .raised c info s => .next (raise c info s)
  | .stuck f => .fault f

/-! ## The node arena (10_state.md R41, 41_tree.md R140 to R143) -/

/-- NODE[i]. Where no such node exists its fields are unspecified and no reachable state reads them (10_state.md R41, log
entry 8). -/
def nodeAt (nodes : List Node) (i : Nat) : Node :=
  nodes.getD i
    { payload := Config.strayPayload i, left := Config.strayChild i false, right := Config.strayChild i true,
      weight := Config.strayWeight i }

/-- `child(n, s)` (41_tree.md R141): `false` is 0, left. -/
def child (nodes : List Node) (n : Nat) (bit : Bool) : Option Nat :=
  if bit then (nodeAt nodes n).right else (nodeAt nodes n).left

/-- The walk of 41_tree.md R142 below an existing node. -/
def walkFrom (nodes : List Node) : Nat → BitString → Option Nat
  | n, [] => some n
  | n, bit :: p =>
    match child nodes n bit with
    | none => none
    | some c => walkFrom nodes c p

/-- `walk(path)` (41_tree.md R142). -/
def walk (s : State) (p : BitString) : Option Nat :=
  match s.root with
  | none => none
  | some r => walkFrom s.nodes r p

/-- A node as `alloc()` makes it (41_tree.md R143). -/
def emptyNode : Node :=
  { payload := none, left := none, right := none, weight := 0 }

/-- NODE[n].LEFT <- c or NODE[n].RIGHT <- c. -/
def linkChild (nodes : List Node) (n : Nat) (bit : Bool) (c : Nat) : List Node :=
  nodes.modify n (fun x => if bit then { x with right := some c } else { x with left := some c })

/-- NODE[n].PV <- 1; NODE[n].PAY <- v. -/
def setPayload (nodes : List Node) (n : Nat) (v : Byte) : List Node :=
  nodes.modify n (fun x => { x with payload := some v })

/-- The loop of 41_tree.md R145: walk down `p` from node `n`, creating what is missing. The second component is the node at
the path's end, or `none` where a node is needed and NODE_COUNT = NODE_CAP (R143): the nodes made before stay linked. -/
def insertPath (nodeCap : Nat) : List Node → Nat → BitString → List Node × Option Nat
  | nodes, n, [] => (nodes, some n)
  | nodes, n, bit :: p =>
    match child nodes n bit with
    | some c => insertPath nodeCap nodes c p
    | none =>
      if nodes.length = nodeCap then (nodes, none)
      else insertPath nodeCap (linkChild (nodes ++ [emptyNode]) n bit nodes.length) nodes.length p

/-- The effect of TREE_CLEAR without completing (41_tree.md R144). -/
def clearTree (s : State) : State :=
  { s with nodes := [emptyNode], root := some 0, cursor := some 0, symCount := 0 }

/-- The first line of 41_tree.md R145: an implicit clear when ROOT is NIL. The second component is ROOT. -/
def ensureRoot (s : State) : State × Nat :=
  match s.root with
  | some r => (s, r)
  | none => (clearTree s, 0)

/-- Insert payload `v` at path `p` (41_tree.md R145), shared by TREE_INSERT and TABLE_PARSE (46_table_parser.md R265). -/
def insertPayload (s : State) (p : BitString) (v : Byte) : Effect :=
  let (s1, r) := ensureRoot s
  match insertPath s1.caps.nodeCap s1.nodes r p with
  | (nodes, some n) => .completed { s1 with nodes := setPayload nodes n v }
  | (nodes, none) => .raised .nodeCapacity 0 { s1 with nodes := nodes }

/-- `found(n)` (41_tree.md R140). -/
def foundResult (nodes : List Node) (n : Nat) : Result :=
  { found := true, leaf := (nodeAt nodes n).payload.isSome, payload := (nodeAt nodes n).payload.getD 0, node := some n }

/-! ## Bit streams (20_memory.md R61) -/

/-- The bits of a byte, most significant first. -/
def byteBits (b : Byte) : BitString :=
  [b.getLsbD 7, b.getLsbD 6, b.getLsbD 5, b.getLsbD 4, b.getLsbD 3, b.getLsbD 2, b.getLsbD 1, b.getLsbD 0]

/-- The bit sequence of a byte stream: bit `k` is `bit(T, k)` (20_memory.md R61). -/
def streamBits (bytes : List Byte) : BitString :=
  bytes.flatMap byteBits

/-- The byte with these bits, bit 0 first. -/
def natOfBits : BitString → Nat
  | [] => 0
  | b :: bs => b.toNat + 2 * natOfBits bs

/-- Cut a bit sequence into bytes, the earlier bit the more significant (45_bit_packer.md R247). Fewer than eight bits left
over make no byte (a padded stream leaves none). -/
def packBits : BitString → List Byte
  | b7 :: b6 :: b5 :: b4 :: b3 :: b2 :: b1 :: b0 :: rest =>
    BitVec.ofNat 8 (natOfBits [b0, b1, b2, b3, b4, b5, b6, b7]) :: packBits rest
  | _ => []

end Sys2Proof.Machine
end

