-- ==== Sys2Proof/Machine/Operands.lean ====
section
/-! DEFINITION. The operand registers (30_encoding.md R94): COUNT, the path, and how a code is laid out in PATH0 to PATH7. The
immediate operands are in `Instr`. -/

namespace Sys2Proof.Machine

/-- COUNT = COUNT_HI ++ COUNT_LO (10_state.md R34). -/
def countOperand (s : State) : BitVec 64 :=
  s.countHi ++ s.countLo

/-- `P[i]`: bit (i mod 32) of PATH(i div 32) (10_state.md R35, 20_memory.md R62). -/
def pathBit (s : State) (i : Nat) : Bool :=
  (s.path[i / 32]?.getD 0).getLsbD (i % 32)

/-- The path operand: the bits `P[0]` to `P[n-1]`, n = PATH_LEN (10_state.md R35). -/
def pathOperand (s : State) : BitString :=
  (List.range s.pathLen.toNat).map (pathBit s)

/-- PATHk for a code: bit j is bit 32k + j of the code, 0 beyond its end (44_code_table.md R216). -/
def pathWord (c : BitString) (k : Nat) : Word :=
  BitVec.ofNat 32 (natOfBits ((c.drop (32 * k)).take 32))

/-- PATH0 to PATH7 for a code (44_code_table.md R216). -/
def pathWords (c : BitString) : Vector Word 8 :=
  #v[pathWord c 0, pathWord c 1, pathWord c 2, pathWord c 3, pathWord c 4, pathWord c 5, pathWord c 6, pathWord c 7]

/-- The byte values 0 to 255, ascending. -/
def allSymbols : List Byte :=
  (List.range 256).map (BitVec.ofNat 8)

/-- HIST[b]. -/
def histAt (h : Histogram) (b : Byte) : BitVec 64 :=
  h[b.toNat]'b.isLt

/-- HIST[b] <- v. -/
def histPut (h : Histogram) (b : Byte) (v : BitVec 64) : Histogram :=
  h.set b.toNat v b.isLt

/-- CODE[b]: `none` is VALID = 0. -/
def codeAt (t : CodeTable) (b : Byte) : Option BitString :=
  t[b.toNat]'b.isLt

/-- CODE[b] <- a valid code. -/
def codePut (t : CodeTable) (b : Byte) (c : BitString) : CodeTable :=
  t.set b.toNat (some c) b.isLt

/-- HIST with every entry 0. -/
def zeroHist : Histogram :=
  Vector.replicate 256 0

/-- CODE with every VALID = 0. -/
def emptyCode : CodeTable :=
  Vector.replicate 256 none

end Sys2Proof.Machine
end

