-- ==== Sys2Proof/Machine/Flags.lean ====
section
/-! DEFINITION. The bits HUFF reports: STATUS and its derived ERR, the error codes, the formats of ERR_INFO, the words of RESULT
and of a node index, and the irq output. -/

namespace Sys2Proof.Machine

/-- The code of an error (60_exceptions.md R301). -/
def ErrorCode.code (e : ErrorCode) : BitVec 4 :=
  match e with
  | .ioFailure => 1
  | .missingSymbolCode => 2
  | .corruptStream => 3
  | .malformedTable => 4
  | .invalidPath => 5
  | .illegalCommand => 6
  | .nodeCapacity => 7

/-- STATUS.ERRCODE (10_state.md R25): 0 is no error. -/
def errCodeField (e : Option ErrorCode) : BitVec 4 :=
  match e with
  | none => 0
  | some c => c.code

/-- STATUS.BUSY (10_state.md R44). -/
def busyFlag (s : State) : Bool :=
  s.phase == .busy

/-- STATUS.ERR: 1 exactly when ERRCODE is not 0 (10_state.md R25). -/
def errFlag (s : State) : Bool :=
  errCodeField s.errCode != 0

/-- STATUS as it reads (10_state.md R25): ERRCODE [11:8], REJECT [3], ERR [2], DONE [1], BUSY [0], the rest 0. -/
def statusWord (s : State) : Word :=
  (0 : BitVec 20) ++ errCodeField s.errCode ++ (0 : BitVec 4) ++ BitVec.ofBool s.reject ++ BitVec.ofBool (errFlag s) ++
    BitVec.ofBool s.done ++ BitVec.ofBool (busyFlag s)

/-- A write to STATUS: 1 in bit [1] clears DONE, 1 in bit [3] clears REJECT, every other bit is ignored (10_state.md R25). -/
def writeStatus (v : Word) (s : State) : State :=
  { s with done := s.done && !v.getLsbD 1, reject := s.reject && !v.getLsbD 3 }

/-- The irq output: IRQ_EN.DONE_IE AND STATUS.DONE (10_state.md R46, 60_exceptions.md R307). -/
def irq (s : State) : Bool :=
  s.doneIe && s.done

/-- A node index as registers hold it: NIL is 0xFFFF (10_state.md R38, 41_tree.md R140). -/
def nodeWord (n : Option Nat) : BitVec 16 :=
  match n with
  | none => 0xFFFF
  | some i => BitVec.ofNat 16 i

/-- RESULT as it reads (10_state.md R36): NODE [31:16], PAYLOAD [15:8], LEAF [1], FOUND [0]. -/
def Result.word (r : Result) : Word :=
  nodeWord r.node ++ r.payload ++ (0 : BitVec 6) ++ BitVec.ofBool r.leaf ++ BitVec.ofBool r.found

/-- ERR_INFO of IO_FAILURE: which buffer (60_exceptions.md R302). -/
def ibufInfo : Word := 1

/-- ERR_INFO of IO_FAILURE for OBUF (60_exceptions.md R302). -/
def obufInfo : Word := 2

/-- ERR_INFO of IO_FAILURE for TBUF (60_exceptions.md R302). -/
def tbufInfo : Word := 3

/-- ERR_INFO of MISSING_SYMBOL_CODE: IBUF offset [31:8], the byte [7:0] (60_exceptions.md R302). -/
def missingSymbolInfo (offset : Nat) (b : Byte) : Word :=
  BitVec.ofNat 24 offset ++ b

/-- The sub-causes of CORRUPT_STREAM (60_exceptions.md R302). -/
inductive CorruptCause where
  | missingChild
  | empty
  | noMarker
  | truncated
  | degenerateOne
deriving DecidableEq, Repr

/-- The number of a CORRUPT_STREAM sub-cause (60_exceptions.md R302). -/
def CorruptCause.code (c : CorruptCause) : BitVec 4 :=
  match c with
  | .missingChild => 1
  | .empty => 2
  | .noMarker => 3
  | .truncated => 4
  | .degenerateOne => 5

/-- The sub-causes of MALFORMED_TABLE (60_exceptions.md R302); `grammar` is SYNTAX. -/
inductive TableCause where
  | grammar
  | range
  | tooLong
  | duplicate
deriving DecidableEq, Repr

/-- The number of a MALFORMED_TABLE sub-cause (60_exceptions.md R302). -/
def TableCause.code (c : TableCause) : BitVec 4 :=
  match c with
  | .grammar => 1
  | .range => 2
  | .tooLong => 3
  | .duplicate => 4

/-- A sub-cause in [31:28] and a position in [27:0] (60_exceptions.md R302). -/
def causeInfo (cause : BitVec 4) (position : Nat) : Word :=
  cause ++ BitVec.ofNat 28 position

/-- ERR_INFO of INVALID_PATH for CODE_SET b: 1 in [31:28], b in [7:0] (60_exceptions.md R302). -/
def emptyPathInfo (b : Byte) : Word :=
  (1 : BitVec 4) ++ (0 : BitVec 20) ++ b

/-- ERR_INFO of INVALID_PATH for TABLE_PARSE: 2 in [31:28], the entry index in [27:0] (60_exceptions.md R302). -/
def emptyCodeInfo (entry : Nat) : Word :=
  causeInfo 2 entry

end Sys2Proof.Machine
end

