-- ==== Sys2Proof/Machine/CodeTable.lean ====
section
/-! DEFINITION. The code table and serializer commands (44_code_table.md). -/

namespace Sys2Proof.Machine

/-! ## Derivation -/

/-- The payload nodes at and below node `n`, each with its path, in preorder, left before right, not descending below a
payload (44_code_table.md R211, R212). `p` is the path of `n`, `depth` how many levels may follow; `none` where a node lies
deeper (log entry 9). -/
def leafCodes (nodes : List Node) : (depth : Nat) → Nat → BitString → Option (List (Byte × BitString))
  | 0, n, p =>
    match (nodeAt nodes n).payload with
    | some b => some [(b, p)]
    | none => if (nodeAt nodes n).left = none ∧ (nodeAt nodes n).right = none then some [] else none
  | depth + 1, n, p =>
    match (nodeAt nodes n).payload with
    | some b => some [(b, p)]
    | none =>
      match (nodeAt nodes n).left.elim (some []) (fun c => leafCodes nodes depth c (p ++ [false])) with
      | none => none
      | some l =>
        match (nodeAt nodes n).right.elim (some []) (fun c => leafCodes nodes depth c (p ++ [true])) with
        | none => none
        | some r => some (l ++ r)

/-- The code recorded for a path: the empty path of a degenerate root becomes "0" (44_code_table.md R213). -/
def recordedCode (p : BitString) : BitString :=
  if p = [] then [false] else p

/-- Record one payload node: the first one reached for a byte value gives its code (44_code_table.md R214). -/
def recordLeaf (t : CodeTable) (leaf : Byte × BitString) : CodeTable :=
  if codeAt t leaf.1 = none then codePut t leaf.1 (recordedCode leaf.2) else t

/-- The code table of a tree (44_code_table.md R211). -/
def deriveTable (nodes : List Node) (root : Option Nat) : Option CodeTable :=
  match root with
  | none => some emptyCode
  | some r => (leafCodes nodes Config.maxCodeLen r []).map (fun leaves => leaves.foldl recordLeaf emptyCode)

/-- The rule of CODE_DERIVE (44_code_table.md R211). -/
def ruleCodeDerive (s : State) : Effect :=
  match deriveTable s.nodes s.root with
  | some t => .completed { s with code := t }
  | none => .stuck .treeUnbounded

/-- CODE_DERIVE (44_code_table.md R211). -/
def execCodeDerive (s : State) : Host.Outcome State Fault Refusal :=
  (ruleCodeDerive s).finish

/-! ## Direct access -/

/-- CODE_CLEAR (44_code_table.md R215). -/
def execCodeClear (s : State) : Host.Outcome State Fault Refusal :=
  (Effect.completed { s with code := emptyCode }).finish

/-- The rule of CODE_GET b (44_code_table.md R216). -/
def ruleCodeGet (b : Byte) (s : State) : Effect :=
  match codeAt s.code b with
  | some c =>
    .completed
      { s with
        pathLen := BitVec.ofNat 8 c.length, path := pathWords c,
        result := { found := true, leaf := false, payload := b, node := none } }
  | none =>
    .completed { s with pathLen := 0, path := Vector.replicate 8 0, result := Result.notFound }

/-- CODE_GET b (44_code_table.md R216). -/
def execCodeGet (b : Byte) (s : State) : Host.Outcome State Fault Refusal :=
  (ruleCodeGet b s).finish

/-- The rule of CODE_SET b (44_code_table.md R217). -/
def ruleCodeSet (b : Byte) (s : State) : Effect :=
  if s.pathLen = 0 then .raised .invalidPath (emptyPathInfo b) s
  else .completed { s with code := codePut s.code b (pathOperand s) }

/-- CODE_SET b (44_code_table.md R217). -/
def execCodeSet (b : Byte) (s : State) : Host.Outcome State Fault Refusal :=
  (ruleCodeSet b s).finish

/-! ## Serialization -/

/-- The ASCII character of a decimal digit (44_code_table.md R221, log entry 15). -/
def digitChar (d : Nat) : Byte :=
  BitVec.ofNat 8 (0x30 + d)

/-- The ASCII character of a bit (44_code_table.md R218, R221). -/
def bitChar (b : Bool) : Byte :=
  if b then 0x31 else 0x30

/-- The character `:` (44_code_table.md R221). -/
def colonChar : Byte := 0x3A

/-- The character `-` (44_code_table.md R221). -/
def dashChar : Byte := 0x2D

/-- `dec(b)`: the decimal numeral with no leading zeros (44_code_table.md R220). -/
def decimalText (b : Byte) : List Byte :=
  let n := b.toNat
  if n < 10 then [digitChar n]
  else if n < 100 then [digitChar (n / 10), digitChar (n % 10)]
  else [digitChar (n / 100), digitChar (n / 10 % 10), digitChar (n % 10)]

/-- One entry, `ASCII_CODE:BIT_STRING` (44_code_table.md R218). -/
def entryText (e : Byte × BitString) : List Byte :=
  decimalText e.1 ++ [colonChar] ++ e.2.map bitChar

/-- The valid entries in ascending byte value (44_code_table.md R219). -/
def codeEntries (t : CodeTable) : List (Byte × BitString) :=
  allSymbols.filterMap (fun b => (codeAt t b).map (fun c => (b, c)))

/-- The table text: the entries separated by `-`, no terminator (44_code_table.md R218, R222, R223). -/
def tableText (t : CodeTable) : List Byte :=
  List.intercalate [dashChar] ((codeEntries t).map entryText)

/-- The rule of TABLE_SERIALIZE (44_code_table.md R218, R225). -/
def ruleTableSerialize (s : State) : Effect :=
  if s.caps.tbufCap < (tableText s.code).length then .raised .ioFailure tbufInfo s
  else
    .completed
      { writeBytes s tbufBase (tableText s.code) with tblLen := BitVec.ofNat 32 (tableText s.code).length }

/-- TABLE_SERIALIZE (44_code_table.md R218). -/
def execTableSerialize (s : State) : Host.Outcome State Fault Refusal :=
  (ruleTableSerialize s).finish

end Sys2Proof.Machine
end

