-- ==== Sys2Proof/Machine/Control.lean ====
section
/-! DEFINITION. The command that computes nothing (40_command_protocol.md R125) and an illegal word (R126). -/

namespace Sys2Proof.Machine

/-- NOP (40_command_protocol.md R125): `complete`. -/
def execNop (s : State) : Host.Outcome State Fault Refusal :=
  (Effect.completed s).finish

/-- An illegal command (40_command_protocol.md R126): `raise ILLEGAL_COMMAND(info = w)`, `w` the word in CMD. -/
def performIllegal (w : Word) (s : State) : Host.Outcome State Fault Refusal :=
  (Effect.raised .illegalCommand w s).finish

end Sys2Proof.Machine
end

