-- ==== Sys2Proof/Machine/Histogram.lean ====
section
/-! DEFINITION. The frequency histogram commands (42_histogram.md). -/

namespace Sys2Proof.Machine

/-- The counts of a byte sequence, from all 0, in one pass (42_histogram.md R171). -/
def countBytes (bytes : List Byte) : Histogram :=
  bytes.foldl (fun h b => histPut h b (histAt h b + 1)) zeroHist

/-- The rule of HIST_COUNT (42_histogram.md R171). -/
def ruleHistCount (s : State) : Effect :=
  if s.caps.ibufCap < s.inLen.toNat then .raised .ioFailure ibufInfo s
  else .completed { s with hist := countBytes (inputBytes s) }

/-- HIST_COUNT (42_histogram.md R171). -/
def execHistCount (s : State) : Host.Outcome State Fault Refusal :=
  (ruleHistCount s).finish

/-- HIST_CLEAR (42_histogram.md R173). -/
def execHistClear (s : State) : Host.Outcome State Fault Refusal :=
  (Effect.completed { s with hist := zeroHist }).finish

/-- HIST_GET b (42_histogram.md R174). -/
def execHistGet (b : Byte) (s : State) : Host.Outcome State Fault Refusal :=
  (Effect.completed
    { s with countLo := (histAt s.hist b).extractLsb' 0 32, countHi := (histAt s.hist b).extractLsb' 32 32 }).finish

/-- HIST_SET b (42_histogram.md R175). -/
def execHistSet (b : Byte) (s : State) : Host.Outcome State Fault Refusal :=
  (Effect.completed { s with hist := histPut s.hist b (countOperand s) }).finish

end Sys2Proof.Machine
end

