-- ==== Sys2Proof/Machine/TreeBuilder.lean ====
section
/-! DEFINITION. The tree builder (43_tree_builder.md). -/

namespace Sys2Proof.Machine

/-- The leaves that seed the queue: one per symbol with a nonzero count, in ascending byte value (43_tree_builder.md R191). -/
def seedLeaves (h : Histogram) : List Node :=
  allSymbols.filterMap (fun b =>
    if histAt h b = 0 then none
    else some { payload := some b, left := none, right := none, weight := (histAt h b).setWidth 72 })

/-- The order of the queue: the lower weight first, among equal weights the lower index (43_tree_builder.md R193). -/
def keyLe (nodes : List Node) (x y : Nat) : Bool :=
  (nodeAt nodes x).weight.toNat < (nodeAt nodes y).weight.toNat ||
    ((nodeAt nodes x).weight == (nodeAt nodes y).weight && decide (x ≤ y))

/-- `minkey(Q)` (43_tree_builder.md R193); `none` where the queue is empty. -/
def minKey (nodes : List Node) : List Nat → Option Nat
  | [] => none
  | x :: q =>
    match minKey nodes q with
    | none => some x
    | some y => if keyLe nodes x y then some x else some y

/-- The node that merges `x` (removed first, left) and `y` (43_tree_builder.md R194). Weights are 72 bits and no sum of a
built tree wraps (R192). -/
def mergedNode (nodes : List Node) (x y : Nat) : Node :=
  { payload := none, left := some x, right := some y, weight := (nodeAt nodes x).weight + (nodeAt nodes y).weight }

/-- The loop of 43_tree_builder.md R190 while the queue holds two nodes or more. Each turn shortens the queue by one, so its
length at the start bounds the number of turns. -/
def mergeLoop : (turns : Nat) → List Node → List Nat → List Node × List Nat
  | 0, nodes, q => (nodes, q)
  | turns + 1, nodes, q =>
    match minKey nodes q with
    | none => (nodes, q)
    | some x =>
      match minKey nodes (q.erase x) with
      | none => (nodes, q)
      | some y => mergeLoop turns (nodes ++ [mergedNode nodes x y]) ((q.erase x).erase y ++ [nodes.length])

/-- The arena that TREE_BUILD makes of a histogram, and its root: the one node left in the queue, or NIL where there is no
symbol (43_tree_builder.md R190, R195, R196). -/
def buildTree (h : Histogram) : List Node × Option Nat :=
  let leaves := seedLeaves h
  let built := mergeLoop leaves.length leaves (List.range leaves.length)
  (built.1, built.2.head?)

/-- The rule of TREE_BUILD (43_tree_builder.md R190). It has no exception: a built tree has at most 511 nodes and
NODE_CAP >= 65281 (R197, log entry 10). -/
def ruleTreeBuild (s : State) : Effect :=
  .completed
    { s with
      nodes := (buildTree s.hist).1, root := (buildTree s.hist).2, cursor := (buildTree s.hist).2,
      symCount := BitVec.ofNat 9 (seedLeaves s.hist).length }

/-- TREE_BUILD (43_tree_builder.md R190). -/
def execTreeBuild (s : State) : Host.Outcome State Fault Refusal :=
  (ruleTreeBuild s).finish

end Sys2Proof.Machine
end

