-- ==== Sys2Proof/Machine/Packer.lean ====
section
/-! DEFINITION. The bit packer and the encode sequence (45_bit_packer.md). -/

namespace Sys2Proof.Machine

/-- The first input byte without a code, with its offset counted from `i` (45_bit_packer.md R242). -/
def firstMissing (t : CodeTable) : (i : Nat) → List Byte → Option (Nat × Byte)
  | _, [] => none
  | i, b :: bytes =>
    match codeAt t b with
    | none => some (i, b)
    | some _ => firstMissing t (i + 1) bytes

/-- The data bits: the codes of the bytes in order (45_bit_packer.md R243). -/
def codedBits (t : CodeTable) (bytes : List Byte) : BitString :=
  bytes.flatMap (fun b => (codeAt t b).getD [])

/-- The padding length of `l` data bits, 1 to 8 (45_bit_packer.md R244). -/
def padLength (l : Nat) : Nat :=
  8 - l % 8

/-- The padded stream: a 1 bit, then 0 bits to the next byte boundary (45_bit_packer.md R244). -/
def paddedBits (bits : BitString) : BitString :=
  bits ++ true :: List.replicate (padLength bits.length - 1) false

/-- The rule of PACK (45_bit_packer.md R240 to R248). -/
def rulePack (s : State) : Effect :=
  if s.caps.ibufCap < s.inLen.toNat then .raised .ioFailure ibufInfo s
  else
    match firstMissing s.code 0 (inputBytes s) with
    | some (i, b) => .raised .missingSymbolCode (missingSymbolInfo i b) s
    | none =>
      let bits := codedBits s.code (inputBytes s)
      let m := (bits.length + padLength bits.length) / 8
      if s.caps.obufCap < m then .raised .ioFailure obufInfo s
      else
        .completed
          { writeBytes s obufBase (packBits (paddedBits bits)) with
            outLen := BitVec.ofNat 32 m, dataBits := BitVec.ofNat 32 bits.length, initSize := s.inLen,
            compSize := BitVec.ofNat 32 m }

/-- PACK (45_bit_packer.md R240). -/
def execPack (s : State) : Host.Outcome State Fault Refusal :=
  (rulePack s).finish

/-- The rule of ENCODE: its five sub-commands in order (45_bit_packer.md R249). -/
def ruleEncode (s : State) : Effect :=
  ((((ruleHistCount s).andThen ruleTreeBuild).andThen ruleCodeDerive).andThen ruleTableSerialize).andThen rulePack

/-- ENCODE (45_bit_packer.md R249). -/
def execEncode (s : State) : Host.Outcome State Fault Refusal :=
  (ruleEncode s).finish

end Sys2Proof.Machine
end

