-- ==== Sys2Proof/Machine/TableParser.lean ====
section
/-! DEFINITION. The table parser (46_table_parser.md). -/

namespace Sys2Proof.Machine

/-- A violation of the grammar and where it is (46_table_parser.md R263). -/
structure TableError where
  cause    : TableCause
  position : Nat
deriving DecidableEq, Repr

/-- What `parse` gives (46_table_parser.md R263): the first violation in text order, or the entries (v, c) in text order. -/
inductive Parsed where
  | malformed (e : TableError)
  | entries (es : List (Byte × BitString))
deriving DecidableEq, Repr

/-- Where the parser stands in an entry (46_table_parser.md R263): in its number, with `start`, `v`, `nd` of the rule, or in
its code, with `start`, `v`, `c`. -/
inductive Scan where
  | number (start v nd : Nat)
  | code (start v : Nat) (c : BitString)
deriving DecidableEq, Repr

/-- A decimal digit, 0x30 to 0x39 (46_table_parser.md R263). -/
def isDigit (ch : Byte) : Bool :=
  decide (0x30 ≤ ch.toNat ∧ ch.toNat ≤ 0x39)

/-- The checks after the digits of a number (46_table_parser.md R263): no digit is SYNTAX, a value above 255 RANGE. -/
def numberError (start v nd pos : Nat) : Option TableError :=
  if nd = 0 then some { cause := .grammar, position := pos }
  else if 255 < v then some { cause := .range, position := start }
  else none

/-- The value of an entry is already in the table (46_table_parser.md R263). -/
def isDuplicate (es : List (Byte × BitString)) (v : Nat) : Bool :=
  es.any (fun e => e.1 == BitVec.ofNat 8 v)

/-- The loop of 46_table_parser.md R263, one character at a time. `pos` is the offset of the next character. -/
def scanTable : Scan → (pos : Nat) → List (Byte × BitString) → List Byte → Parsed
  | .number start v nd, pos, _, [] =>
    .malformed ((numberError start v nd pos).getD { cause := .grammar, position := pos })
  | .number start v nd, pos, es, ch :: rest =>
    if isDigit ch then
      if nd = 3 then .malformed { cause := .range, position := start }
      else scanTable (.number start (10 * v + (ch.toNat - 0x30)) (nd + 1)) (pos + 1) es rest
    else
      match numberError start v nd pos with
      | some e => .malformed e
      | none =>
        if ch ≠ colonChar then .malformed { cause := .grammar, position := pos }
        else scanTable (.code start v []) (pos + 1) es rest
  | .code start v c, _, es, [] =>
    if isDuplicate es v then .malformed { cause := .duplicate, position := start }
    else .entries (es ++ [(BitVec.ofNat 8 v, c)])
  | .code start v c, pos, es, ch :: rest =>
    if ch = bitChar false ∨ ch = bitChar true then
      if c.length = Config.maxCodeLen then .malformed { cause := .tooLong, position := pos }
      else scanTable (.code start v (c ++ [ch == bitChar true])) (pos + 1) es rest
    else if isDuplicate es v then .malformed { cause := .duplicate, position := start }
    else if ch ≠ dashChar then .malformed { cause := .grammar, position := pos }
    else scanTable (.number (pos + 1) 0 0) (pos + 1) (es ++ [(BitVec.ofNat 8 v, c)]) rest

/-- `parse(T)` (46_table_parser.md R263): the empty text has no entry. -/
def parseTable (text : List Byte) : Parsed :=
  if text = [] then .entries [] else scanTable (.number 0 0 0) 0 [] text

/-- The index of the first entry with an empty code (46_table_parser.md R264). -/
def firstEmptyCode (es : List (Byte × BitString)) : Option Nat :=
  es.findIdx? (fun e => e.2.isEmpty)

/-- The one entry of a one-entry table with an empty code is read as "0" (46_table_parser.md R264). -/
def readEmptyCode (e : Byte × BitString) : Byte × BitString :=
  if e.2 = [] then (e.1, [false]) else e

/-- Insert the entries in text order (46_table_parser.md R265). -/
def insertEntries : List (Byte × BitString) → State → Effect
  | [], s => .completed s
  | (v, c) :: es, s => (insertPayload s c v).andThen (insertEntries es)

/-- The last part of 46_table_parser.md R260: a fresh tree, the entries, SYM_COUNT <- k, CURSOR <- ROOT. -/
def loadEntries (es : List (Byte × BitString)) (s : State) : Effect :=
  (insertEntries es (clearTree s)).andThen (fun t =>
    .completed { t with symCount := BitVec.ofNat 9 es.length, cursor := t.root })

/-- The rule of TABLE_PARSE, its checks in the order of 46_table_parser.md R267 (R260 to R266). -/
def ruleTableParse (s : State) : Effect :=
  if s.caps.tbufCap < s.tblLen.toNat then .raised .ioFailure tbufInfo s
  else
    match parseTable (tableBytes s) with
    | .malformed e => .raised .malformedTable (causeInfo e.cause.code e.position) s
    | .entries es =>
      if 2 ≤ es.length then
        match firstEmptyCode es with
        | some j => .raised .invalidPath (emptyCodeInfo j) s
        | none => loadEntries es s
      else loadEntries (es.map readEmptyCode) s

/-- TABLE_PARSE (46_table_parser.md R260). -/
def execTableParse (s : State) : Host.Outcome State Fault Refusal :=
  (ruleTableParse s).finish

end Sys2Proof.Machine
end

