-- ==== Sys2Proof/Machine/Tree.lean ====
section
/-! DEFINITION. The tree store commands (41_tree.md). -/

namespace Sys2Proof.Machine

/-- TREE_CLEAR (41_tree.md R144). -/
def execTreeClear (s : State) : Host.Outcome State Fault Refusal :=
  (Effect.completed (clearTree s)).finish

/-- TREE_INSERT b (41_tree.md R145). -/
def execTreeInsert (b : Byte) (s : State) : Host.Outcome State Fault Refusal :=
  (insertPayload s (pathOperand s) b).finish

/-- The rule of TREE_SEARCH (41_tree.md R146). -/
def ruleTreeSearch (s : State) : Effect :=
  match walk s (pathOperand s) with
  | none => .completed { s with result := Result.notFound }
  | some n => .completed { s with result := foundResult s.nodes n }

/-- TREE_SEARCH (41_tree.md R146). -/
def execTreeSearch (s : State) : Host.Outcome State Fault Refusal :=
  (ruleTreeSearch s).finish

/-- The rule of TREE_STEP: an absent child leaves CURSOR where it was (41_tree.md R147). -/
def ruleTreeStep (bit : Bool) (s : State) : Effect :=
  match s.cursor with
  | none => .completed { s with result := Result.notFound }
  | some n =>
    match child s.nodes n bit with
    | none => .completed { s with result := Result.notFound }
    | some c => .completed { s with cursor := some c, result := foundResult s.nodes c }

/-- TREE_STEP s (41_tree.md R147). -/
def execTreeStep (bit : Bool) (s : State) : Host.Outcome State Fault Refusal :=
  (ruleTreeStep bit s).finish

/-- TREE_RESET (41_tree.md R148). -/
def execTreeReset (s : State) : Host.Outcome State Fault Refusal :=
  (Effect.completed { s with cursor := s.root }).finish

end Sys2Proof.Machine
end

