-- ==== Sys2Proof/Machine/Unpacker.lean ====
section
/-! DEFINITION. The bit unpacker and the decode sequence (47_bit_unpacker.md). -/

namespace Sys2Proof.Machine

/-- The index of the lowest set bit of a byte: `p` of 47_bit_unpacker.md R282; `none` for 0x00, which holds no padding marker
(R283). -/
def lowestSetBit (b : Byte) : Option Nat :=
  (List.range 8).find? (fun i => b.getLsbD i)

/-- How the loop of 47_bit_unpacker.md R280 ends: the bytes emitted, where the traversal stands, and the error if one was
raised. -/
structure Unpacked where
  out   : List Byte
  cur   : Option Nat
  error : Option (ErrorCode × Word)
deriving DecidableEq, Repr

/-- The loop of 47_bit_unpacker.md R280 over the data bits, from bit position `i`, with the bytes emitted so far and the
traversal at `cur`. `degenerate` is the root's payload where the root carries one (R284). -/
def unpackBits (obufCap : Nat) (nodes : List Node) (root : Option Nat) (degenerate : Option Byte) :
    (i : Nat) → List Byte → Option Nat → BitString → Unpacked
  | i, out, cur, [] =>
    { out := out, cur := cur,
      error := if cur = root then none else some (.corruptStream, causeInfo CorruptCause.truncated.code i) }
  | i, out, cur, bit :: rest =>
    match degenerate with
    | some v =>
      if bit then { out := out, cur := cur, error := some (.corruptStream, causeInfo CorruptCause.degenerateOne.code i) }
      else if out.length = obufCap then { out := out, cur := cur, error := some (.ioFailure, obufInfo) }
      else unpackBits obufCap nodes root degenerate (i + 1) (out ++ [v]) cur rest
    | none =>
      match cur.bind (fun n => child nodes n bit) with
      | none => { out := out, cur := cur, error := some (.corruptStream, causeInfo CorruptCause.missingChild.code i) }
      | some c =>
        match (nodeAt nodes c).payload with
        | none => unpackBits obufCap nodes root degenerate (i + 1) out (some c) rest
        | some v =>
          if out.length = obufCap then { out := out, cur := some c, error := some (.ioFailure, obufInfo) }
          else unpackBits obufCap nodes root degenerate (i + 1) (out ++ [v]) root rest

/-- The payload of the root, where the tree is degenerate (47_bit_unpacker.md R284). -/
def rootPayload (s : State) : Option Byte :=
  s.root.bind (fun r => (nodeAt s.nodes r).payload)

/-- The part of 47_bit_unpacker.md R280 after the padding marker is found: decode the first `d` bits, then leave what R288
says. -/
def decodeStream (d : Nat) (s : State) : Effect :=
  let r := unpackBits s.caps.obufCap s.nodes s.root (rootPayload s) 0 [] s.root ((streamBits (inputBytes s)).take d)
  let t := { writeBytes s obufBase r.out with outLen := BitVec.ofNat 32 r.out.length, cursor := r.cur }
  match r.error with
  | some (e, info) => .raised e info t
  | none => .completed { t with dataBits := BitVec.ofNat 32 d }

/-- The rule of UNPACK (47_bit_unpacker.md R280 to R288). -/
def ruleUnpack (s : State) : Effect :=
  if s.caps.ibufCap < s.inLen.toNat then .raised .ioFailure ibufInfo s
  else if s.inLen = 0 then .raised .corruptStream (causeInfo CorruptCause.empty.code 0) s
  else
    match lowestSetBit (readByte s (ibufBase + (s.inLen.toNat - 1))) with
    | none => .raised .corruptStream (causeInfo CorruptCause.noMarker.code (s.inLen.toNat - 1)) s
    | some p => decodeStream (8 * s.inLen.toNat - (p + 1)) s

/-- UNPACK (47_bit_unpacker.md R280). -/
def execUnpack (s : State) : Host.Outcome State Fault Refusal :=
  (ruleUnpack s).finish

/-- The rule of DECODE: its two sub-commands in order (47_bit_unpacker.md R289). -/
def ruleDecode (s : State) : Effect :=
  (ruleTableParse s).andThen ruleUnpack

/-- DECODE (47_bit_unpacker.md R289). -/
def execDecode (s : State) : Host.Outcome State Fault Refusal :=
  (ruleDecode s).finish

end Sys2Proof.Machine
end

