-- ==== Sys2Proof/Machine/Dispatch.lean ====
section
/-! DEFINITION. The perform step of each command (40_command_protocol.md R123): one arm per constructor of `Instr`. -/

namespace Sys2Proof.Machine

/-- `perform(C)` and completion (40_command_protocol.md R123). -/
def exec (i : Instr) (s : State) : Host.Outcome State Fault Refusal :=
  match i with
  | .nop => Sys2Proof.Machine.execNop s
  | .histCount => Sys2Proof.Machine.execHistCount s
  | .histClear => Sys2Proof.Machine.execHistClear s
  | .histGet b => Sys2Proof.Machine.execHistGet b s
  | .histSet b => Sys2Proof.Machine.execHistSet b s
  | .treeBuild => Sys2Proof.Machine.execTreeBuild s
  | .codeDerive => Sys2Proof.Machine.execCodeDerive s
  | .codeClear => Sys2Proof.Machine.execCodeClear s
  | .codeGet b => Sys2Proof.Machine.execCodeGet b s
  | .codeSet b => Sys2Proof.Machine.execCodeSet b s
  | .tableSerialize => Sys2Proof.Machine.execTableSerialize s
  | .pack => Sys2Proof.Machine.execPack s
  | .encode => Sys2Proof.Machine.execEncode s
  | .treeClear => Sys2Proof.Machine.execTreeClear s
  | .treeInsert b => Sys2Proof.Machine.execTreeInsert b s
  | .treeSearch => Sys2Proof.Machine.execTreeSearch s
  | .treeStep bit => Sys2Proof.Machine.execTreeStep bit s
  | .treeReset => Sys2Proof.Machine.execTreeReset s
  | .tableParse => Sys2Proof.Machine.execTableParse s
  | .unpack => Sys2Proof.Machine.execUnpack s
  | .decode => Sys2Proof.Machine.execDecode s

end Sys2Proof.Machine
end

