-- ==== Sys2Proof/Machine/HostPort.lean ====
section
/-! DEFINITION. The host port: the register bank, the address map and what each access does (10_state.md, 20_memory.md), the reset
event (70_reset_and_hazards.md R330), and one turn of the host agent (30_encoding.md R100). -/

namespace Sys2Proof.Machine

/-! ## The register bank (10_state.md R22 to R38) -/

/-- The mapped registers. -/
inductive Reg where
  | id | status | cmd | irqEn | errInfo | inLen | outLen | tblLen | initSize | compSize | dataBits | countLo | countHi
  | pathLen | result | cursor | root | nodeCount | symCount | ibufCap | obufCap | tbufCap | nodeCap
  | path (k : Fin 8)
deriving DecidableEq, Repr

/-- The offset of a register (20_memory.md R63). -/
def Reg.offset (r : Reg) : Nat :=
  match r with
  | .id => 0x000
  | .status => 0x004
  | .cmd => 0x008
  | .irqEn => 0x00C
  | .errInfo => 0x010
  | .inLen => 0x014
  | .outLen => 0x018
  | .tblLen => 0x01C
  | .initSize => 0x020
  | .compSize => 0x024
  | .dataBits => 0x028
  | .countLo => 0x02C
  | .countHi => 0x030
  | .pathLen => 0x034
  | .result => 0x038
  | .cursor => 0x03C
  | .root => 0x040
  | .nodeCount => 0x044
  | .symCount => 0x048
  | .ibufCap => 0x04C
  | .obufCap => 0x050
  | .tbufCap => 0x054
  | .nodeCap => 0x058
  | .path k => 0x060 + 4 * k.val

/-- Every mapped register. -/
def allRegs : List Reg :=
  [.id, .status, .cmd, .irqEn, .errInfo, .inLen, .outLen, .tblLen, .initSize, .compSize, .dataBits, .countLo, .countHi,
   .pathLen, .result, .cursor, .root, .nodeCount, .symCount, .ibufCap, .obufCap, .tbufCap, .nodeCap,
   .path 0, .path 1, .path 2, .path 3, .path 4, .path 5, .path 6, .path 7]

/-- The register at an address, if one is mapped there (20_memory.md R63). -/
def regAt (a : Nat) : Option Reg :=
  allRegs.find? (fun r => r.offset == a)

/-- ID (10_state.md R24). -/
def idValue : Word := 0x48554631

/-- A register as it reads while IDLE (10_state.md R22 to R38). Reserved bits read 0 (R23). -/
def readReg (r : Reg) (s : State) : Word :=
  match r with
  | .id => idValue
  | .status => statusWord s
  | .cmd => s.cmd
  | .irqEn => (0 : BitVec 31) ++ BitVec.ofBool s.doneIe
  | .errInfo => s.errInfo
  | .inLen => s.inLen
  | .outLen => s.outLen
  | .tblLen => s.tblLen
  | .initSize => s.initSize
  | .compSize => s.compSize
  | .dataBits => s.dataBits
  | .countLo => s.countLo
  | .countHi => s.countHi
  | .pathLen => (0 : BitVec 24) ++ s.pathLen
  | .result => s.result.word
  | .cursor => (0 : BitVec 16) ++ nodeWord s.cursor
  | .root => (0 : BitVec 16) ++ nodeWord s.root
  | .nodeCount => (0 : BitVec 16) ++ BitVec.ofNat 16 s.nodes.length
  | .symCount => (0 : BitVec 23) ++ s.symCount
  | .ibufCap => BitVec.ofNat 32 s.caps.ibufCap
  | .obufCap => BitVec.ofNat 32 s.caps.obufCap
  | .tbufCap => BitVec.ofNat 32 s.caps.tbufCap
  | .nodeCap => BitVec.ofNat 32 s.caps.nodeCap
  | .path k => s.path[k.val]

/-- The registers that read their value while BUSY: STATUS, ID, IRQ_EN and the capacity registers (20_memory.md R73). -/
def readableWhileBusy (r : Reg) : Bool :=
  match r with
  | .status | .id | .irqEn | .ibufCap | .obufCap | .tbufCap | .nodeCap => true
  | .cmd | .errInfo | .inLen | .outLen | .tblLen | .initSize | .compSize | .dataBits | .countLo | .countHi | .pathLen
  | .result | .cursor | .root | .nodeCount | .symCount | .path _ => false

/-- How many host turns pass before the engine performs the command just accepted: a delay pinned from outside, else a free
value (40_command_protocol.md R130, log entry 2). -/
def armEngine (s : State) : State :=
  match s.host.pinned with
  | d :: ds => { s with delay := d, host := { s.host with pinned := ds } }
  | [] => { s with delay := Config.performDelay s.draws, draws := s.draws + 1 }

/-- A write to a register while IDLE, as its access type says (10_state.md R22): RO is ignored, RW stores the written bits,
STATUS clears, CMD issues a command. -/
def writeReg (r : Reg) (v : Word) (s : State) : State :=
  match r with
  | .status => writeStatus v s
  | .cmd => armEngine (acceptCommand v s)
  | .irqEn => { s with doneIe := v.getLsbD 0 }
  | .inLen => { s with inLen := v }
  | .tblLen => { s with tblLen := v }
  | .countLo => { s with countLo := v }
  | .countHi => { s with countHi := v }
  | .pathLen => { s with pathLen := v.extractLsb' 0 8 }
  | .path k => { s with path := s.path.set k.val v }
  | .id | .errInfo | .outLen | .initSize | .compSize | .dataBits | .result | .cursor | .root | .nodeCount | .symCount
  | .ibufCap | .obufCap | .tbufCap | .nodeCap => s

/-! ## The address map (20_memory.md R63, R67 to R70) -/

/-- What a legal access reaches. -/
inductive Place where
  | register (r : Reg)
  | buffer (address : Nat)
deriving DecidableEq, Repr

/-- `width` bytes from address `a` lie in a buffer of `cap` bytes at `base`. -/
def inWindow (base cap a width : Nat) : Bool :=
  decide (base ≤ a ∧ a + width ≤ base + cap)

/-- `width` bytes from address `a` lie in one of the three buffers. -/
def inBuffers (c : Caps) (a width : Nat) : Bool :=
  inWindow ibufBase c.ibufCap a width || inWindow obufBase c.obufCap a width || inWindow tbufBase c.tbufCap a width

/-- What an access of `width` bytes at an address reaches; `none` is BUSERR: a wrong width, a misaligned, unmapped or
out-of-capacity access (20_memory.md R68 to R70). -/
def placeOf (c : Caps) (address : Word) (width : Nat) : Option Place :=
  let a := address.toNat
  if width = 4 then
    if a % 4 ≠ 0 then none
    else
      match regAt a with
      | some r => some (.register r)
      | none => if inBuffers c a 4 then some (.buffer a) else none
  else if width = 1 then
    if inBuffers c a 1 then some (.buffer a) else none
  else none

/-! ## The accesses (20_memory.md R65 to R73) -/

/-- The value of 1 or 4 buffer bytes, the lowest address in bits [7:0] (20_memory.md R66). -/
def readBuffer (s : State) (a width : Nat) : Word :=
  if width = 1 then (0 : BitVec 24) ++ readByte s a
  else readByte s (a + 3) ++ readByte s (a + 2) ++ readByte s (a + 1) ++ readByte s a

/-- The bytes a write stores, from the lowest address upward (20_memory.md R66). -/
def storedBytes (v : Word) (width : Nat) : List Byte :=
  if width = 1 then [v.extractLsb' 0 8]
  else [v.extractLsb' 0 8, v.extractLsb' 8 8, v.extractLsb' 16 8, v.extractLsb' 24 8]

/-- A legal place as it reads while IDLE. -/
def readPlace (p : Place) (width : Nat) (s : State) : Word :=
  match p with
  | .register r => readReg r s
  | .buffer a => readBuffer s a width

/-- The place reads its value while BUSY (20_memory.md R73). -/
def Place.readableWhileBusy (p : Place) : Bool :=
  match p with
  | .register r => Machine.readableWhileBusy r
  | .buffer _ => false

/-- `MemRead(address, width)`: the state after, the value and the response. A BUSERR read returns 0 (20_memory.md R70). While
BUSY a place that R73 does not name answers a free value (log entry 4). While reset is asserted nothing is answered
(70_reset_and_hazards.md R330). -/
def hostRead (address : Word) (width : Nat) (s : State) : State × Word × BusResponse :=
  if s.resetPin then (s, s.host.value, .unanswered)
  else
    match placeOf s.caps address width with
    | none => (s, 0, .busErr)
    | some p =>
      if busyFlag s && !p.readableWhileBusy then
        ({ s with draws := s.draws + 1 }, Config.busyRead s.draws, .okay)
      else (s, readPlace p width s, .okay)

/-- A write to a legal place while IDLE. -/
def writePlace (p : Place) (width : Nat) (v : Word) (s : State) : State :=
  match p with
  | .register r => writeReg r v s
  | .buffer a => writeBytes s a (storedBytes v width)

/-- `MemWrite(address, width, v)`: the state after and the response. While BUSY a write other than to STATUS is answered OKAY,
dropped, and sets REJECT (20_memory.md R73, 40_command_protocol.md R122). BUSERR comes first (log entry 6). -/
def hostWrite (address : Word) (width : Nat) (v : Word) (s : State) : State × BusResponse :=
  if s.resetPin then (s, .unanswered)
  else
    match placeOf s.caps address width with
    | none => (s, .busErr)
    | some p =>
      if busyFlag s && p != .register .status then ({ s with reject := true }, .okay)
      else (writePlace p width v s, .okay)

/-! ## Reset (70_reset_and_hazards.md R330 to R332) -/

/-- Asserting the reset input: one step to the reset state; an accepted, unperformed command is discarded. The capacities are
hardwired, the buffers draw new bytes, the host is not part of the block (log entry 12). -/
def assertReset (s : State) : State :=
  if s.resetPin then s else State.afterReset s.caps true (s.resets + 1) s.draws s.host

/-- Releasing the reset input. -/
def releaseReset (s : State) : State :=
  { s with resetPin := false }

/-! ## The host agent (30_encoding.md R100) -/

/-- The host goes on to its next operation. -/
def advanceHost (s : State) : State :=
  { s with host := { s.host with pc := s.host.pc + 1 } }

/-- The host keeps what a read returned. -/
def keepAnswer (value : Word) (r : BusResponse) (s : State) : State :=
  { s with host := { s.host with value := value, response := some r } }

/-- STATUS's host address. -/
def statusAddress : Word := 0x00000004

/-- CMD's host address. -/
def cmdAddress : Word := 0x00000008

/-- The bits [hi:lo] of a word, as a number (00_scope.md R8). -/
def fieldOf (v : Word) (hi lo : Nat) : Nat :=
  v.toNat / 2 ^ lo % 2 ^ (hi + 1 - lo)

/-- One host operation (30_encoding.md R100). `wait` is one `rd32 STATUS`, repeated while bit [0] is 1 or nothing is
answered. -/
def runHostOp (op : HostOp) (s : State) : State :=
  match op with
  | .read address width =>
    let (t, value, r) := hostRead address width s
    advanceHost (keepAnswer value r t)
  | .write address width v =>
    let (t, r) := hostWrite address width v s
    advanceHost (keepAnswer t.host.value r t)
  | .waitDone =>
    let (t, value, r) := hostRead statusAddress 4 s
    if r = .okay ∧ value.getLsbD 0 = false then advanceHost (keepAnswer value r t) else keepAnswer value r t
  | .ifField hi lo value target =>
    if fieldOf s.host.value hi lo = value then { s with host := { s.host with pc := target } } else advanceHost s
  | .goto target => { s with host := { s.host with pc := target } }
  | .assertReset => advanceHost (assertReset s)
  | .releaseReset => advanceHost (releaseReset s)

/-- One turn of the host: its next operation, or nothing where its program is over (log entry 13). -/
def hostTurn (s : State) : State :=
  match s.host.prog[s.host.pc]? with
  | none => s
  | some op => runHostOp op s

end Sys2Proof.Machine
end

