-- ==== Sys2Proof/Machine/Engine.lean ====
section
/-! DEFINITION. The engine's perform step (40_command_protocol.md R123, R126) and whose turn it is (R120, R130). -/

namespace Sys2Proof.Machine

/-- The engine performs the accepted command: the word held in CMD, decoded (40_command_protocol.md R121, R123); an illegal
word raises ILLEGAL_COMMAND (R126). -/
def performCommand (s : State) : Host.Outcome State Fault Refusal :=
  match Sys2Proof.decode s.cmd with
  | .command i => exec i s
  | .illegal _ => performIllegal s.cmd s

/-- One turn of the machine (log entry 1). While reset is asserted, while IDLE, and while BUSY with host turns left, the host
moves; else the engine performs its command. -/
def machineTurn (s : State) : Host.Outcome State Fault Refusal :=
  if s.resetPin then .next (hostTurn s)
  else
    match s.phase, s.delay with
    | .idle, _ => .next (hostTurn s)
    | .busy, d + 1 => .next (hostTurn { s with delay := d })
    | .busy, 0 => performCommand s

end Sys2Proof.Machine
end

