-- ==== Sys2Proof/Machine/Step.lean ====
section
/-! DEFINITION. The step of the machine, and how the host's word is placed for the next step. -/

namespace Sys2Proof.Machine

/-- One step: one host turn, or one perform step of the engine. -/
def step (s : State) : Host.Outcome State Fault Refusal :=
  machineTurn s

/-- The state after a CMD write of the word was accepted (40_command_protocol.md R121), the engine's step next, so that `step`
performs exactly this command (log entry 7). HUFF fetches no instruction: this is where a command comes from (10_state.md
R21). -/
def State.withFetchWord (s : State) (nbits w : Nat) : State :=
  { acceptCommand (tableWord nbits w) s with delay := 0, resetPin := false }

end Sys2Proof.Machine
end

