-- ==== Sys2Proof/Machine/HostProgram.lean ====
section
/-! DEFINITION. The host program notation of 30_encoding.md R100: its operations and pseudo-operations as lists of `HostOp`. -/

namespace Sys2Proof.Machine

/-- `wr32 REG, v`. -/
def wr32 (r : Reg) (v : Word) : List HostOp :=
  [.write (BitVec.ofNat 32 r.offset) 4 v]

/-- `rd32 REG`. -/
def rd32 (r : Reg) : List HostOp :=
  [.read (BitVec.ofNat 32 r.offset) 4]

/-- `wr8 BUF+o, v`, `base` the buffer's base address. -/
def wr8 (base o : Nat) (v : Byte) : List HostOp :=
  [.write (BitVec.ofNat 32 (base + o)) 1 (v.setWidth 32)]

/-- `rd8 BUF+o`. -/
def rd8 (base o : Nat) : List HostOp :=
  [.read (BitVec.ofNat 32 (base + o)) 1]

/-- `cmd M [op]`: write CMD with the command's word (30_encoding.md R99). -/
def cmdOp (i : Instr) : List HostOp :=
  [.write cmdAddress 4 (Sys2Proof.encode i)]

/-- `run M [op]`: `cmd`, then `wait`. -/
def runOp (i : Instr) : List HostOp :=
  cmdOp i ++ [.waitDone]

/-- `setpath "s"`: PATH_LEN, then PATH0 to PATH7. -/
def setPath (p : BitString) : List HostOp :=
  wr32 .pathLen (BitVec.ofNat 32 p.length) ++ (List.finRange 8).flatMap (fun k => wr32 (.path k) (pathWord p k.val))

/-- `setcount c`: COUNT_LO, then COUNT_HI. -/
def setCount (c : BitVec 64) : List HostOp :=
  wr32 .countLo (c.extractLsb' 0 32) ++ wr32 .countHi (c.extractLsb' 32 32)

/-- `wr8 BUF+i, x_i` for each byte of a list. -/
def loadBytes (base : Nat) : (o : Nat) → List Byte → List HostOp
  | _, [] => []
  | o, v :: vs => wr8 base o v ++ loadBytes base (o + 1) vs

/-- `load IBUF, [x_0, …]`: the bytes, then IN_LEN. -/
def loadIbuf (bytes : List Byte) : List HostOp :=
  loadBytes ibufBase 0 bytes ++ wr32 .inLen (BitVec.ofNat 32 bytes.length)

/-- `load TBUF, "text"`: the characters' bytes, then TBL_LEN. -/
def loadTbuf (text : List Byte) : List HostOp :=
  loadBytes tbufBase 0 text ++ wr32 .tblLen (BitVec.ofNat 32 text.length)

/-- A host program placed before a state's first turn. -/
def State.withProgram (s : State) (prog : List HostOp) : State :=
  { s with host := { s.host with prog := prog, pc := 0 } }

/-- Delays pinned for the commands the host will issue (log entry 2). -/
def State.withPinned (s : State) (delays : List Nat) : State :=
  { s with host := { s.host with pinned := delays } }

end Sys2Proof.Machine
end

