-- ==== Sys2Proof/Safety.lean ====
section
/-! DEFINITION. What every reachable state keeps: the invariants that 10_state.md R42 and the width arguments of the spec name, and
the model's own form of memory. -/

namespace Sys2Proof.Machine

/-- The node a path leads to from a root (41_tree.md R142). -/
def walkRoot (nodes : List Node) (root : Option Nat) (p : BitString) : Option Nat :=
  root.bind (fun r => walkFrom nodes r p)

/-- The tree invariant of 10_state.md R42, with the depth bound of 44_code_table.md R211: ROOT and every child field hold NIL or
an existing node, no ROOT means no node, every existing node lies on exactly one path from ROOT, and no path is longer than
MAX_CODE_LEN. A node on exactly one path is the child of at most one node and on no cycle. -/
structure TreeOk (nodes : List Node) (root : Option Nat) : Prop where
  emptyWithoutRoot : root = none → nodes = []
  rootExists : ∀ r, root = some r → r < nodes.length
  childExists : ∀ n, n < nodes.length → ∀ bit c, child nodes n bit = some c → c < nodes.length
  onOnePath : ∀ n, n < nodes.length → ∃ p, walkRoot nodes root p = some n ∧ ∀ q, walkRoot nodes root q = some n → q = p
  pathBounded : ∀ p n, walkRoot nodes root p = some n → p.length ≤ Config.maxCodeLen

/-- CURSOR holds NIL or an existing node (10_state.md R42). -/
def CursorOk (nodes : List Node) (cursor : Option Nat) : Prop :=
  ∀ n, cursor = some n → n < nodes.length

/-- A valid code has 1 to 255 bits (10_state.md R40). -/
def CodeOk (t : CodeTable) : Prop :=
  ∀ b c, codeAt t b = some c → 1 ≤ c.length ∧ c.length ≤ Config.maxCodeLen

/-- Memory is in canonical form and lists buffer bytes only (20_memory.md R63). -/
def MemoryOk (s : State) : Prop :=
  Memory.wf s.mem ∧ ∀ c ∈ s.mem, inBuffers s.caps c.1 1 = true

/-- Every accepted command starts from a clear record (40_command_protocol.md R121), an error record is there only with an
error (60_exceptions.md R302), and a block held in reset is IDLE (70_reset_and_hazards.md R330). -/
def EngineOk (s : State) : Prop :=
  (s.phase = .busy → s.done = false ∧ s.errCode = none) ∧ (s.errCode = none → s.errInfo = 0) ∧
    (s.resetPin = true → s.phase = .idle)

/-- What every reachable state keeps. -/
structure Inv (s : State) : Prop where
  capsLegal : s.caps.Legal
  memory : MemoryOk s
  engine : EngineOk s
  code : CodeOk s.code
  tree : TreeOk s.nodes s.root
  cursor : CursorOk s.nodes s.cursor
  nodesFit : s.nodes.length ≤ s.caps.nodeCap
  symbols : s.symCount.toNat ≤ 256

end Sys2Proof.Machine
end

