-- ==== Sys2Proof/Certificates/Slice0/Obligations.lean ====
section
/-! DEFINITION. The statements of this row. Each docstring says which rule of spec/ it formalises. -/

open Sys2Proof Sys2Proof.Machine

/-! ## Encoding -/

/-- The examples of 30_encoding.md R99, commands of every family of R95, and four illegal words of file 95 (V-P3, V-P4, V-P6, V-P8)
decode as they are meant. That the four are illegal is R96. The reasons their last four clauses name (`immediateNotZero` and so on)
are the model's own, DESIGN CHOICE, log entry 17. -/
def Obligations.WrittenOutWordsDecode : Prop :=
  decode 0x00000000 = .command .nop ∧ decode 0x12000061 = .command (.histGet 0x61) ∧
    decode 0x51000062 = .command (.treeInsert 0x62) ∧ decode 0x53000001 = .command (.treeStep true) ∧
    decode 0x53000000 = .command (.treeStep false) ∧ decode 0x4F000000 = .command .encode ∧
    decode 0x20000000 = .command .treeBuild ∧ decode 0x34000000 = .command .tableSerialize ∧
    decode 0x40000000 = .command .pack ∧ decode 0x60000000 = .command .tableParse ∧
    decode 0x7F000000 = .command .decode ∧ decode 0x00000001 = .illegal .immediateNotZero ∧
    decode 0x53000002 = .illegal .stepBitsNotZero ∧ decode 0x10000100 = .illegal .reservedNotZero ∧
    decode 0x01000000 = .illegal .opcodeUnassigned

/-- 30_encoding.md R91, R92, R95, R98: a word decodes to a command exactly when it is that command's word. Every command round-trips
with every operand, and no two words have one meaning. -/
def Obligations.DecodeAndEncodeAgree : Prop :=
  ∀ (w : Word) (i : Instr), decode w = .command i ↔ encode i = w

/-- 30_encoding.md R96, its first sentence: a word is illegal exactly when its OPC is unassigned, or RSVD [23:8] is not 0, or
IMM8 is not 0 in format N, or IMM8[7:1] is not 0 in format S. -/
def Obligations.IllegalWordsAreThoseOfTheRule : Prop :=
  ∀ w : Word, (∃ why, decode w = .illegal why) ↔
    (opcodeMap.lookup (w.extractLsb' 24 8) = none ∨ w.extractLsb' 8 16 ≠ 0 ∨
      (opcodeMap.lookup (w.extractLsb' 24 8) = some .n ∧ w.extractLsb' 0 8 ≠ 0) ∨
      (opcodeMap.lookup (w.extractLsb' 24 8) = some .s ∧ w.extractLsb' 1 7 ≠ 0))

/-! ## The command protocol and the host port -/

/-- 40_command_protocol.md R120, R123, R130 and the model's own turns (log entries 1, 2, 7): with no host turn left while BUSY the
step is `exec` of the decoded command, or the perform step of an illegal word; else the host moves. The third clause says the same
of a word placed by `withFetchWord`. The last clause says what a move is (20_memory.md R65, 30_encoding.md R100, log entries 12 and
13): the host's next operation is that `hostRead`, `hostWrite`, `assertReset` or `releaseReset`, with the answer kept and the place
moved; `wait` reads STATUS and goes on once an answered read has bit 0 clear; a branch looks at the last value read; and a host whose
program is over does nothing. -/
def Obligations.StepPerformsTheDecodedCommand : Prop :=
  ∀ s : State,
    (∀ i, s.resetPin = false → s.phase = .busy → s.delay = 0 → decode s.cmd = .command i → step s = exec i s) ∧
    (∀ why, s.resetPin = false → s.phase = .busy → s.delay = 0 → decode s.cmd = .illegal why →
      step s = performIllegal s.cmd s ∧ performCommand s = performIllegal s.cmd s) ∧
    (∀ (w : Word) (i : Instr), decode w = .command i →
      step (s.withFetchWord 32 w.toNat) = exec i (s.withFetchWord 32 w.toNat) ∧ (s.withFetchWord 32 w.toNat).cmd = w) ∧
    (∀ d, s.resetPin = false → s.phase = .busy → s.delay = d + 1 → step s = .next (hostTurn { s with delay := d })) ∧
    (s.phase = .idle ∨ s.resetPin = true → step s = .next (hostTurn s)) ∧
    ((s.host.prog[s.host.pc]? = none → hostTurn s = s) ∧
      (∀ a n, s.host.prog[s.host.pc]? = some (.read a n) →
        hostTurn s = { (hostRead a n s).1 with
          host := { s.host with
            pc := s.host.pc + 1, value := (hostRead a n s).2.1, response := some (hostRead a n s).2.2 } }) ∧
      (∀ a n v, s.host.prog[s.host.pc]? = some (.write a n v) →
        hostTurn s = { (hostWrite a n v s).1 with
          host := { (hostWrite a n v s).1.host with pc := s.host.pc + 1, response := some (hostWrite a n v s).2 } } ∧
        (hostWrite a n v s).1.host = { s.host with pinned := (hostWrite a n v s).1.host.pinned }) ∧
      (s.host.prog[s.host.pc]? = some .waitDone →
        hostTurn s = { (hostRead statusAddress 4 s).1 with
          host := { s.host with
            pc := if (hostRead statusAddress 4 s).2.2 = .okay ∧ (hostRead statusAddress 4 s).2.1.getLsbD 0 = false then
                s.host.pc + 1 else s.host.pc,
            value := (hostRead statusAddress 4 s).2.1, response := some (hostRead statusAddress 4 s).2.2 } }) ∧
      (∀ hi lo v target, s.host.prog[s.host.pc]? = some (.ifField hi lo v target) →
        hostTurn s = { s with
          host := { s.host with
            pc := if s.host.value.toNat / 2 ^ lo % 2 ^ (hi + 1 - lo) = v then target else s.host.pc + 1 } }) ∧
      (∀ target, s.host.prog[s.host.pc]? = some (.goto target) →
        hostTurn s = { s with host := { s.host with pc := target } }) ∧
      (s.host.prog[s.host.pc]? = some .assertReset →
        hostTurn s = { assertReset s with host := { s.host with pc := s.host.pc + 1 } }) ∧
      (s.host.prog[s.host.pc]? = some .releaseReset →
        hostTurn s = { releaseReset s with host := { s.host with pc := s.host.pc + 1 } }))

/-- 40_command_protocol.md R126: the perform step of an illegal word raises ILLEGAL_COMMAND (code 6) with ERR_INFO = the word; CMD
keeps it, DONE = 1, and nothing else changes. 0x00000001 and 0x53000002 are illegal. -/
def Obligations.IllegalWordRaisesIllegalCommand : Prop :=
  (∀ (s : State) (why : IllegalWord), decode s.cmd = .illegal why →
    ∃ t, performCommand s = .next t ∧
      t = { s with errCode := some .illegalCommand, errInfo := s.cmd, done := true, phase := .idle } ∧
      errCodeField t.errCode = 6 ∧ errFlag t = true ∧ t.done = true ∧ readReg .errInfo t = s.cmd ∧ readReg .cmd t = s.cmd) ∧
  (∃ why, decode 0x00000001 = .illegal why) ∧ (∃ why, decode 0x53000002 = .illegal why)

/-- 40_command_protocol.md R121: a CMD write while IDLE is answered OKAY and accepts its word; REJECT and everything else stay
(`delay`, `draws` and the pinned delays are the model's own, log entry 2). -/
def Obligations.CmdWriteWhileIdleIsAccepted : Prop :=
  ∀ (s : State) (w : Word), s.resetPin = false → s.phase = .idle →
    ∃ t, hostWrite cmdAddress 4 w s = (t, .okay) ∧
      t.cmd = w ∧ t.done = false ∧ errCodeField t.errCode = 0 ∧ errFlag t = false ∧ t.errInfo = 0 ∧ busyFlag t = true ∧
      t.reject = s.reject ∧ decode t.cmd = decode w ∧
      t = { s with
        cmd := w, done := false, errCode := none, errInfo := 0, phase := .busy, delay := t.delay, draws := t.draws,
        host := { s.host with pinned := t.host.pinned } }

/-- 20_memory.md R73 and 40_command_protocol.md R122: while BUSY a legal write other than to STATUS is answered OKAY and dropped,
changing only REJECT (so the command in progress goes on and the dropped one is never performed); a read of STATUS, ID, IRQ_EN
or a capacity register returns its value; any other legal read returns a free value and changes no state of the block. That an
access which is BUSERR is not among them, and the draw counter, are the model's choices (log entries 6 and 4). -/
def Obligations.BusyAccessesAreDroppedOrDrawn : Prop :=
  ∀ (s : State) (a : Word) (n : Nat) (p : Place), s.resetPin = false → s.phase = .busy → placeOf s.caps a n = some p →
    (∀ v, p ≠ .register .status → hostWrite a n v s = ({ s with reject := true }, .okay)) ∧
    (∀ r ∈ [Reg.status, Reg.id, Reg.irqEn, Reg.ibufCap, Reg.obufCap, Reg.tbufCap, Reg.nodeCap], p = .register r →
      hostRead a n s = (s, readReg r s, .okay)) ∧
    ((∀ r ∈ [Reg.status, Reg.id, Reg.irqEn, Reg.ibufCap, Reg.obufCap, Reg.tbufCap, Reg.nodeCap], p ≠ .register r) →
      hostRead a n s = ({ s with draws := s.draws + 1 }, Config.busyRead s.draws, .okay)) ∧
    (∀ w, hostWrite cmdAddress 4 w s = ({ s with reject := true }, .okay))

/-- 20_memory.md R68, R69, R70: an access is BUSERR exactly when its width is wrong, it is misaligned, it is a 1-byte access to
the register range, or it is unmapped or passes a buffer's capacity. Then it changes no state and a read returns 0. That this
holds while BUSY too is read from R70 (log entry 6). -/
def Obligations.BusErrorsChangeNothing : Prop :=
  ∀ (s : State) (a : Word) (n : Nat) (v : Word), s.resetPin = false →
    ((n ≠ 1 ∧ n ≠ 4) ∨ (n = 4 ∧ a.toNat % 4 ≠ 0) ∨ (n = 1 ∧ a.toNat < 0x1000) ∨
        ((∀ r : Reg, r.offset ≠ a.toNat) ∧ ¬ (0x01000000 ≤ a.toNat ∧ a.toNat + n ≤ 0x01000000 + s.caps.ibufCap) ∧
          ¬ (0x02000000 ≤ a.toNat ∧ a.toNat + n ≤ 0x02000000 + s.caps.obufCap) ∧
          ¬ (0x03000000 ≤ a.toNat ∧ a.toNat + n ≤ 0x03000000 + s.caps.tbufCap)) →
      hostRead a n s = (s, 0, .busErr) ∧ hostWrite a n v s = (s, .busErr)) ∧
    (¬ ((n ≠ 1 ∧ n ≠ 4) ∨ (n = 4 ∧ a.toNat % 4 ≠ 0) ∨ (n = 1 ∧ a.toNat < 0x1000) ∨
        ((∀ r : Reg, r.offset ≠ a.toNat) ∧ ¬ (0x01000000 ≤ a.toNat ∧ a.toNat + n ≤ 0x01000000 + s.caps.ibufCap) ∧
          ¬ (0x02000000 ≤ a.toNat ∧ a.toNat + n ≤ 0x02000000 + s.caps.obufCap) ∧
          ¬ (0x03000000 ≤ a.toNat ∧ a.toNat + n ≤ 0x03000000 + s.caps.tbufCap))) →
      (hostRead a n s).2.2 = .okay ∧ (hostWrite a n v s).2 = .okay)

/-- 20_memory.md R63, R66: 4-byte buffer accesses are little-endian, a 1-byte read is zero-extended, a 1-byte write uses v[7:0]; and
every other byte stays as it was. An access wholly within one of R63's three windows, aligned where it is of 4 bytes, is such an
access, and reaches the buffer bytes at its own addresses. -/
def Obligations.BufferAccessesAreLittleEndian : Prop :=
  ∀ (s : State) (a v : Word), Memory.wf s.mem → s.resetPin = false → s.phase = .idle →
    let within : Nat → Prop := fun n =>
      (0x01000000 ≤ a.toNat ∧ a.toNat + n ≤ 0x01000000 + s.caps.ibufCap) ∨
        (0x02000000 ≤ a.toNat ∧ a.toNat + n ≤ 0x02000000 + s.caps.obufCap) ∨
        (0x03000000 ≤ a.toNat ∧ a.toNat + n ≤ 0x03000000 + s.caps.tbufCap)
    (within 4 → a.toNat % 4 = 0 →
      hostRead a 4 s =
        (s, readByte s (a.toNat + 3) ++ readByte s (a.toNat + 2) ++ readByte s (a.toNat + 1) ++ readByte s a.toNat, .okay) ∧
      ∃ t, hostWrite a 4 v s = (t, .okay) ∧ t = { s with mem := t.mem } ∧
        readByte t a.toNat = v.extractLsb' 0 8 ∧ readByte t (a.toNat + 1) = v.extractLsb' 8 8 ∧
        readByte t (a.toNat + 2) = v.extractLsb' 16 8 ∧ readByte t (a.toNat + 3) = v.extractLsb' 24 8 ∧
        hostRead a 4 t = (t, v, .okay) ∧
        ∀ x, x < a.toNat ∨ a.toNat + 4 ≤ x → readByte t x = readByte s x) ∧
    (within 1 →
      hostRead a 1 s = (s, (readByte s a.toNat).setWidth 32, .okay) ∧
      ∃ t, hostWrite a 1 v s = (t, .okay) ∧ t = { s with mem := t.mem } ∧ readByte t a.toNat = v.extractLsb' 0 8 ∧
        ∀ x, x ≠ a.toNat → readByte t x = readByte s x)

/-- 10_state.md R25: STATUS reads BUSY, DONE, ERR, REJECT and ERRCODE in their bits and 0 in the rest; a write, in either phase,
clears DONE and REJECT where it writes 1 and changes nothing else. ERRCODE is 0 without an error, else its number of
60_exceptions.md R301. -/
def Obligations.StatusReadsAndClears : Prop :=
  ∀ (s : State) (v : Word), s.resetPin = false →
    hostRead statusAddress 4 s = (s, statusWord s, .okay) ∧
    (statusWord s).getLsbD 0 = (s.phase == .busy) ∧ (statusWord s).getLsbD 1 = s.done ∧
    (statusWord s).getLsbD 2 = s.errCode.isSome ∧ (statusWord s).getLsbD 3 = s.reject ∧
    (statusWord s).extractLsb' 4 4 = 0 ∧ (statusWord s).extractLsb' 8 4 = errCodeField s.errCode ∧
    (statusWord s).extractLsb' 12 20 = 0 ∧ errCodeField none = 0 ∧ errCodeField (some .ioFailure) = 1 ∧
    errCodeField (some .missingSymbolCode) = 2 ∧ errCodeField (some .corruptStream) = 3 ∧
    errCodeField (some .malformedTable) = 4 ∧ errCodeField (some .invalidPath) = 5 ∧
    errCodeField (some .illegalCommand) = 6 ∧ errCodeField (some .nodeCapacity) = 7 ∧
    hostWrite statusAddress 4 v s =
      ({ s with
          done := if v.getLsbD 1 then false else s.done, reject := if v.getLsbD 3 then false else s.reject }, .okay)

/-- 10_state.md R22, R23, R27, R33 to R35: while IDLE a write to an RW register reads back (PATH_LEN keeps [7:0], IRQ_EN bit 0) and
changes no other register, nor HIST, CODE, the node arena, a buffer byte or any other state (20_memory.md R71); a write to an RO
register is answered OKAY and ignored. Every register stands at R63's offset (20_memory.md), and reading it there while IDLE is
answered OKAY with its field and no effect (R67): an RO register's field, CMD's last accepted word (R26), RESULT's fields (R36), and
a node index as itself or, where it is NIL, 0xFFFF (R38). -/
def Obligations.RegistersReadBackAsTheirAccessTypeSays : Prop :=
  ∀ (s : State) (v : Word), s.resetPin = false → s.phase = .idle →
    (∀ r : Reg, (r = .inLen ∨ r = .tblLen ∨ r = .countLo ∨ r = .countHi ∨ r = .pathLen ∨ r = .irqEn ∨ ∃ k, r = .path k) →
      ∃ t, hostWrite (BitVec.ofNat 32 r.offset) 4 v s = (t, .okay) ∧
        hostRead (BitVec.ofNat 32 r.offset) 4 t =
          (t, (if r = .pathLen then v &&& 0xFF else if r = .irqEn then v &&& 1 else v), .okay) ∧
        (∀ r', r' ≠ r → readReg r' t = readReg r' s) ∧
        t = { s with
          inLen := t.inLen, tblLen := t.tblLen, countLo := t.countLo, countHi := t.countHi, pathLen := t.pathLen,
          path := t.path, doneIe := t.doneIe }) ∧
    (∀ r ∈ [Reg.id, .errInfo, .outLen, .initSize, .compSize, .dataBits, .result, .cursor, .root, .nodeCount, .symCount,
        .ibufCap, .obufCap, .tbufCap, .nodeCap],
      hostWrite (BitVec.ofNat 32 r.offset) 4 v s = (s, .okay)) ∧
    (∀ e ∈ [(Reg.id, 0x000), (.status, 0x004), (.cmd, 0x008), (.irqEn, 0x00C), (.errInfo, 0x010), (.inLen, 0x014),
        (.outLen, 0x018), (.tblLen, 0x01C), (.initSize, 0x020), (.compSize, 0x024), (.dataBits, 0x028), (.countLo, 0x02C),
        (.countHi, 0x030), (.pathLen, 0x034), (.result, 0x038), (.cursor, 0x03C), (.root, 0x040), (.nodeCount, 0x044),
        (.symCount, 0x048), (.ibufCap, 0x04C), (.obufCap, 0x050), (.tbufCap, 0x054), (.nodeCap, 0x058)],
      e.1.offset = e.2) ∧
    (∀ k : Fin 8, (Reg.path k).offset = 0x060 + 4 * k.val) ∧
    (∀ r : Reg, hostRead (BitVec.ofNat 32 r.offset) 4 s = (s, readReg r s, .okay)) ∧
    (∀ e ∈ [(Reg.id, (0x48554631 : Word)), (.cmd, s.cmd), (.irqEn, if s.doneIe then 1 else 0), (.errInfo, s.errInfo),
        (.inLen, s.inLen), (.outLen, s.outLen), (.tblLen, s.tblLen), (.initSize, s.initSize), (.compSize, s.compSize),
        (.dataBits, s.dataBits), (.countLo, s.countLo), (.countHi, s.countHi), (.pathLen, s.pathLen.setWidth 32),
        (.symCount, s.symCount.setWidth 32), (.ibufCap, BitVec.ofNat 32 s.caps.ibufCap),
        (.obufCap, BitVec.ofNat 32 s.caps.obufCap), (.tbufCap, BitVec.ofNat 32 s.caps.tbufCap),
        (.nodeCap, BitVec.ofNat 32 s.caps.nodeCap)],
      readReg e.1 s = e.2) ∧
    (∀ k : Fin 8, readReg (.path k) s = s.path[k.val]) ∧
    (∀ e ∈ [(Reg.cursor, s.cursor), (.root, s.root)],
      (e.2 = none → readReg e.1 s = 0xFFFF) ∧ ∀ n, n < 0xFFFF → e.2 = some n → (readReg e.1 s).toNat = n) ∧
    (s.nodes.length ≤ 0xFFFF → (readReg .nodeCount s).toNat = s.nodes.length) ∧
    (readReg .result s).getLsbD 0 = s.result.found ∧ (readReg .result s).getLsbD 1 = s.result.leaf ∧
    (readReg .result s).extractLsb' 2 6 = 0 ∧ (readReg .result s).extractLsb' 8 8 = s.result.payload ∧
    (s.result.node = none → (readReg .result s).extractLsb' 16 16 = 0xFFFF) ∧
    (∀ n, n < 0xFFFF → s.result.node = some n → ((readReg .result s).extractLsb' 16 16).toNat = n)

/-- 60_exceptions.md R307, 10_state.md R46: every completed command, with or without error, leaves DONE = 1 in IDLE, so irq is
IRQ_EN.DONE_IE; accept, a write of 1 to STATUS.DONE, IRQ_EN = 0 and reset each take irq to 0. -/
def Obligations.CompletionRaisesIrqWhenEnabled : Prop :=
  (∀ (i : Instr) (s t : State), exec i s = .next t → t.done = true ∧ t.phase = .idle ∧ irq t = s.doneIe) ∧
  (∀ (s : State) (v : Word),
    irq (writeReg .cmd v s) = false ∧ (v.getLsbD 1 = true → irq (writeReg .status v s) = false) ∧
    (v.getLsbD 0 = false → irq (writeReg .irqEn v s) = false) ∧ (s.resetPin = false → irq (assertReset s) = false))

/-- 70_reset_and_hazards.md R331: every host-visible register after reset, at the start and after a reset event in any state. -/
def Obligations.RegistersAfterReset : Prop :=
  ∀ t : State, (t = State.reset ∨ ∃ s : State, s.resetPin = false ∧ t = assertReset s ∧ t.caps = s.caps) →
    readReg .id t = 0x48554631 ∧ readReg .status t = 0 ∧ readReg .cmd t = 0 ∧ readReg .irqEn t = 0 ∧
    readReg .errInfo t = 0 ∧ readReg .inLen t = 0 ∧ readReg .outLen t = 0 ∧ readReg .tblLen t = 0 ∧
    readReg .initSize t = 0 ∧ readReg .compSize t = 0 ∧ readReg .dataBits t = 0 ∧ readReg .countLo t = 0 ∧
    readReg .countHi t = 0 ∧ readReg .pathLen t = 0 ∧ (∀ k, readReg (.path k) t = 0) ∧ readReg .result t = 0xFFFF0000 ∧
    readReg .cursor t = 0x0000FFFF ∧ readReg .root t = 0x0000FFFF ∧ readReg .nodeCount t = 0 ∧
    readReg .symCount t = 0 ∧ readReg .ibufCap t = BitVec.ofNat 32 t.caps.ibufCap ∧
    readReg .obufCap t = BitVec.ofNat 32 t.caps.obufCap ∧ readReg .tbufCap t = BitVec.ofNat 32 t.caps.tbufCap ∧
    readReg .nodeCap t = BitVec.ofNat 32 t.caps.nodeCap ∧ irq t = false

/-- 70_reset_and_hazards.md R330, R332: a reset event in any state, in either phase, discards an accepted command, empties HIST,
CODE and the arena and keeps the capacities; while it is asserted no access is answered and none changes anything. The host
program is not part of the block (log entry 12). Every buffer byte is unspecified after the event (R332, 20_memory.md R64): it is the
free value the model draws for that event and address, whatever was there before (DESIGN CHOICE, log entry 3). -/
def Obligations.ResetEventDiscardsEverything : Prop :=
  ∀ s : State, s.resetPin = false →
    ∃ t, t = assertReset s ∧ t.resetPin = true ∧ t.phase = .idle ∧ t.caps = s.caps ∧ t.host = s.host ∧
      (∀ b, histAt t.hist b = 0) ∧ (∀ b, codeAt t.code b = none) ∧
      (∀ a, readByte t a = Config.drawnByte (s.resets + 1) a) ∧ t.nodes = [] ∧ t.root = none ∧ t.cursor = none ∧
      (∀ a n, hostRead a n t = (t, t.host.value, .unanswered)) ∧ (∀ a n v, hostWrite a n v t = (t, .unanswered)) ∧
      step t = .next (hostTurn t) ∧ releaseReset t = { t with resetPin := false }

/-! ## The histogram and the clearing commands -/

/-- 40_command_protocol.md R125: NOP completes; accepted and performed, it leaves ERRCODE and ERR_INFO 0 and DONE 1, and nothing
else changes but CMD. Every other word with OPC 0x00 is illegal. -/
def Obligations.NopCompletes : Prop :=
  encode .nop = 0x00000000 ∧ (∀ w : Word, w.extractLsb' 24 8 = 0x00 → w ≠ 0x00000000 → ∃ why, decode w = .illegal why) ∧
  (∀ s : State, exec .nop s = .next { s with done := true, phase := .idle }) ∧
  (∀ s : State, exec .nop (acceptCommand (encode .nop) s) =
    .next { s with cmd := 0, errCode := none, errInfo := 0, done := true, phase := .idle })

/-- 42_histogram.md R171: HIST_COUNT counts every byte value in IBUF[0, IN_LEN) afresh; with IN_LEN above the buffer it raises
IO_FAILURE 1 and HIST is unchanged. R172: no count wraps. -/
def Obligations.HistCountCountsTheInput : Prop :=
  ∀ s : State, s.caps.Legal →
    (s.inLen.toNat ≤ s.caps.ibufCap →
      ∃ t, exec .histCount s = .next t ∧ t = { s with hist := t.hist, done := true, phase := .idle } ∧
        ∀ b, (histAt t.hist b).toNat =
          ((List.range s.inLen.toNat).map (fun i => readByte s (0x01000000 + i))).count b) ∧
    (s.caps.ibufCap < s.inLen.toNat →
      exec .histCount s = .next { s with errCode := some .ioFailure, errInfo := 1, done := true, phase := .idle })

/-- 42_histogram.md R173 and 44_code_table.md R215: HIST_CLEAR leaves every count 0, CODE_CLEAR every code invalid, and nothing
else changes. -/
def Obligations.ClearCommandsEmptyTheirMemory : Prop :=
  ∀ s : State,
    (∃ t, exec .histClear s = .next t ∧ t = { s with hist := t.hist, done := true, phase := .idle } ∧
      ∀ b, histAt t.hist b = 0) ∧
    (∃ t, exec .codeClear s = .next t ∧ t = { s with code := t.code, done := true, phase := .idle } ∧
      ∀ b, codeAt t.code b = none)

/-- 42_histogram.md R174, R175: HIST_GET b puts HIST[b] in COUNT_HI and COUNT_LO, HIST_SET b stores COUNT = COUNT_HI * 2^32 + COUNT_LO
in HIST[b]. Each completes in every state and changes nothing else. -/
def Obligations.HistGetAndSetMoveOneCount : Prop :=
  ∀ (s : State) (b : Byte),
    (∃ t, exec (.histGet b) s = .next t ∧
      t = { s with countLo := t.countLo, countHi := t.countHi, done := true, phase := .idle } ∧
      t.countLo = (histAt s.hist b).extractLsb' 0 32 ∧ t.countHi = (histAt s.hist b).extractLsb' 32 32 ∧
      t.countHi.toNat * 2 ^ 32 + t.countLo.toNat = (histAt s.hist b).toNat) ∧
    (∃ t, exec (.histSet b) s = .next t ∧ t = { s with hist := t.hist, done := true, phase := .idle } ∧
      (histAt t.hist b).toNat = s.countHi.toNat * 2 ^ 32 + s.countLo.toNat ∧
      ∀ b', b' ≠ b → histAt t.hist b' = histAt s.hist b')

/-! ## The tree builder -/

/-- 43_tree_builder.md R190, R195: TREE_BUILD completes in every state; it writes the arena, ROOT, CURSOR = ROOT and SYM_COUNT = the
number of symbols with a nonzero count, and nothing else. -/
def Obligations.TreeBuildCompletes : Prop :=
  ∀ s : State, ∃ t, exec .treeBuild s = .next t ∧
    t = { s with
      nodes := t.nodes, root := t.root, cursor := t.cursor, symCount := t.symCount, done := true, phase := .idle } ∧
    t.cursor = t.root ∧ t.symCount.toNat = allSymbols.countP (fun b => histAt s.hist b ≠ 0)

/-- 43_tree_builder.md R197: with n >= 1 symbols the built tree has 2n - 1 nodes, at most 511, the first n of them childless leaves, the
others internal with two children; ROOT = 2n - 2; no leaf is deeper than n - 1 <= 255; leaf paths are prefix-free. -/
def Obligations.BuiltTreeShape : Prop :=
  ∀ (s t : State) (n : Nat), exec .treeBuild s = .next t → n = allSymbols.countP (fun b => histAt s.hist b ≠ 0) → 1 ≤ n →
    t.nodes.length = 2 * n - 1 ∧ t.nodes.length ≤ 511 ∧ t.root = some (2 * n - 2) ∧ n - 1 ≤ Config.maxCodeLen ∧
    (∀ i, i < n → (nodeAt t.nodes i).payload.isSome ∧ (nodeAt t.nodes i).left = none ∧ (nodeAt t.nodes i).right = none) ∧
    (∀ i, n ≤ i → i < 2 * n - 1 →
      (nodeAt t.nodes i).payload = none ∧ (nodeAt t.nodes i).left.isSome ∧ (nodeAt t.nodes i).right.isSome) ∧
    (∀ p m, walk t p = some m → m < n → p.length ≤ n - 1) ∧
    (∀ p q m m', walk t p = some m → walk t q = some m' → m < n → m' < n → p <+: q → p = q)

/-- 43_tree_builder.md R192: in a built tree a leaf's W is its count, an internal node's W the exact sum of its children's, the root's W
the sum of all counts, at most 256 * (2^64 - 1) < 2^72, and every other W is smaller. No sum wraps. -/
def Obligations.BuiltWeightsNeverWrap : Prop :=
  ∀ s t : State, exec .treeBuild s = .next t →
    (∀ i b, i < t.nodes.length → (nodeAt t.nodes i).payload = some b →
      (nodeAt t.nodes i).weight.toNat = (histAt s.hist b).toNat) ∧
    (∀ i l r, i < t.nodes.length → (nodeAt t.nodes i).left = some l → (nodeAt t.nodes i).right = some r →
      (nodeAt t.nodes i).weight.toNat = (nodeAt t.nodes l).weight.toNat + (nodeAt t.nodes r).weight.toNat) ∧
    (∀ r, t.root = some r →
      (nodeAt t.nodes r).weight.toNat = (allSymbols.map (fun b => (histAt s.hist b).toNat)).sum ∧
      (nodeAt t.nodes r).weight.toNat ≤ 256 * (2 ^ 64 - 1) ∧
      ∀ i, i < t.nodes.length → i ≠ r → (nodeAt t.nodes i).weight.toNat < (nodeAt t.nodes r).weight.toNat)

/-- 43_tree_builder.md R193: `minkey(Q)` is the element with the lowest weight, among equal weights the lowest index; it exists unless
the queue is empty. R191: leaf i of a built tree carries the i-th smallest symbol with a nonzero count. R194: each later node z has
PV = 0, LEFT the minimum of the queue and RIGHT the minimum of what is left, where the queue holds the nodes made before z that no
node before z has as a child; so LEFT is never heavier, and of equal weight has the lower index. z's weight is the sum of theirs. -/
def Obligations.QueueMinimumByWeightThenIndex : Prop :=
  (∀ (nodes : List Node) (q : List Nat),
    (minKey nodes q = none ↔ q = []) ∧
    (∀ x, minKey nodes q = some x → x ∈ q ∧ ∀ y ∈ q,
      (nodeAt nodes x).weight.toNat < (nodeAt nodes y).weight.toNat ∨
        ((nodeAt nodes x).weight = (nodeAt nodes y).weight ∧ x ≤ y))) ∧
  ∀ (s t : State) (symbols : List Byte), exec .treeBuild s = .next t →
    symbols = ((List.range 256).map (BitVec.ofNat 8)).filter (fun b => histAt s.hist b ≠ 0) →
    let comesBefore : Nat → Nat → Prop := fun x y =>
      (nodeAt t.nodes x).weight.toNat < (nodeAt t.nodes y).weight.toNat ∨
        ((nodeAt t.nodes x).weight = (nodeAt t.nodes y).weight ∧ x < y)
    let queued : Nat → Nat → Prop := fun z j =>
      j < z ∧ ∀ i, i < z → (nodeAt t.nodes i).left ≠ some j ∧ (nodeAt t.nodes i).right ≠ some j
    symbols.length ≤ t.nodes.length ∧
    (∀ i b, symbols[i]? = some b → (nodeAt t.nodes i).payload = some b ∧
      (nodeAt t.nodes i).weight.toNat = (histAt s.hist b).toNat) ∧
    (∀ z, symbols.length ≤ z → z < t.nodes.length →
      ∃ x y, (nodeAt t.nodes z).payload = none ∧ (nodeAt t.nodes z).left = some x ∧ (nodeAt t.nodes z).right = some y ∧
        (nodeAt t.nodes z).weight.toNat = (nodeAt t.nodes x).weight.toNat + (nodeAt t.nodes y).weight.toNat ∧
        queued z x ∧ queued z y ∧ comesBefore x y ∧ (∀ j, queued z j → j ≠ x → comesBefore x j) ∧
        ∀ j, queued z j → j ≠ x → j ≠ y → comesBefore y j)

/-- 43_tree_builder.md R196: no symbol gives the empty tree; one symbol gives one leaf, which the code deriver codes "0". -/
def Obligations.SmallAlphabets : Prop :=
  ∀ s t : State, exec .treeBuild s = .next t →
    ((∀ b, histAt s.hist b = 0) → t.nodes = [] ∧ t.root = none ∧ t.cursor = none ∧ t.symCount = 0) ∧
    (∀ b, histAt s.hist b ≠ 0 → (∀ b', b' ≠ b → histAt s.hist b' = 0) →
      (∃ w, t.nodes = [{ payload := some b, left := none, right := none, weight := w }]) ∧ t.root = some 0 ∧
      ∃ u, exec .codeDerive t = .next u ∧ codeAt u.code b = some [false])

/-! ## The code table -/

/-- 44_code_table.md R211 and 10_state.md R42: on a tree that keeps the invariant CODE_DERIVE completes and writes CODE alone; the
codes it writes have 1 to 255 bits. -/
def Obligations.CodeDeriveCompletes : Prop :=
  ∀ s : State, TreeOk s.nodes s.root →
    ∃ t, exec .codeDerive s = .next t ∧ t = { s with code := t.code, done := true, phase := .idle } ∧ CodeOk t.code

/-- 44_code_table.md R211, R212, R214: the code of b is the path of the first node in preorder (left before right, so the
lexicographically first) that carries b with no payload above it; a byte has no code only where no such node exists. The empty
path of a root that carries b is recorded as "0" (R213). -/
def Obligations.DerivedCodesAreFirstPayloadPaths : Prop :=
  ∀ (s t : State) (b : Byte), TreeOk s.nodes s.root → exec .codeDerive s = .next t →
    let isLeafPath : BitString → Prop := fun p =>
      (∃ n, walk s p = some n ∧ (nodeAt s.nodes n).payload = some b) ∧
        ∀ q n, q <+: p → q ≠ p → walk s q = some n → (nodeAt s.nodes n).payload = none
    (∀ c, codeAt t.code b = some c →
      ∃ p, isLeafPath p ∧ c = (if p = [] then [false] else p) ∧
        ∀ p', isLeafPath p' → p' = p ∨ List.Lex (fun x y => x = false ∧ y = true) p p') ∧
    (codeAt t.code b = none → ∀ p, ¬ isLeafPath p)

/-- 44_code_table.md R213: where ROOT carries a payload its symbol gets the code "0" and is the only entry, whatever lies below;
and CODE_DERIVE never records an empty code. -/
def Obligations.DegenerateRootGetsTheOneBitCode : Prop :=
  (∀ (s : State) (r : Nat) (v : Byte), s.root = some r → (nodeAt s.nodes r).payload = some v →
    ∃ t, exec .codeDerive s = .next t ∧ codeAt t.code v = some [false] ∧ ∀ b, b ≠ v → codeAt t.code b = none) ∧
  (∀ (s t : State) (b : Byte), exec .codeDerive s = .next t → codeAt t.code b ≠ some [])

/-- 44_code_table.md R216: CODE_GET b shows a valid code in PATH_LEN and PATH0 to PATH7, 0 beyond its end, and b in RESULT; an invalid
entry gives PATH_LEN = 0, PATH 0 and NOTFOUND. Nothing else changes. -/
def Obligations.CodeGetShowsTheCode : Prop :=
  ∀ (s : State) (b : Byte), ∃ t, exec (.codeGet b) s = .next t ∧
    t = { s with pathLen := t.pathLen, path := t.path, result := t.result, done := true, phase := .idle } ∧
    (∀ c, codeAt s.code b = some c → c.length ≤ Config.maxCodeLen →
      t.pathLen.toNat = c.length ∧ (∀ i, i < 256 → pathBit t i = (if i < c.length then c.getD i false else false)) ∧
      pathOperand t = c ∧ readReg .result t = 0xFFFF0000 ||| (b.setWidth 32 <<< 8) ||| 1) ∧
    (codeAt s.code b = none →
      t.pathLen = 0 ∧ (∀ k, readReg (.path k) t = 0) ∧ readReg .result t = 0xFFFF0000)

/-- 44_code_table.md R217: CODE_SET b raises INVALID_PATH (0x10000000 | b) for an empty path and changes nothing; else CODE[b] becomes
`P[0] … P[n-1]` and nothing else changes. -/
def Obligations.CodeSetStoresThePath : Prop :=
  ∀ (s : State) (b : Byte),
    (s.pathLen = 0 → exec (.codeSet b) s =
      .next { s with errCode := some .invalidPath, errInfo := 0x10000000 ||| b.setWidth 32, done := true, phase := .idle }) ∧
    (s.pathLen ≠ 0 → ∃ t, exec (.codeSet b) s = .next t ∧ t = { s with code := t.code, done := true, phase := .idle } ∧
      (∃ c, codeAt t.code b = some c ∧ c.length = s.pathLen.toNat ∧
        ∀ i, i < s.pathLen.toNat → c.getD i false = pathBit s i) ∧
      ∀ b', b' ≠ b → codeAt t.code b' = codeAt s.code b')

/-- 44_code_table.md R218, R224, R225: TABLE_SERIALIZE writes the entries in ascending byte value, each its decimal numeral, `:` and its
bits, with `-` between, to TBUF from offset 0 and their length to TBL_LEN; every other byte and register stays. A text longer
than TBUF raises IO_FAILURE 3 and changes nothing. The text has the length R224 gives. The characters are ASCII (R221, log
entry 15). -/
def Obligations.TableSerializeWritesTheText : Prop :=
  ∀ (s : State) (text : List Byte), s.caps.Legal → Memory.wf s.mem →
    text = List.intercalate [0x2D] (allSymbols.filterMap (fun b => (codeAt s.code b).map (fun c =>
      (Nat.toDigits 10 b.toNat).map (fun ch => BitVec.ofNat 8 ch.toNat) ++ [0x3A] ++
        c.map (fun x => if x then 0x31 else 0x30)))) →
    (text.length ≤ s.caps.tbufCap → ∃ t, exec .tableSerialize s = .next t ∧
      t = { s with mem := t.mem, tblLen := t.tblLen, done := true, phase := .idle } ∧
      t.tblLen.toNat = text.length ∧ (∀ i, i < text.length → readByte t (0x03000000 + i) = text.getD i 0) ∧
      ∀ a, a < 0x03000000 ∨ 0x03000000 + text.length ≤ a → readByte t a = readByte s a) ∧
    (s.caps.tbufCap < text.length →
      exec .tableSerialize s = .next { s with errCode := some .ioFailure, errInfo := 3, done := true, phase := .idle }) ∧
    text.length =
      (allSymbols.countP (fun b => codeAt s.code b ≠ none) - 1) +
        (allSymbols.map (fun b => match codeAt s.code b with
          | none => 0
          | some c => (if b.toNat < 10 then 1 else if b.toNat < 100 then 2 else 3) + 1 + c.length)).sum

/-! ## The packer and ENCODE -/

/-- 45_bit_packer.md R240, R243, R247, R248: with every symbol coded and room in OBUF, PACK writes the codes in order, a 1 bit and 0 bits to
the byte boundary, most significant bit first, to OBUF from offset 0, and sets OUT_LEN, DATA_BITS, INIT_SIZE and COMP_SIZE; every
other byte and register stays. IO_FAILURE 1 comes first, IO_FAILURE 2 last, and they change nothing. -/
def Obligations.PackWritesTheStream : Prop :=
  ∀ (s : State) (bits : BitString), s.caps.Legal → Memory.wf s.mem →
    bits = (inputBytes s).flatMap (fun b => (codeAt s.code b).getD []) →
    (s.caps.ibufCap < s.inLen.toNat →
      exec .pack s = .next { s with errCode := some .ioFailure, errInfo := 1, done := true, phase := .idle }) ∧
    (s.inLen.toNat ≤ s.caps.ibufCap → (∀ b ∈ inputBytes s, codeAt s.code b ≠ none) →
      (s.caps.obufCap < bits.length / 8 + 1 →
        exec .pack s = .next { s with errCode := some .ioFailure, errInfo := 2, done := true, phase := .idle }) ∧
      (bits.length / 8 + 1 ≤ s.caps.obufCap → ∃ t, exec .pack s = .next t ∧
        t = { s with
          mem := t.mem, outLen := t.outLen, dataBits := t.dataBits, initSize := t.initSize, compSize := t.compSize,
          done := true, phase := .idle } ∧
        t.dataBits.toNat = bits.length ∧ t.outLen.toNat = bits.length / 8 + 1 ∧ t.compSize = t.outLen ∧
        t.initSize = s.inLen ∧
        streamBits (readBytes t 0x02000000 (bits.length / 8 + 1)) =
          bits ++ [true] ++ List.replicate (7 - bits.length % 8) false ∧
        ∀ a, a < 0x02000000 ∨ 0x02000000 + (bits.length / 8 + 1) ≤ a → readByte t a = readByte s a))

/-- 45_bit_packer.md R244 and 47_bit_unpacker.md R282: the padding is 1 to 8 bits, the padded stream fills L div 8 + 1 bytes, its last byte
is nonzero with the marker as its lowest set bit, and the boundary formula of R282 gives the data bits back. -/
def Obligations.PaddingMarkerIsDecodable : Prop :=
  ∀ bits : BitString, ∃ (bytes : List Byte) (last : Byte) (pad : Nat),
    bytes = packBits (paddedBits bits) ∧ pad = 8 - bits.length % 8 ∧ 1 ≤ pad ∧ pad ≤ 8 ∧
    bytes.length = bits.length / 8 + 1 ∧ streamBits bytes = bits ++ [true] ++ List.replicate (pad - 1) false ∧
    bytes.getLast? = some last ∧ last ≠ 0 ∧ lowestSetBit last = some (pad - 1) ∧ last.getLsbD (pad - 1) = true ∧
    (∀ j, j < pad - 1 → last.getLsbD j = false) ∧
    (streamBits bytes).take (8 * bytes.length - (pad - 1 + 1)) = bits

/-- 45_bit_packer.md R242: the first input offset whose byte has no code is reported, ERR_INFO = (i << 8) | b, before anything is
written. -/
def Obligations.MissingSymbolIsTheFirstOne : Prop :=
  ∀ (s : State) (i : Nat) (b : Byte), s.caps.Legal → s.inLen.toNat ≤ s.caps.ibufCap → i < s.inLen.toNat →
    b = readByte s (0x01000000 + i) → codeAt s.code b = none →
    (∀ j, j < i → codeAt s.code (readByte s (0x01000000 + j)) ≠ none) →
    ∃ info : Word, info.toNat = i * 256 + b.toNat ∧
      exec .pack s =
        .next { s with errCode := some .missingSymbolCode, errInfo := info, done := true, phase := .idle }

/-- 44_code_table.md R226, 43_tree_builder.md R197 and 45_bit_packer.md R249: a built tree always has its codes, for exactly the counted
symbols, and its table text has at most 34064 characters. -/
def Obligations.BuiltTreesHaveCodesAndTheirTextFits : Prop :=
  ∀ h : Histogram, ∃ tbl, deriveTable (buildTree h).1 (buildTree h).2 = some tbl ∧ CodeOk tbl ∧
    (∀ b, codeAt tbl b ≠ none ↔ histAt h b ≠ 0) ∧ (tableText tbl).length ≤ 34064

/-- 45_bit_packer.md R249, 40_command_protocol.md R127: where the input, the table text and the packed data fit their buffers, ENCODE
completes without error, and leaves what HIST_COUNT, TREE_BUILD, CODE_DERIVE, TABLE_SERIALIZE and PACK give in order; every other
byte and register stays. Where one does not fit, the sub-command that meets it ends ENCODE and those before it keep their effects
(70_reset_and_hazards.md R340): IO_FAILURE 1 before any change, 3 with HIST, the tree and CODE written, 2 with the table text and
TBL_LEN written too. -/
def Obligations.EncodeCompletes : Prop :=
  ∀ s : State, s.caps.Legal → Memory.wf s.mem →
    (s.caps.ibufCap < s.inLen.toNat →
      exec .encode s = .next { s with errCode := some .ioFailure, errInfo := 1, done := true, phase := .idle }) ∧
    ∀ (x : List Byte) (tree : List Node × Option Nat) (tbl : CodeTable) (text packed : List Byte),
      s.inLen.toNat ≤ s.caps.ibufCap → x = inputBytes s → tree = buildTree (countBytes x) →
      deriveTable tree.1 tree.2 = some tbl → text = tableText tbl → packed = packBits (paddedBits (codedBits tbl x)) →
      (text.length ≤ s.caps.tbufCap → packed.length ≤ s.caps.obufCap →
        ∃ t, exec .encode s = .next t ∧
          t = { s with
            hist := countBytes x, nodes := tree.1, root := tree.2, cursor := tree.2, symCount := t.symCount, code := tbl,
            mem := t.mem, tblLen := t.tblLen, outLen := t.outLen, dataBits := t.dataBits, initSize := s.inLen,
            compSize := t.outLen, done := true, phase := .idle } ∧
          t.symCount.toNat = allSymbols.countP (fun b => b ∈ x) ∧
          t.tblLen.toNat = text.length ∧ readBytes t 0x03000000 text.length = text ∧
          t.outLen.toNat = packed.length ∧ readBytes t 0x02000000 packed.length = packed ∧
          t.dataBits.toNat = (codedBits tbl x).length ∧
          ∀ a, (a < 0x02000000 ∨ 0x02000000 + packed.length ≤ a) →
            (a < 0x03000000 ∨ 0x03000000 + text.length ≤ a) → readByte t a = readByte s a) ∧
      (s.caps.tbufCap < text.length →
        ∃ t, exec .encode s = .next t ∧
          t = { s with
            hist := countBytes x, nodes := tree.1, root := tree.2, cursor := tree.2, symCount := t.symCount, code := tbl,
            errCode := some .ioFailure, errInfo := 3, done := true, phase := .idle } ∧
          t.symCount.toNat = allSymbols.countP (fun b => b ∈ x)) ∧
      (text.length ≤ s.caps.tbufCap → s.caps.obufCap < packed.length →
        ∃ t, exec .encode s = .next t ∧
          t = { s with
            hist := countBytes x, nodes := tree.1, root := tree.2, cursor := tree.2, symCount := t.symCount, code := tbl,
            mem := t.mem, tblLen := t.tblLen, errCode := some .ioFailure, errInfo := 2, done := true, phase := .idle } ∧
          t.symCount.toNat = allSymbols.countP (fun b => b ∈ x) ∧
          t.tblLen.toNat = text.length ∧ readBytes t 0x03000000 text.length = text ∧
          ∀ a, (a < 0x03000000 ∨ 0x03000000 + text.length ≤ a) → readByte t a = readByte s a)

/-! ## The tree store -/

/-- 41_tree.md R144: TREE_CLEAR leaves one empty root, NODE_COUNT = 1, ROOT = 0, CURSOR = 0, SYM_COUNT = 0, RESULT and the rest unchanged. -/
def Obligations.TreeClearMakesAFreshTree : Prop :=
  ∀ s : State, ∃ t, exec .treeClear s = .next t ∧
    t = { s with
      nodes := [{ payload := none, left := none, right := none, weight := 0 }], root := some 0, cursor := some 0,
      symCount := 0, done := true, phase := .idle } ∧
    readReg .nodeCount t = 1 ∧ readReg .root t = 0 ∧ readReg .cursor t = 0 ∧ readReg .symCount t = 0

/-- 41_tree.md R143, R145: with room for the nodes that are missing along PATH, TREE_INSERT b completes: the node at PATH carries b, every node that
was there keeps its path, its weight and (but for the one at PATH) its payload, only prefixes of PATH are new nodes, and CURSOR and
SYM_COUNT change only by the implicit clear. The missing nodes are made along PATH, so their indices are NODE_COUNT, NODE_COUNT + 1
and so on in path order, and their weight is 0 (R143). The result is again a tree. -/
def Obligations.TreeInsertPlacesThePayload : Prop :=
  ∀ (s : State) (b : Byte) (p : BitString) (missing : Nat), TreeOk s.nodes s.root → p = pathOperand s →
    missing = (List.range (p.length + 1)).countP (fun k => walk s (p.take k) = none) →
    s.nodes.length + missing ≤ s.caps.nodeCap →
    ∃ t, exec (.treeInsert b) s = .next t ∧
      t = { s with
        nodes := t.nodes, root := t.root, cursor := t.cursor, symCount := t.symCount, done := true, phase := .idle } ∧
      (s.root ≠ none → t.root = s.root ∧ t.cursor = s.cursor ∧ t.symCount = s.symCount) ∧
      (s.root = none → t.root = some 0 ∧ t.cursor = some 0 ∧ t.symCount = 0) ∧
      t.nodes.length = s.nodes.length + missing ∧
      (∃ n, walk t p = some n ∧ (nodeAt t.nodes n).payload = some b) ∧
      (∀ q m, walk s q = some m →
        walk t q = some m ∧ (nodeAt t.nodes m).weight = (nodeAt s.nodes m).weight ∧
          (q ≠ p → (nodeAt t.nodes m).payload = (nodeAt s.nodes m).payload)) ∧
      (∀ q m, walk t q = some m → walk s q = none →
        q <+: p ∧ m = s.nodes.length + (List.range q.length).countP (fun k => walk s (p.take k) = none) ∧
          (nodeAt t.nodes m).weight = 0 ∧ (q ≠ p → (nodeAt t.nodes m).payload = none)) ∧
      TreeOk t.nodes t.root

/-- 41_tree.md R143, R145: where a node is needed and NODE_COUNT = NODE_CAP, TREE_INSERT raises NODE_CAPACITY with ERR_INFO = 0; the nodes
made before stay linked, numbered in path order from NODE_COUNT, no payload is set, and nothing else changes. -/
def Obligations.TreeInsertAtCapacity : Prop :=
  ∀ (s : State) (b : Byte) (p : BitString), TreeOk s.nodes s.root → s.root ≠ none → p = pathOperand s →
    s.nodes.length ≤ s.caps.nodeCap →
    s.caps.nodeCap < s.nodes.length + (List.range (p.length + 1)).countP (fun k => walk s (p.take k) = none) →
    ∃ t, exec (.treeInsert b) s = .next t ∧
      t = { s with
        nodes := t.nodes, errCode := some .nodeCapacity, errInfo := 0, done := true, phase := .idle } ∧
      t.nodes.length = s.caps.nodeCap ∧ TreeOk t.nodes t.root ∧
      (∀ q m, walk s q = some m →
        walk t q = some m ∧ (nodeAt t.nodes m).payload = (nodeAt s.nodes m).payload ∧
          (nodeAt t.nodes m).weight = (nodeAt s.nodes m).weight) ∧
      (∀ q m, walk t q = some m → walk s q = none →
        q <+: p ∧ m = s.nodes.length + (List.range q.length).countP (fun k => walk s (p.take k) = none) ∧
          (nodeAt t.nodes m).payload = none ∧ (nodeAt t.nodes m).weight = 0)

/-- 41_tree.md R146, R140: TREE_SEARCH writes RESULT alone: NOTFOUND, or `n << 16 | PAYLOAD << 8 | LEAF << 1 | 1` for the node at PATH. -/
def Obligations.TreeSearchReportsTheNode : Prop :=
  ∀ s : State, ∃ t, exec .treeSearch s = .next t ∧ t = { s with result := t.result, done := true, phase := .idle } ∧
    (walk s (pathOperand s) = none → readReg .result t = 0xFFFF0000) ∧
    (∀ n, walk s (pathOperand s) = some n →
      readReg .result t =
        (BitVec.ofNat 32 n <<< 16) ||| (((nodeAt s.nodes n).payload.getD 0).setWidth 32 <<< 8) |||
          (if (nodeAt s.nodes n).payload.isSome then 2 else 0) ||| 1)

/-- 41_tree.md R147: TREE_STEP s moves CURSOR to its child s and reports it; with CURSOR = NIL or the child absent it reports NOTFOUND and
leaves CURSOR where it was. Nothing else changes. -/
def Obligations.TreeStepMovesTheCursor : Prop :=
  ∀ (s : State) (bit : Bool), ∃ t, exec (.treeStep bit) s = .next t ∧
    t = { s with cursor := t.cursor, result := t.result, done := true, phase := .idle } ∧
    (s.cursor = none → t.cursor = none ∧ readReg .result t = 0xFFFF0000) ∧
    (∀ n, s.cursor = some n → (if bit then (nodeAt s.nodes n).right else (nodeAt s.nodes n).left) = none →
      t.cursor = some n ∧ readReg .result t = 0xFFFF0000) ∧
    (∀ n c, s.cursor = some n → (if bit then (nodeAt s.nodes n).right else (nodeAt s.nodes n).left) = some c →
      t.cursor = some c ∧
      readReg .result t =
        (BitVec.ofNat 32 c <<< 16) ||| (((nodeAt s.nodes c).payload.getD 0).setWidth 32 <<< 8) |||
          (if (nodeAt s.nodes c).payload.isSome then 2 else 0) ||| 1)

/-- 41_tree.md R148: TREE_RESET sets CURSOR to ROOT and changes nothing else; with ROOT = NIL every TREE_STEP then reports NOTFOUND. -/
def Obligations.TreeResetReturnsTheCursor : Prop :=
  ∀ s : State, exec .treeReset s = .next { s with cursor := s.root, done := true, phase := .idle } ∧
    (s.root = none → ∀ bit t u, exec .treeReset s = .next t → exec (.treeStep bit) t = .next u →
      readReg .result u = 0xFFFF0000 ∧ u.cursor = none)

/-! ## The table parser -/

/-- 46_table_parser.md R262: the accepted texts are exactly those of the grammar, and `parse` gives their entries: one to three digits with
a value of at most 255, `:`, at most 255 bits, `-` between entries, no value twice; or the empty text. The characters are ASCII
(log entry 15). -/
def Obligations.ParseAcceptsExactlyTheGrammar : Prop :=
  ∀ (text : List Byte) (es : List (Byte × BitString)), parseTable text = .entries es ↔
    (text = [] ∧ es = []) ∨
    ∃ raw : List (List Byte × Byte × BitString), raw ≠ [] ∧ es = raw.map (fun e => e.2) ∧
      text = List.intercalate [0x2D] (raw.map (fun e => e.1 ++ [0x3A] ++ e.2.2.map (fun x => if x then 0x31 else 0x30))) ∧
      (∀ e ∈ raw, 1 ≤ e.1.length ∧ e.1.length ≤ 3 ∧ (∀ ch ∈ e.1, 0x30 ≤ ch.toNat ∧ ch.toNat ≤ 0x39) ∧
        e.1.foldl (fun v ch => 10 * v + (ch.toNat - 0x30)) 0 = e.2.1.toNat ∧ e.2.2.length ≤ 255) ∧
      (raw.map (fun e => e.2.1)).Nodup

/-- 46_table_parser.md R260, R265, R266: an accepted table without a forbidden empty code loads without error: ROOT = CURSOR = 0, SYM_COUNT = the
number of entries, each code's node carries the payload of the last entry with that code, every node lies on the path of some code,
and nothing else changes. The root is node 0, and the others are numbered in the order in which the entries, each along its path, first
need them (41_tree.md R143); weights are 0. It never runs out of nodes. -/
def Obligations.TableParseLoadsTheEntries : Prop :=
  ∀ (s : State) (es codes : List (Byte × BitString)), s.caps.Legal → s.tblLen.toNat ≤ s.caps.tbufCap →
    parseTable (tableBytes s) = .entries es → (2 ≤ es.length → ∀ e ∈ es, e.2 ≠ []) →
    codes = es.map (fun e => if e.2 = [] then (e.1, [false]) else e) →
    let needed : List BitString := [] :: codes.flatMap (fun e => (List.range e.2.length).map (fun k => e.2.take (k + 1)))
    ∃ t, exec .tableParse s = .next t ∧
      t = { s with
        nodes := t.nodes, root := some 0, cursor := some 0, symCount := t.symCount, done := true, phase := .idle } ∧
      t.symCount.toNat = es.length ∧ TreeOk t.nodes t.root ∧
      (∀ v c, codes.reverse.find? (fun e => e.2 = c) = some (v, c) →
        ∃ n, walk t c = some n ∧ (nodeAt t.nodes n).payload = some v) ∧
      (∀ q n, walk t q = some n →
        (q = [] ∨ ∃ e ∈ codes, q <+: e.2) ∧ ((nodeAt t.nodes n).payload ≠ none → ∃ e ∈ codes, e.2 = q) ∧
          n = ((needed.take (needed.idxOf q)).dedup).length ∧ (nodeAt t.nodes n).weight = 0) ∧
      t.nodes.length = needed.dedup.length

/-- 46_table_parser.md R263, R267: the checks come in the order IO_FAILURE 3, MALFORMED_TABLE (the first violation, its sub-cause and position),
INVALID_PATH; after any of them the tree, its registers and everything but the error record are unchanged. The violations are those
of R263, said on the text: after whole entries `raw`, each with its `-`, an entry begins at `start` with the digits `ds`. A fourth
digit or a value above 255 is RANGE at `start`, no digit or no `:` after them SYNTAX at the character that is not one, a 256th bit
TOO_LONG at that bit, a value seen before DUPLICATE at `start`, and what follows the bits, if it is no `-`, SYNTAX at that
character. Where a character is missing the position is TBL_LEN. The numbers of the sub-causes are those of 60_exceptions.md R302.
The characters are ASCII (PRESUMED, log entry 15). -/
def Obligations.FailedParseKeepsTheTree : Prop :=
  ∀ s : State, s.caps.Legal →
    (s.caps.tbufCap < s.tblLen.toNat →
      exec .tableParse s = .next { s with errCode := some .ioFailure, errInfo := 3, done := true, phase := .idle }) ∧
    (s.tblLen.toNat ≤ s.caps.tbufCap → ∀ e, parseTable (tableBytes s) = .malformed e →
      ∃ info : Word, info.toNat = e.cause.code.toNat * 2 ^ 28 + e.position ∧ e.position ≤ s.tblLen.toNat ∧
        exec .tableParse s =
          .next { s with errCode := some .malformedTable, errInfo := info, done := true, phase := .idle }) ∧
    (s.tblLen.toNat ≤ s.caps.tbufCap → tableBytes s ≠ [] →
      ∀ (raw : List (List Byte × Byte × BitString)) (ds tail : List Byte) (start : Nat),
        let isDecimal : Byte → Prop := fun ch => 0x30 ≤ ch.toNat ∧ ch.toNat ≤ 0x39
        let isBit : Byte → Prop := fun ch => ch = 0x30 ∨ ch = 0x31
        let value : List Byte → Nat := fun digits => digits.foldl (fun v ch => 10 * v + (ch.toNat - 0x30)) 0
        let bitChars : BitString → List Byte := fun c => c.map (fun x => if x then 0x31 else 0x30)
        let before : List Byte := raw.flatMap (fun e => e.1 ++ [0x3A] ++ bitChars e.2.2 ++ [0x2D])
        let fails : Word → Prop := fun info =>
          exec .tableParse s =
            .next { s with errCode := some .malformedTable, errInfo := info, done := true, phase := .idle }
        (∀ e ∈ raw, 1 ≤ e.1.length ∧ e.1.length ≤ 3 ∧ (∀ ch ∈ e.1, isDecimal ch) ∧ value e.1 = e.2.1.toNat ∧
          e.2.2.length ≤ 255) →
        (raw.map (fun e => e.2.1)).Nodup → tableBytes s = before ++ ds ++ tail → start = before.length →
        (∀ ch ∈ ds, isDecimal ch) →
        (ds.length = 4 → fails (0x20000000 ||| BitVec.ofNat 32 start)) ∧
        (ds.length ≤ 3 → (∀ ch, tail.head? = some ch → ¬ isDecimal ch) →
          (ds = [] → fails (0x10000000 ||| BitVec.ofNat 32 start)) ∧
          (255 < value ds → fails (0x20000000 ||| BitVec.ofNat 32 start)) ∧
          (ds ≠ [] → value ds ≤ 255 → tail.head? ≠ some 0x3A →
            fails (0x10000000 ||| BitVec.ofNat 32 (start + ds.length))) ∧
          (∀ (c : BitString) (rest : List Byte), ds ≠ [] → value ds ≤ 255 → tail = 0x3A :: bitChars c ++ rest →
            (c.length = 255 → (∃ ch, rest.head? = some ch ∧ isBit ch) →
              fails (0x30000000 ||| BitVec.ofNat 32 (start + ds.length + 1 + 255))) ∧
            (c.length ≤ 255 → (∀ ch, rest.head? = some ch → ¬ isBit ch) →
              ((∃ e ∈ raw, e.2.1.toNat = value ds) → fails (0x40000000 ||| BitVec.ofNat 32 start)) ∧
              ((∀ e ∈ raw, e.2.1.toNat ≠ value ds) → (∃ ch, rest.head? = some ch ∧ ch ≠ 0x2D) →
                fails (0x10000000 ||| BitVec.ofNat 32 (start + ds.length + 1 + c.length))))))) ∧
    (s.tblLen.toNat ≤ s.caps.tbufCap → ∀ es, parseTable (tableBytes s) = .entries es → 2 ≤ es.length →
      (∃ e ∈ es, e.2 = []) →
      ∃ info, exec .tableParse s =
        .next { s with errCode := some .invalidPath, errInfo := info, done := true, phase := .idle }) ∧
    (∀ t, s.errCode = none → exec .tableParse s = .next t → t.errCode ≠ none →
      t = { s with errCode := t.errCode, errInfo := t.errInfo, done := true, phase := .idle })

/-- 46_table_parser.md R264: with two entries or more the first empty code, at index j, raises INVALID_PATH with 0x20000000 | j; a one-entry
table with an empty code is read as the code "0". -/
def Obligations.EmptyCodesAreRejectedOrReadAsZero : Prop :=
  ∀ (s : State) (es : List (Byte × BitString)), s.caps.Legal → s.tblLen.toNat ≤ s.caps.tbufCap →
    parseTable (tableBytes s) = .entries es →
    (∀ j, 2 ≤ es.length → j < es.length → (es.map (fun e => e.2))[j]? = some [] →
      (∀ k, k < j → (es.map (fun e => e.2))[k]? ≠ some []) →
      exec .tableParse s =
        .next { s with
          errCode := some .invalidPath, errInfo := 0x20000000 ||| BitVec.ofNat 32 j, done := true, phase := .idle }) ∧
    (∀ v, es = [(v, [])] → ∃ t n, exec .tableParse s = .next t ∧ t.errCode = s.errCode ∧ t.errInfo = s.errInfo ∧
      walk t [false] = some n ∧ (nodeAt t.nodes n).payload = some v)

/-! ## The unpacker and DECODE -/

/-- 47_bit_unpacker.md R281, R283: IN_LEN above IBUF is IO_FAILURE 1, a stream of no bytes CORRUPT_STREAM 0x20000000, a last byte 0x00
CORRUPT_STREAM 0x30000000 | (IN_LEN - 1); nothing else is written. -/
def Obligations.UnpackChecksItsInput : Prop :=
  ∀ s : State, s.caps.Legal →
    (s.caps.ibufCap < s.inLen.toNat →
      exec .unpack s = .next { s with errCode := some .ioFailure, errInfo := 1, done := true, phase := .idle }) ∧
    (s.inLen = 0 →
      exec .unpack s =
        .next { s with errCode := some .corruptStream, errInfo := 0x20000000, done := true, phase := .idle }) ∧
    (s.inLen ≠ 0 → s.inLen.toNat ≤ s.caps.ibufCap → readByte s (0x01000000 + (s.inLen.toNat - 1)) = 0 →
      exec .unpack s =
        .next { s with
          errCode := some .corruptStream, errInfo := 0x30000000 ||| BitVec.ofNat 32 (s.inLen.toNat - 1), done := true,
          phase := .idle })

/-- 47_bit_unpacker.md R280, R285, R288: where ROOT carries no payload, the data bits are the concatenation of paths that each lead from ROOT to
their first payload, and those payloads x fit OBUF, UNPACK completes: OBUF[0, k) = x, OUT_LEN = k, DATA_BITS = D, CURSOR = ROOT, and
every other byte and register stays. -/
def Obligations.UnpackDecodesConcatenatedCodes : Prop :=
  ∀ (s : State) (codes : List (Byte × BitString)) (p : Nat), s.caps.Legal → Memory.wf s.mem →
    s.inLen.toNat ≤ s.caps.ibufCap → s.inLen ≠ 0 →
    lowestSetBit (readByte s (0x01000000 + (s.inLen.toNat - 1))) = some p →
    (∀ r, s.root = some r → (nodeAt s.nodes r).payload = none) →
    (∀ e ∈ codes, (∃ n, walk s e.2 = some n ∧ (nodeAt s.nodes n).payload = some e.1) ∧
      ∀ q n, q <+: e.2 → q ≠ e.2 → walk s q = some n → (nodeAt s.nodes n).payload = none) →
    (streamBits (inputBytes s)).take (8 * s.inLen.toNat - (p + 1)) = (codes.map (fun e => e.2)).flatten →
    codes.length ≤ s.caps.obufCap →
    ∃ t, exec .unpack s = .next t ∧
      t = { s with
        mem := t.mem, outLen := t.outLen, dataBits := t.dataBits, cursor := s.root, done := true, phase := .idle } ∧
      t.outLen.toNat = codes.length ∧ t.dataBits.toNat = 8 * s.inLen.toNat - (p + 1) ∧
      readBytes t 0x02000000 codes.length = codes.map (fun e => e.1) ∧
      ∀ a, a < 0x02000000 ∨ 0x02000000 + codes.length ≤ a → readByte t a = readByte s a

/-- 47_bit_unpacker.md R284: where ROOT carries a payload v, D data bits 0 decode to D copies of v with CURSOR at ROOT; a first data bit 1 at
position i raises CORRUPT_STREAM 0x50000000 | i with the i copies before it in OBUF; and more 0 bits than OBUF holds raise
IO_FAILURE 2 with OBUF full of copies and OUT_LEN = OBUF_CAP (R286). CURSOR is ROOT in each case and DATA_BITS changes on success
only (R288); every other byte and register stays. -/
def Obligations.DegenerateTreeDecodesZeroBits : Prop :=
  ∀ (s : State) (r p d : Nat) (v : Byte), s.caps.Legal → Memory.wf s.mem → s.inLen.toNat ≤ s.caps.ibufCap → s.inLen ≠ 0 →
    s.root = some r → (nodeAt s.nodes r).payload = some v →
    lowestSetBit (readByte s (0x01000000 + (s.inLen.toNat - 1))) = some p → d = 8 * s.inLen.toNat - (p + 1) →
    let emitted : State → Nat → Prop := fun t k =>
      t.outLen.toNat = k ∧ readBytes t 0x02000000 k = List.replicate k v ∧
        ∀ a, a < 0x02000000 ∨ 0x02000000 + k ≤ a → readByte t a = readByte s a
    let stopsWith : Nat → ErrorCode → Word → Prop := fun k e info =>
      ∃ t, exec .unpack s = .next t ∧
        t = { s with
          mem := t.mem, outLen := t.outLen, cursor := s.root, errCode := some e, errInfo := info, done := true,
          phase := .idle } ∧
        emitted t k
    ((∀ i, i < d → (streamBits (inputBytes s)).getD i false = false) → d ≤ s.caps.obufCap →
      ∃ t, exec .unpack s = .next t ∧
        t = { s with
          mem := t.mem, outLen := t.outLen, dataBits := t.dataBits, cursor := s.root, done := true, phase := .idle } ∧
        t.dataBits.toNat = d ∧ emitted t d) ∧
    (∀ i, i < d → (streamBits (inputBytes s)).getD i false = true →
      (∀ j, j < i → (streamBits (inputBytes s)).getD j false = false) → i ≤ s.caps.obufCap →
      stopsWith i .corruptStream (0x50000000 ||| BitVec.ofNat 32 i)) ∧
    (s.caps.obufCap < d → (∀ j, j ≤ s.caps.obufCap → (streamBits (inputBytes s)).getD j false = false) →
      stopsWith s.caps.obufCap .ioFailure 2)

/-- 47_bit_unpacker.md R285, R286, R287, R288: where ROOT carries no payload and the data bits begin with codes whose payloads fit OBUF, what
follows ends UNPACK: bits that stop at a node below ROOT are CORRUPT_STREAM 0x40000000 | D, a missing child at bit i CORRUPT_STREAM
0x10000000 | i, one code more than OBUF holds IO_FAILURE 2. OUT_LEN and OBUF keep the bytes before the error, CURSOR is the node the
traversal was at, DATA_BITS and everything else stay. -/
def Obligations.UnpackStopsAtTheFirstBadBit : Prop :=
  ∀ (s : State) (codes : List (Byte × BitString)) (tail : BitString) (p d n : Nat), s.caps.Legal → Memory.wf s.mem →
    s.inLen.toNat ≤ s.caps.ibufCap → s.inLen ≠ 0 →
    lowestSetBit (readByte s (0x01000000 + (s.inLen.toNat - 1))) = some p → d = 8 * s.inLen.toNat - (p + 1) →
    (∀ r, s.root = some r → (nodeAt s.nodes r).payload = none) →
    (∀ e ∈ codes, (∃ m, walk s e.2 = some m ∧ (nodeAt s.nodes m).payload = some e.1) ∧
      ∀ q m, q <+: e.2 → q ≠ e.2 → walk s q = some m → (nodeAt s.nodes m).payload = none) →
    (streamBits (inputBytes s)).take d = (codes.map (fun e => e.2)).flatten ++ tail → codes.length ≤ s.caps.obufCap →
    let stopsWith : Option Nat → ErrorCode → Word → Prop := fun cursor e info =>
      ∃ t, exec .unpack s = .next t ∧
        t = { s with
          mem := t.mem, outLen := t.outLen, cursor := cursor, errCode := some e, errInfo := info, done := true,
          phase := .idle } ∧
        t.outLen.toNat = codes.length ∧ readBytes t 0x02000000 codes.length = codes.map (fun c => c.1) ∧
        ∀ a, a < 0x02000000 ∨ 0x02000000 + codes.length ≤ a → readByte t a = readByte s a
    (tail ≠ [] → walk s tail = some n → s.root ≠ some n →
      (∀ q m, q <+: tail → walk s q = some m → (nodeAt s.nodes m).payload = none) →
      stopsWith (some n) .corruptStream (0x40000000 ||| BitVec.ofNat 32 d)) ∧
    (∀ q bit rest, tail = q ++ bit :: rest → walk s q = some n → child s.nodes n bit = none →
      (∀ q' m, q' <+: q → walk s q' = some m → (nodeAt s.nodes m).payload = none) →
      stopsWith (some n) .corruptStream (0x10000000 ||| BitVec.ofNat 32 (d - tail.length + q.length))) ∧
    (s.root = none → tail ≠ [] → stopsWith none .corruptStream 0x10000000) ∧
    (∀ c rest v, tail = c ++ rest → codes.length = s.caps.obufCap → walk s c = some n →
      (nodeAt s.nodes n).payload = some v →
      (∀ q m, q <+: c → q ≠ c → walk s q = some m → (nodeAt s.nodes m).payload = none) →
      stopsWith (some n) .ioFailure 2)

/-- 47_bit_unpacker.md R289, 40_command_protocol.md R127: DECODE is TABLE_PARSE and then UNPACK: a table error ends it in the state TABLE_PARSE leaves,
before any packed byte is read; else it ends as UNPACK does after TABLE_PARSE. -/
def Obligations.DecodeRunsItsSequence : Prop :=
  ∀ s t : State, s.errCode = none → exec .tableParse s = .next t →
    (t.errCode ≠ none → exec .decode s = .next t) ∧ (t.errCode = none → exec .decode s = exec .unpack t)

/-- 47_bit_unpacker.md R289, R280 and 46_table_parser.md R260: DECODE of a prefix-free table and a stream made of its codes completes without error
and leaves the codes' bytes in OBUF; every other byte stays. -/
def Obligations.DecodeCompletesOnAPrefixFreeTable : Prop :=
  ∀ (s : State) (es codes : List (Byte × BitString)) (x : List (Byte × BitString)) (p : Nat), s.caps.Legal →
    Memory.wf s.mem → s.tblLen.toNat ≤ s.caps.tbufCap → parseTable (tableBytes s) = .entries es →
    (2 ≤ es.length → ∀ e ∈ es, e.2 ≠ []) → codes = es.map (fun e => if e.2 = [] then (e.1, [false]) else e) →
    (∀ e ∈ codes, ∀ e' ∈ codes, e.2 <+: e'.2 → e = e') → s.inLen.toNat ≤ s.caps.ibufCap → s.inLen ≠ 0 →
    lowestSetBit (readByte s (0x01000000 + (s.inLen.toNat - 1))) = some p → (∀ e ∈ x, e ∈ codes) →
    (streamBits (inputBytes s)).take (8 * s.inLen.toNat - (p + 1)) = (x.map (fun e => e.2)).flatten →
    x.length ≤ s.caps.obufCap →
    ∃ t, exec .decode s = .next t ∧
      t = { s with
        nodes := t.nodes, root := some 0, cursor := some 0, symCount := t.symCount, mem := t.mem, outLen := t.outLen,
        dataBits := t.dataBits, done := true, phase := .idle } ∧
      t.symCount.toNat = es.length ∧ t.outLen.toNat = x.length ∧
      t.dataBits.toNat = 8 * s.inLen.toNat - (p + 1) ∧ readBytes t 0x02000000 x.length = x.map (fun e => e.1) ∧
      ∀ a, a < 0x02000000 ∨ 0x02000000 + x.length ≤ a → readByte t a = readByte s a

/-! ## Round trips -/

/-- 45_bit_packer.md R243, R244 with 47_bit_unpacker.md R282, R285: what PACK writes with the codes of a tree, UNPACK reads back with that tree, for every
tree that keeps the invariant, the degenerate ones included. `u` is any state in which the host has copied the packed bytes to IBUF. -/
def Obligations.UnpackInvertsPack : Prop :=
  ∀ s t u : State, s.caps.Legal → Memory.wf s.mem → TreeOk s.nodes s.root → deriveTable s.nodes s.root = some s.code →
    s.errCode = none → exec .pack s = .next t → t.errCode = none → s.inLen.toNat ≤ s.caps.obufCap →
    t.outLen.toNat ≤ s.caps.ibufCap → Memory.wf u.mem → u.caps = s.caps → u.nodes = s.nodes → u.root = s.root →
    u.errCode = none → u.inLen = t.outLen → inputBytes u = readBytes t 0x02000000 t.outLen.toNat →
    ∃ v, exec .unpack u = .next v ∧ v.errCode = none ∧ v.outLen = s.inLen ∧ v.dataBits = t.dataBits ∧
      readBytes v 0x02000000 s.inLen.toNat = inputBytes s

/-- 45_bit_packer.md R250: for every input x with room in OBUF, if ENCODE completes without error and the host then copies OBUF[0, OUT_LEN) into
IBUF, sets IN_LEN and leaves TBUF and TBL_LEN, DECODE completes without error with OBUF[0, m_x) = x and OUT_LEN = m_x. -/
def Obligations.DecodeInvertsEncode : Prop :=
  ∀ s t u : State, s.caps.Legal → Memory.wf s.mem → s.inLen.toNat ≤ s.caps.ibufCap → s.inLen.toNat ≤ s.caps.obufCap →
    s.errCode = none → exec .encode s = .next t → t.errCode = none → t.outLen.toNat ≤ s.caps.ibufCap →
    Memory.wf u.mem → u.caps = s.caps → u.errCode = none → u.inLen = t.outLen →
    inputBytes u = readBytes t 0x02000000 t.outLen.toNat → u.tblLen = t.tblLen → tableBytes u = tableBytes t →
    ∃ v, exec .decode u = .next v ∧ v.errCode = none ∧ v.outLen = s.inLen ∧
      readBytes v 0x02000000 s.inLen.toNat = inputBytes s

/-- 46_table_parser.md R268: for a text that TABLE_SERIALIZE writes from the codes of a built tree, TABLE_PARSE, CODE_DERIVE, TABLE_SERIALIZE
complete without error and write the text again, byte for byte. -/
def Obligations.ParsingAWrittenTableIsIdempotent : Prop :=
  ∀ (s : State) (h : Histogram) (tbl : CodeTable), s.caps.Legal → Memory.wf s.mem → s.errCode = none →
    deriveTable (buildTree h).1 (buildTree h).2 = some tbl → s.tblLen.toNat ≤ s.caps.tbufCap → tableBytes s = tableText tbl →
    ∃ t u v, exec .tableParse s = .next t ∧ exec .codeDerive t = .next u ∧ exec .tableSerialize u = .next v ∧
      v.errCode = none ∧ u.code = tbl ∧ v.tblLen = s.tblLen ∧ tableBytes v = tableText tbl

/-! ## Whole-machine rules -/

/-- 60_exceptions.md R303: the errors a command can end with; every other pair of command and error cannot occur. -/
def Obligations.ErrorsByCommand : Prop :=
  ∀ (i : Instr) (s t : State) (e : ErrorCode), Inv s → s.errCode = none → exec i s = .next t → t.errCode = some e →
    match i with
    | .histCount | .tableSerialize | .encode => e = .ioFailure
    | .codeSet _ => e = .invalidPath
    | .pack => e = .ioFailure ∨ e = .missingSymbolCode
    | .treeInsert _ => e = .nodeCapacity
    | .tableParse => e = .ioFailure ∨ e = .malformedTable ∨ e = .invalidPath
    | .unpack => e = .ioFailure ∨ e = .corruptStream
    | .decode => e = .ioFailure ∨ e = .corruptStream ∨ e = .malformedTable ∨ e = .invalidPath
    | .nop | .histClear | .histGet _ | .histSet _ | .treeBuild | .codeDerive | .codeClear | .codeGet _ | .treeClear
    | .treeSearch | .treeStep _ | .treeReset => False

/-- 10_state.md R26 to R38, 20_memory.md R80: every register and internal memory is unchanged by every command but those its rule names.
The error record (ERR_INFO, R28, and STATUS.ERRCODE, R25) is unchanged unless the command ends in an error, which only the commands to
which 60_exceptions.md R303 gives one can do; DONE and BUSY are what completion makes them (40_command_protocol.md R123). -/
def Obligations.StateIsWrittenOnlyByItsCommands : Prop :=
  ∀ (i : Instr) (s t : State), exec i s = .next t →
    t.caps = s.caps ∧ t.cmd = s.cmd ∧ t.doneIe = s.doneIe ∧ t.reject = s.reject ∧ t.inLen = s.inLen ∧
    t.resetPin = s.resetPin ∧ t.delay = s.delay ∧ t.resets = s.resets ∧ t.draws = s.draws ∧ t.host = s.host ∧
    t.done = true ∧ t.phase = .idle ∧
    ((t.errCode = s.errCode ∧ t.errInfo = s.errInfo) ∨
      (t.errCode ≠ none ∧
        (i = .histCount ∨ i = .tableSerialize ∨ (∃ b, i = .codeSet b) ∨ i = .pack ∨ i = .encode ∨ (∃ b, i = .treeInsert b) ∨
          i = .tableParse ∨ i = .unpack ∨ i = .decode))) ∧
    ((∀ b, i ≠ .histGet b) → t.countLo = s.countLo ∧ t.countHi = s.countHi) ∧
    ((∀ b, i ≠ .codeGet b) → t.pathLen = s.pathLen ∧ t.path = s.path) ∧
    ((∀ b, i ≠ .codeGet b) → (∀ bit, i ≠ .treeStep bit) → i ≠ .treeSearch → t.result = s.result) ∧
    (i ≠ .pack → i ≠ .encode → t.initSize = s.initSize ∧ t.compSize = s.compSize) ∧
    (i ≠ .pack → i ≠ .encode → i ≠ .unpack → i ≠ .decode → t.outLen = s.outLen ∧ t.dataBits = s.dataBits) ∧
    (i ≠ .tableSerialize → i ≠ .encode → t.tblLen = s.tblLen) ∧
    (i ≠ .histCount → i ≠ .histClear → (∀ b, i ≠ .histSet b) → i ≠ .encode → t.hist = s.hist) ∧
    (i ≠ .codeDerive → i ≠ .codeClear → (∀ b, i ≠ .codeSet b) → i ≠ .encode → t.code = s.code) ∧
    (i ≠ .treeBuild → i ≠ .treeClear → (∀ b, i ≠ .treeInsert b) → i ≠ .tableParse → i ≠ .encode → i ≠ .decode →
      t.nodes = s.nodes ∧ t.root = s.root ∧ t.symCount = s.symCount ∧
      ((∀ bit, i ≠ .treeStep bit) → i ≠ .treeReset → i ≠ .unpack → t.cursor = s.cursor))

/-- 20_memory.md R80, R64: the buffer bytes a command stores to: TABLE_SERIALIZE and ENCODE TBUF[0, TBL_LEN), PACK, ENCODE, UNPACK and DECODE OBUF[0, OUT_LEN)
(the registers' values after the command); every other byte reads as before, and every other command stores nothing. -/
def Obligations.BuffersAreWrittenOnlyWhereTheRuleSays : Prop :=
  ∀ (i : Instr) (s t : State), s.caps.Legal → Memory.wf s.mem → exec i s = .next t → ∀ a,
    (i = .pack ∨ i = .encode ∨ i = .unpack ∨ i = .decode → a < 0x02000000 ∨ 0x02000000 + t.outLen.toNat ≤ a) →
    (i = .tableSerialize ∨ i = .encode → a < 0x03000000 ∨ 0x03000000 + t.tblLen.toNat ≤ a) →
    readByte t a = readByte s a

/-- 40_command_protocol.md R124, 10_state.md R45: a command's effect depends on no status bit, no earlier error record, not on the host, the time or the model's
counters: changing them before the accept changes the outcome in those fields alone. The counters and the host are the model's own
(log entries 2, 4, 13). -/
def Obligations.CommandsReadOnlyTheCodecState : Prop :=
  ∀ (i : Instr) (s : State) (w : Word) (ph : Phase) (dn rj ie : Bool) (e : Option ErrorCode) (info c : Word) (d k : Nat) (h : HostSide),
    exec i (acceptCommand w
      { s with
        phase := ph, done := dn, reject := rj, doneIe := ie, errCode := e, errInfo := info, cmd := c, delay := d, draws := k,
        host := h }) =
    match exec i (acceptCommand w s) with
    | .next t => .next { t with reject := rj, doneIe := ie, delay := d, draws := k, host := h }
    | .fault f => .fault f
    | .refused r => .refused r

/-- 10_state.md R42, 41_tree.md R149 and the width arguments of 10_state.md, 20_memory.md and 44_code_table.md: every step keeps the invariant `Inv`, the tree
invariant and the canonical form of memory (log entry 3) among it. -/
def Obligations.EveryStepKeepsTheInvariant : Prop :=
  ∀ s t : State, Inv s → step s = .next t → Inv t

/-- 70_reset_and_hazards.md R331, R332: the reset state, and the state after a reset event in any state with legal capacities, meet the invariant. -/
def Obligations.ResetMeetsTheInvariant : Prop :=
  Inv State.reset ∧ ∀ s : State, s.caps.Legal → s.resetPin = false → Inv (assertReset s)

/-- 40_command_protocol.md R123, R130 and 60_exceptions.md R300: in every state that meets the invariant the machine goes on: no command, no host access and no
error stops it. -/
def Obligations.TheMachineNeverStops : Prop :=
  ∀ s : State, Inv s → ∃ t, step s = .next t
end

