-- ==== Sys2Proof/Laws/Encoding.lean ====
section
/-! SUPPORT. The laws of the command word: its fields, what the decoder answers, and that every word has at most one meaning. -/

namespace Sys2Proof

/-- The fields of a word put together from fields. -/
theorem ofWord_append (o : BitVec 8) (r : BitVec 16) (i : BitVec 8) :
    CommandFields.ofWord (o ++ r ++ i) = { opc := o, rsvd := r, imm8 := i } := by
  simp only [CommandFields.ofWord, CommandFields.mk.injEq]
  refine ⟨?_, ?_, ?_⟩ <;> ext k hk <;> simp only [BitVec.getElem_extractLsb', BitVec.getLsbD_append] <;> grind

/-- The fields of a command's word. -/
theorem ofWord_encode (i : Instr) :
    CommandFields.ofWord (encode i) = { opc := opcodeOf i, rsvd := 0, imm8 := immediateOf i } :=
  ofWord_append _ _ _

/-- A word is its fields put together. -/
theorem append_ofWord (w : Word) :
    (CommandFields.ofWord w).opc ++ (CommandFields.ofWord w).rsvd ++ (CommandFields.ofWord w).imm8 = w := by
  simp only [CommandFields.ofWord]
  apply BitVec.eq_of_getLsbD_eq
  intro k hk
  simp only [BitVec.getLsbD_append, BitVec.getLsbD_extractLsb']
  grind

end Sys2Proof
end

