-- ==== Sys2Proof/Laws/State.lean ====
section
/-! SUPPORT. One lemma per field per named update of State, so that no proof unfolds a record update. -/

namespace Sys2Proof.Machine

/-! ### complete -/

@[simp] theorem complete_caps (s : State) : (complete s).caps = s.caps := rfl
@[simp] theorem complete_phase (s : State) : (complete s).phase = .idle := rfl
@[simp] theorem complete_done (s : State) : (complete s).done = true := rfl
@[simp] theorem complete_reject (s : State) : (complete s).reject = s.reject := rfl
@[simp] theorem complete_errCode (s : State) : (complete s).errCode = s.errCode := rfl
@[simp] theorem complete_cmd (s : State) : (complete s).cmd = s.cmd := rfl
@[simp] theorem complete_doneIe (s : State) : (complete s).doneIe = s.doneIe := rfl
@[simp] theorem complete_errInfo (s : State) : (complete s).errInfo = s.errInfo := rfl
@[simp] theorem complete_inLen (s : State) : (complete s).inLen = s.inLen := rfl
@[simp] theorem complete_outLen (s : State) : (complete s).outLen = s.outLen := rfl
@[simp] theorem complete_initSize (s : State) : (complete s).initSize = s.initSize := rfl
@[simp] theorem complete_compSize (s : State) : (complete s).compSize = s.compSize := rfl
@[simp] theorem complete_dataBits (s : State) : (complete s).dataBits = s.dataBits := rfl
@[simp] theorem complete_tblLen (s : State) : (complete s).tblLen = s.tblLen := rfl
@[simp] theorem complete_countLo (s : State) : (complete s).countLo = s.countLo := rfl
@[simp] theorem complete_countHi (s : State) : (complete s).countHi = s.countHi := rfl
@[simp] theorem complete_pathLen (s : State) : (complete s).pathLen = s.pathLen := rfl
@[simp] theorem complete_path (s : State) : (complete s).path = s.path := rfl
@[simp] theorem complete_result (s : State) : (complete s).result = s.result := rfl
@[simp] theorem complete_cursor (s : State) : (complete s).cursor = s.cursor := rfl
@[simp] theorem complete_root (s : State) : (complete s).root = s.root := rfl
@[simp] theorem complete_symCount (s : State) : (complete s).symCount = s.symCount := rfl
@[simp] theorem complete_nodes (s : State) : (complete s).nodes = s.nodes := rfl
@[simp] theorem complete_hist (s : State) : (complete s).hist = s.hist := rfl
@[simp] theorem complete_code (s : State) : (complete s).code = s.code := rfl
@[simp] theorem complete_mem (s : State) : (complete s).mem = s.mem := rfl
@[simp] theorem complete_resetPin (s : State) : (complete s).resetPin = s.resetPin := rfl
@[simp] theorem complete_delay (s : State) : (complete s).delay = s.delay := rfl
@[simp] theorem complete_resets (s : State) : (complete s).resets = s.resets := rfl
@[simp] theorem complete_draws (s : State) : (complete s).draws = s.draws := rfl
@[simp] theorem complete_host (s : State) : (complete s).host = s.host := rfl

/-! ### raise -/

@[simp] theorem raise_caps (e : ErrorCode) (info : Word) (s : State) : (raise e info s).caps = s.caps := rfl
@[simp] theorem raise_phase (e : ErrorCode) (info : Word) (s : State) : (raise e info s).phase = .idle := rfl
@[simp] theorem raise_done (e : ErrorCode) (info : Word) (s : State) : (raise e info s).done = true := rfl
@[simp] theorem raise_reject (e : ErrorCode) (info : Word) (s : State) : (raise e info s).reject = s.reject := rfl
@[simp] theorem raise_errCode (e : ErrorCode) (info : Word) (s : State) : (raise e info s).errCode = some e := rfl
@[simp] theorem raise_cmd (e : ErrorCode) (info : Word) (s : State) : (raise e info s).cmd = s.cmd := rfl
@[simp] theorem raise_doneIe (e : ErrorCode) (info : Word) (s : State) : (raise e info s).doneIe = s.doneIe := rfl
@[simp] theorem raise_errInfo (e : ErrorCode) (info : Word) (s : State) : (raise e info s).errInfo = info := rfl
@[simp] theorem raise_inLen (e : ErrorCode) (info : Word) (s : State) : (raise e info s).inLen = s.inLen := rfl
@[simp] theorem raise_outLen (e : ErrorCode) (info : Word) (s : State) : (raise e info s).outLen = s.outLen := rfl
@[simp] theorem raise_initSize (e : ErrorCode) (info : Word) (s : State) : (raise e info s).initSize = s.initSize := rfl
@[simp] theorem raise_compSize (e : ErrorCode) (info : Word) (s : State) : (raise e info s).compSize = s.compSize := rfl
@[simp] theorem raise_dataBits (e : ErrorCode) (info : Word) (s : State) : (raise e info s).dataBits = s.dataBits := rfl
@[simp] theorem raise_tblLen (e : ErrorCode) (info : Word) (s : State) : (raise e info s).tblLen = s.tblLen := rfl
@[simp] theorem raise_countLo (e : ErrorCode) (info : Word) (s : State) : (raise e info s).countLo = s.countLo := rfl
@[simp] theorem raise_countHi (e : ErrorCode) (info : Word) (s : State) : (raise e info s).countHi = s.countHi := rfl
@[simp] theorem raise_pathLen (e : ErrorCode) (info : Word) (s : State) : (raise e info s).pathLen = s.pathLen := rfl
@[simp] theorem raise_path (e : ErrorCode) (info : Word) (s : State) : (raise e info s).path = s.path := rfl
@[simp] theorem raise_result (e : ErrorCode) (info : Word) (s : State) : (raise e info s).result = s.result := rfl
@[simp] theorem raise_cursor (e : ErrorCode) (info : Word) (s : State) : (raise e info s).cursor = s.cursor := rfl
@[simp] theorem raise_root (e : ErrorCode) (info : Word) (s : State) : (raise e info s).root = s.root := rfl
@[simp] theorem raise_symCount (e : ErrorCode) (info : Word) (s : State) : (raise e info s).symCount = s.symCount := rfl
@[simp] theorem raise_nodes (e : ErrorCode) (info : Word) (s : State) : (raise e info s).nodes = s.nodes := rfl
@[simp] theorem raise_hist (e : ErrorCode) (info : Word) (s : State) : (raise e info s).hist = s.hist := rfl
@[simp] theorem raise_code (e : ErrorCode) (info : Word) (s : State) : (raise e info s).code = s.code := rfl
@[simp] theorem raise_mem (e : ErrorCode) (info : Word) (s : State) : (raise e info s).mem = s.mem := rfl
@[simp] theorem raise_resetPin (e : ErrorCode) (info : Word) (s : State) : (raise e info s).resetPin = s.resetPin := rfl
@[simp] theorem raise_delay (e : ErrorCode) (info : Word) (s : State) : (raise e info s).delay = s.delay := rfl
@[simp] theorem raise_resets (e : ErrorCode) (info : Word) (s : State) : (raise e info s).resets = s.resets := rfl
@[simp] theorem raise_draws (e : ErrorCode) (info : Word) (s : State) : (raise e info s).draws = s.draws := rfl
@[simp] theorem raise_host (e : ErrorCode) (info : Word) (s : State) : (raise e info s).host = s.host := rfl

/-! ### acceptCommand -/

@[simp] theorem acceptCommand_caps (w : Word) (s : State) : (acceptCommand w s).caps = s.caps := rfl
@[simp] theorem acceptCommand_phase (w : Word) (s : State) : (acceptCommand w s).phase = .busy := rfl
@[simp] theorem acceptCommand_done (w : Word) (s : State) : (acceptCommand w s).done = false := rfl
@[simp] theorem acceptCommand_reject (w : Word) (s : State) : (acceptCommand w s).reject = s.reject := rfl
@[simp] theorem acceptCommand_errCode (w : Word) (s : State) : (acceptCommand w s).errCode = none := rfl
@[simp] theorem acceptCommand_cmd (w : Word) (s : State) : (acceptCommand w s).cmd = w := rfl
@[simp] theorem acceptCommand_doneIe (w : Word) (s : State) : (acceptCommand w s).doneIe = s.doneIe := rfl
@[simp] theorem acceptCommand_errInfo (w : Word) (s : State) : (acceptCommand w s).errInfo = 0 := rfl
@[simp] theorem acceptCommand_inLen (w : Word) (s : State) : (acceptCommand w s).inLen = s.inLen := rfl
@[simp] theorem acceptCommand_outLen (w : Word) (s : State) : (acceptCommand w s).outLen = s.outLen := rfl
@[simp] theorem acceptCommand_initSize (w : Word) (s : State) : (acceptCommand w s).initSize = s.initSize := rfl
@[simp] theorem acceptCommand_compSize (w : Word) (s : State) : (acceptCommand w s).compSize = s.compSize := rfl
@[simp] theorem acceptCommand_dataBits (w : Word) (s : State) : (acceptCommand w s).dataBits = s.dataBits := rfl
@[simp] theorem acceptCommand_tblLen (w : Word) (s : State) : (acceptCommand w s).tblLen = s.tblLen := rfl
@[simp] theorem acceptCommand_countLo (w : Word) (s : State) : (acceptCommand w s).countLo = s.countLo := rfl
@[simp] theorem acceptCommand_countHi (w : Word) (s : State) : (acceptCommand w s).countHi = s.countHi := rfl
@[simp] theorem acceptCommand_pathLen (w : Word) (s : State) : (acceptCommand w s).pathLen = s.pathLen := rfl
@[simp] theorem acceptCommand_path (w : Word) (s : State) : (acceptCommand w s).path = s.path := rfl
@[simp] theorem acceptCommand_result (w : Word) (s : State) : (acceptCommand w s).result = s.result := rfl
@[simp] theorem acceptCommand_cursor (w : Word) (s : State) : (acceptCommand w s).cursor = s.cursor := rfl
@[simp] theorem acceptCommand_root (w : Word) (s : State) : (acceptCommand w s).root = s.root := rfl
@[simp] theorem acceptCommand_symCount (w : Word) (s : State) : (acceptCommand w s).symCount = s.symCount := rfl
@[simp] theorem acceptCommand_nodes (w : Word) (s : State) : (acceptCommand w s).nodes = s.nodes := rfl
@[simp] theorem acceptCommand_hist (w : Word) (s : State) : (acceptCommand w s).hist = s.hist := rfl
@[simp] theorem acceptCommand_code (w : Word) (s : State) : (acceptCommand w s).code = s.code := rfl
@[simp] theorem acceptCommand_mem (w : Word) (s : State) : (acceptCommand w s).mem = s.mem := rfl
@[simp] theorem acceptCommand_resetPin (w : Word) (s : State) : (acceptCommand w s).resetPin = s.resetPin := rfl
@[simp] theorem acceptCommand_delay (w : Word) (s : State) : (acceptCommand w s).delay = s.delay := rfl
@[simp] theorem acceptCommand_resets (w : Word) (s : State) : (acceptCommand w s).resets = s.resets := rfl
@[simp] theorem acceptCommand_draws (w : Word) (s : State) : (acceptCommand w s).draws = s.draws := rfl
@[simp] theorem acceptCommand_host (w : Word) (s : State) : (acceptCommand w s).host = s.host := rfl

/-! ### writeBytes -/

@[simp] theorem writeBytes_caps (s : State) (a : Nat) (vs : List Byte) : (writeBytes s a vs).caps = s.caps := rfl
@[simp] theorem writeBytes_phase (s : State) (a : Nat) (vs : List Byte) : (writeBytes s a vs).phase = s.phase := rfl
@[simp] theorem writeBytes_done (s : State) (a : Nat) (vs : List Byte) : (writeBytes s a vs).done = s.done := rfl
@[simp] theorem writeBytes_reject (s : State) (a : Nat) (vs : List Byte) : (writeBytes s a vs).reject = s.reject := rfl
@[simp] theorem writeBytes_errCode (s : State) (a : Nat) (vs : List Byte) : (writeBytes s a vs).errCode = s.errCode := rfl
@[simp] theorem writeBytes_cmd (s : State) (a : Nat) (vs : List Byte) : (writeBytes s a vs).cmd = s.cmd := rfl
@[simp] theorem writeBytes_doneIe (s : State) (a : Nat) (vs : List Byte) : (writeBytes s a vs).doneIe = s.doneIe := rfl
@[simp] theorem writeBytes_errInfo (s : State) (a : Nat) (vs : List Byte) : (writeBytes s a vs).errInfo = s.errInfo := rfl
@[simp] theorem writeBytes_inLen (s : State) (a : Nat) (vs : List Byte) : (writeBytes s a vs).inLen = s.inLen := rfl
@[simp] theorem writeBytes_outLen (s : State) (a : Nat) (vs : List Byte) : (writeBytes s a vs).outLen = s.outLen := rfl
@[simp] theorem writeBytes_initSize (s : State) (a : Nat) (vs : List Byte) : (writeBytes s a vs).initSize = s.initSize := rfl
@[simp] theorem writeBytes_compSize (s : State) (a : Nat) (vs : List Byte) : (writeBytes s a vs).compSize = s.compSize := rfl
@[simp] theorem writeBytes_dataBits (s : State) (a : Nat) (vs : List Byte) : (writeBytes s a vs).dataBits = s.dataBits := rfl
@[simp] theorem writeBytes_tblLen (s : State) (a : Nat) (vs : List Byte) : (writeBytes s a vs).tblLen = s.tblLen := rfl
@[simp] theorem writeBytes_countLo (s : State) (a : Nat) (vs : List Byte) : (writeBytes s a vs).countLo = s.countLo := rfl
@[simp] theorem writeBytes_countHi (s : State) (a : Nat) (vs : List Byte) : (writeBytes s a vs).countHi = s.countHi := rfl
@[simp] theorem writeBytes_pathLen (s : State) (a : Nat) (vs : List Byte) : (writeBytes s a vs).pathLen = s.pathLen := rfl
@[simp] theorem writeBytes_path (s : State) (a : Nat) (vs : List Byte) : (writeBytes s a vs).path = s.path := rfl
@[simp] theorem writeBytes_result (s : State) (a : Nat) (vs : List Byte) : (writeBytes s a vs).result = s.result := rfl
@[simp] theorem writeBytes_cursor (s : State) (a : Nat) (vs : List Byte) : (writeBytes s a vs).cursor = s.cursor := rfl
@[simp] theorem writeBytes_root (s : State) (a : Nat) (vs : List Byte) : (writeBytes s a vs).root = s.root := rfl
@[simp] theorem writeBytes_symCount (s : State) (a : Nat) (vs : List Byte) : (writeBytes s a vs).symCount = s.symCount := rfl
@[simp] theorem writeBytes_nodes (s : State) (a : Nat) (vs : List Byte) : (writeBytes s a vs).nodes = s.nodes := rfl
@[simp] theorem writeBytes_hist (s : State) (a : Nat) (vs : List Byte) : (writeBytes s a vs).hist = s.hist := rfl
@[simp] theorem writeBytes_code (s : State) (a : Nat) (vs : List Byte) : (writeBytes s a vs).code = s.code := rfl
@[simp] theorem writeBytes_mem (s : State) (a : Nat) (vs : List Byte) : (writeBytes s a vs).mem = Memory.putBytes s.mem a vs := rfl
@[simp] theorem writeBytes_resetPin (s : State) (a : Nat) (vs : List Byte) : (writeBytes s a vs).resetPin = s.resetPin := rfl
@[simp] theorem writeBytes_delay (s : State) (a : Nat) (vs : List Byte) : (writeBytes s a vs).delay = s.delay := rfl
@[simp] theorem writeBytes_resets (s : State) (a : Nat) (vs : List Byte) : (writeBytes s a vs).resets = s.resets := rfl
@[simp] theorem writeBytes_draws (s : State) (a : Nat) (vs : List Byte) : (writeBytes s a vs).draws = s.draws := rfl
@[simp] theorem writeBytes_host (s : State) (a : Nat) (vs : List Byte) : (writeBytes s a vs).host = s.host := rfl

/-! ### clearTree -/

@[simp] theorem clearTree_caps (s : State) : (clearTree s).caps = s.caps := rfl
@[simp] theorem clearTree_phase (s : State) : (clearTree s).phase = s.phase := rfl
@[simp] theorem clearTree_done (s : State) : (clearTree s).done = s.done := rfl
@[simp] theorem clearTree_reject (s : State) : (clearTree s).reject = s.reject := rfl
@[simp] theorem clearTree_errCode (s : State) : (clearTree s).errCode = s.errCode := rfl
@[simp] theorem clearTree_cmd (s : State) : (clearTree s).cmd = s.cmd := rfl
@[simp] theorem clearTree_doneIe (s : State) : (clearTree s).doneIe = s.doneIe := rfl
@[simp] theorem clearTree_errInfo (s : State) : (clearTree s).errInfo = s.errInfo := rfl
@[simp] theorem clearTree_inLen (s : State) : (clearTree s).inLen = s.inLen := rfl
@[simp] theorem clearTree_outLen (s : State) : (clearTree s).outLen = s.outLen := rfl
@[simp] theorem clearTree_initSize (s : State) : (clearTree s).initSize = s.initSize := rfl
@[simp] theorem clearTree_compSize (s : State) : (clearTree s).compSize = s.compSize := rfl
@[simp] theorem clearTree_dataBits (s : State) : (clearTree s).dataBits = s.dataBits := rfl
@[simp] theorem clearTree_tblLen (s : State) : (clearTree s).tblLen = s.tblLen := rfl
@[simp] theorem clearTree_countLo (s : State) : (clearTree s).countLo = s.countLo := rfl
@[simp] theorem clearTree_countHi (s : State) : (clearTree s).countHi = s.countHi := rfl
@[simp] theorem clearTree_pathLen (s : State) : (clearTree s).pathLen = s.pathLen := rfl
@[simp] theorem clearTree_path (s : State) : (clearTree s).path = s.path := rfl
@[simp] theorem clearTree_result (s : State) : (clearTree s).result = s.result := rfl
@[simp] theorem clearTree_cursor (s : State) : (clearTree s).cursor = some 0 := rfl
@[simp] theorem clearTree_root (s : State) : (clearTree s).root = some 0 := rfl
@[simp] theorem clearTree_symCount (s : State) : (clearTree s).symCount = 0 := rfl
@[simp] theorem clearTree_nodes (s : State) : (clearTree s).nodes = [emptyNode] := rfl
@[simp] theorem clearTree_hist (s : State) : (clearTree s).hist = s.hist := rfl
@[simp] theorem clearTree_code (s : State) : (clearTree s).code = s.code := rfl
@[simp] theorem clearTree_mem (s : State) : (clearTree s).mem = s.mem := rfl
@[simp] theorem clearTree_resetPin (s : State) : (clearTree s).resetPin = s.resetPin := rfl
@[simp] theorem clearTree_delay (s : State) : (clearTree s).delay = s.delay := rfl
@[simp] theorem clearTree_resets (s : State) : (clearTree s).resets = s.resets := rfl
@[simp] theorem clearTree_draws (s : State) : (clearTree s).draws = s.draws := rfl
@[simp] theorem clearTree_host (s : State) : (clearTree s).host = s.host := rfl

/-! ### writeStatus -/

@[simp] theorem writeStatus_caps (v : Word) (s : State) : (writeStatus v s).caps = s.caps := rfl
@[simp] theorem writeStatus_phase (v : Word) (s : State) : (writeStatus v s).phase = s.phase := rfl
@[simp] theorem writeStatus_done (v : Word) (s : State) : (writeStatus v s).done = (s.done && !v.getLsbD 1) := rfl
@[simp] theorem writeStatus_reject (v : Word) (s : State) : (writeStatus v s).reject = (s.reject && !v.getLsbD 3) := rfl
@[simp] theorem writeStatus_errCode (v : Word) (s : State) : (writeStatus v s).errCode = s.errCode := rfl
@[simp] theorem writeStatus_cmd (v : Word) (s : State) : (writeStatus v s).cmd = s.cmd := rfl
@[simp] theorem writeStatus_doneIe (v : Word) (s : State) : (writeStatus v s).doneIe = s.doneIe := rfl
@[simp] theorem writeStatus_errInfo (v : Word) (s : State) : (writeStatus v s).errInfo = s.errInfo := rfl
@[simp] theorem writeStatus_inLen (v : Word) (s : State) : (writeStatus v s).inLen = s.inLen := rfl
@[simp] theorem writeStatus_outLen (v : Word) (s : State) : (writeStatus v s).outLen = s.outLen := rfl
@[simp] theorem writeStatus_initSize (v : Word) (s : State) : (writeStatus v s).initSize = s.initSize := rfl
@[simp] theorem writeStatus_compSize (v : Word) (s : State) : (writeStatus v s).compSize = s.compSize := rfl
@[simp] theorem writeStatus_dataBits (v : Word) (s : State) : (writeStatus v s).dataBits = s.dataBits := rfl
@[simp] theorem writeStatus_tblLen (v : Word) (s : State) : (writeStatus v s).tblLen = s.tblLen := rfl
@[simp] theorem writeStatus_countLo (v : Word) (s : State) : (writeStatus v s).countLo = s.countLo := rfl
@[simp] theorem writeStatus_countHi (v : Word) (s : State) : (writeStatus v s).countHi = s.countHi := rfl
@[simp] theorem writeStatus_pathLen (v : Word) (s : State) : (writeStatus v s).pathLen = s.pathLen := rfl
@[simp] theorem writeStatus_path (v : Word) (s : State) : (writeStatus v s).path = s.path := rfl
@[simp] theorem writeStatus_result (v : Word) (s : State) : (writeStatus v s).result = s.result := rfl
@[simp] theorem writeStatus_cursor (v : Word) (s : State) : (writeStatus v s).cursor = s.cursor := rfl
@[simp] theorem writeStatus_root (v : Word) (s : State) : (writeStatus v s).root = s.root := rfl
@[simp] theorem writeStatus_symCount (v : Word) (s : State) : (writeStatus v s).symCount = s.symCount := rfl
@[simp] theorem writeStatus_nodes (v : Word) (s : State) : (writeStatus v s).nodes = s.nodes := rfl
@[simp] theorem writeStatus_hist (v : Word) (s : State) : (writeStatus v s).hist = s.hist := rfl
@[simp] theorem writeStatus_code (v : Word) (s : State) : (writeStatus v s).code = s.code := rfl
@[simp] theorem writeStatus_mem (v : Word) (s : State) : (writeStatus v s).mem = s.mem := rfl
@[simp] theorem writeStatus_resetPin (v : Word) (s : State) : (writeStatus v s).resetPin = s.resetPin := rfl
@[simp] theorem writeStatus_delay (v : Word) (s : State) : (writeStatus v s).delay = s.delay := rfl
@[simp] theorem writeStatus_resets (v : Word) (s : State) : (writeStatus v s).resets = s.resets := rfl
@[simp] theorem writeStatus_draws (v : Word) (s : State) : (writeStatus v s).draws = s.draws := rfl
@[simp] theorem writeStatus_host (v : Word) (s : State) : (writeStatus v s).host = s.host := rfl

/-! ### releaseReset -/

@[simp] theorem releaseReset_caps (s : State) : (releaseReset s).caps = s.caps := rfl
@[simp] theorem releaseReset_phase (s : State) : (releaseReset s).phase = s.phase := rfl
@[simp] theorem releaseReset_done (s : State) : (releaseReset s).done = s.done := rfl
@[simp] theorem releaseReset_reject (s : State) : (releaseReset s).reject = s.reject := rfl
@[simp] theorem releaseReset_errCode (s : State) : (releaseReset s).errCode = s.errCode := rfl
@[simp] theorem releaseReset_cmd (s : State) : (releaseReset s).cmd = s.cmd := rfl
@[simp] theorem releaseReset_doneIe (s : State) : (releaseReset s).doneIe = s.doneIe := rfl
@[simp] theorem releaseReset_errInfo (s : State) : (releaseReset s).errInfo = s.errInfo := rfl
@[simp] theorem releaseReset_inLen (s : State) : (releaseReset s).inLen = s.inLen := rfl
@[simp] theorem releaseReset_outLen (s : State) : (releaseReset s).outLen = s.outLen := rfl
@[simp] theorem releaseReset_initSize (s : State) : (releaseReset s).initSize = s.initSize := rfl
@[simp] theorem releaseReset_compSize (s : State) : (releaseReset s).compSize = s.compSize := rfl
@[simp] theorem releaseReset_dataBits (s : State) : (releaseReset s).dataBits = s.dataBits := rfl
@[simp] theorem releaseReset_tblLen (s : State) : (releaseReset s).tblLen = s.tblLen := rfl
@[simp] theorem releaseReset_countLo (s : State) : (releaseReset s).countLo = s.countLo := rfl
@[simp] theorem releaseReset_countHi (s : State) : (releaseReset s).countHi = s.countHi := rfl
@[simp] theorem releaseReset_pathLen (s : State) : (releaseReset s).pathLen = s.pathLen := rfl
@[simp] theorem releaseReset_path (s : State) : (releaseReset s).path = s.path := rfl
@[simp] theorem releaseReset_result (s : State) : (releaseReset s).result = s.result := rfl
@[simp] theorem releaseReset_cursor (s : State) : (releaseReset s).cursor = s.cursor := rfl
@[simp] theorem releaseReset_root (s : State) : (releaseReset s).root = s.root := rfl
@[simp] theorem releaseReset_symCount (s : State) : (releaseReset s).symCount = s.symCount := rfl
@[simp] theorem releaseReset_nodes (s : State) : (releaseReset s).nodes = s.nodes := rfl
@[simp] theorem releaseReset_hist (s : State) : (releaseReset s).hist = s.hist := rfl
@[simp] theorem releaseReset_code (s : State) : (releaseReset s).code = s.code := rfl
@[simp] theorem releaseReset_mem (s : State) : (releaseReset s).mem = s.mem := rfl
@[simp] theorem releaseReset_resetPin (s : State) : (releaseReset s).resetPin = false := rfl
@[simp] theorem releaseReset_delay (s : State) : (releaseReset s).delay = s.delay := rfl
@[simp] theorem releaseReset_resets (s : State) : (releaseReset s).resets = s.resets := rfl
@[simp] theorem releaseReset_draws (s : State) : (releaseReset s).draws = s.draws := rfl
@[simp] theorem releaseReset_host (s : State) : (releaseReset s).host = s.host := rfl

/-! ### advanceHost -/

@[simp] theorem advanceHost_caps (s : State) : (advanceHost s).caps = s.caps := rfl
@[simp] theorem advanceHost_phase (s : State) : (advanceHost s).phase = s.phase := rfl
@[simp] theorem advanceHost_done (s : State) : (advanceHost s).done = s.done := rfl
@[simp] theorem advanceHost_reject (s : State) : (advanceHost s).reject = s.reject := rfl
@[simp] theorem advanceHost_errCode (s : State) : (advanceHost s).errCode = s.errCode := rfl
@[simp] theorem advanceHost_cmd (s : State) : (advanceHost s).cmd = s.cmd := rfl
@[simp] theorem advanceHost_doneIe (s : State) : (advanceHost s).doneIe = s.doneIe := rfl
@[simp] theorem advanceHost_errInfo (s : State) : (advanceHost s).errInfo = s.errInfo := rfl
@[simp] theorem advanceHost_inLen (s : State) : (advanceHost s).inLen = s.inLen := rfl
@[simp] theorem advanceHost_outLen (s : State) : (advanceHost s).outLen = s.outLen := rfl
@[simp] theorem advanceHost_initSize (s : State) : (advanceHost s).initSize = s.initSize := rfl
@[simp] theorem advanceHost_compSize (s : State) : (advanceHost s).compSize = s.compSize := rfl
@[simp] theorem advanceHost_dataBits (s : State) : (advanceHost s).dataBits = s.dataBits := rfl
@[simp] theorem advanceHost_tblLen (s : State) : (advanceHost s).tblLen = s.tblLen := rfl
@[simp] theorem advanceHost_countLo (s : State) : (advanceHost s).countLo = s.countLo := rfl
@[simp] theorem advanceHost_countHi (s : State) : (advanceHost s).countHi = s.countHi := rfl
@[simp] theorem advanceHost_pathLen (s : State) : (advanceHost s).pathLen = s.pathLen := rfl
@[simp] theorem advanceHost_path (s : State) : (advanceHost s).path = s.path := rfl
@[simp] theorem advanceHost_result (s : State) : (advanceHost s).result = s.result := rfl
@[simp] theorem advanceHost_cursor (s : State) : (advanceHost s).cursor = s.cursor := rfl
@[simp] theorem advanceHost_root (s : State) : (advanceHost s).root = s.root := rfl
@[simp] theorem advanceHost_symCount (s : State) : (advanceHost s).symCount = s.symCount := rfl
@[simp] theorem advanceHost_nodes (s : State) : (advanceHost s).nodes = s.nodes := rfl
@[simp] theorem advanceHost_hist (s : State) : (advanceHost s).hist = s.hist := rfl
@[simp] theorem advanceHost_code (s : State) : (advanceHost s).code = s.code := rfl
@[simp] theorem advanceHost_mem (s : State) : (advanceHost s).mem = s.mem := rfl
@[simp] theorem advanceHost_resetPin (s : State) : (advanceHost s).resetPin = s.resetPin := rfl
@[simp] theorem advanceHost_delay (s : State) : (advanceHost s).delay = s.delay := rfl
@[simp] theorem advanceHost_resets (s : State) : (advanceHost s).resets = s.resets := rfl
@[simp] theorem advanceHost_draws (s : State) : (advanceHost s).draws = s.draws := rfl
@[simp] theorem advanceHost_host (s : State) : (advanceHost s).host = { s.host with pc := s.host.pc + 1 } := rfl

/-! ### keepAnswer -/

@[simp] theorem keepAnswer_caps (v : Word) (r : BusResponse) (s : State) : (keepAnswer v r s).caps = s.caps := rfl
@[simp] theorem keepAnswer_phase (v : Word) (r : BusResponse) (s : State) : (keepAnswer v r s).phase = s.phase := rfl
@[simp] theorem keepAnswer_done (v : Word) (r : BusResponse) (s : State) : (keepAnswer v r s).done = s.done := rfl
@[simp] theorem keepAnswer_reject (v : Word) (r : BusResponse) (s : State) : (keepAnswer v r s).reject = s.reject := rfl
@[simp] theorem keepAnswer_errCode (v : Word) (r : BusResponse) (s : State) : (keepAnswer v r s).errCode = s.errCode := rfl
@[simp] theorem keepAnswer_cmd (v : Word) (r : BusResponse) (s : State) : (keepAnswer v r s).cmd = s.cmd := rfl
@[simp] theorem keepAnswer_doneIe (v : Word) (r : BusResponse) (s : State) : (keepAnswer v r s).doneIe = s.doneIe := rfl
@[simp] theorem keepAnswer_errInfo (v : Word) (r : BusResponse) (s : State) : (keepAnswer v r s).errInfo = s.errInfo := rfl
@[simp] theorem keepAnswer_inLen (v : Word) (r : BusResponse) (s : State) : (keepAnswer v r s).inLen = s.inLen := rfl
@[simp] theorem keepAnswer_outLen (v : Word) (r : BusResponse) (s : State) : (keepAnswer v r s).outLen = s.outLen := rfl
@[simp] theorem keepAnswer_initSize (v : Word) (r : BusResponse) (s : State) : (keepAnswer v r s).initSize = s.initSize := rfl
@[simp] theorem keepAnswer_compSize (v : Word) (r : BusResponse) (s : State) : (keepAnswer v r s).compSize = s.compSize := rfl
@[simp] theorem keepAnswer_dataBits (v : Word) (r : BusResponse) (s : State) : (keepAnswer v r s).dataBits = s.dataBits := rfl
@[simp] theorem keepAnswer_tblLen (v : Word) (r : BusResponse) (s : State) : (keepAnswer v r s).tblLen = s.tblLen := rfl
@[simp] theorem keepAnswer_countLo (v : Word) (r : BusResponse) (s : State) : (keepAnswer v r s).countLo = s.countLo := rfl
@[simp] theorem keepAnswer_countHi (v : Word) (r : BusResponse) (s : State) : (keepAnswer v r s).countHi = s.countHi := rfl
@[simp] theorem keepAnswer_pathLen (v : Word) (r : BusResponse) (s : State) : (keepAnswer v r s).pathLen = s.pathLen := rfl
@[simp] theorem keepAnswer_path (v : Word) (r : BusResponse) (s : State) : (keepAnswer v r s).path = s.path := rfl
@[simp] theorem keepAnswer_result (v : Word) (r : BusResponse) (s : State) : (keepAnswer v r s).result = s.result := rfl
@[simp] theorem keepAnswer_cursor (v : Word) (r : BusResponse) (s : State) : (keepAnswer v r s).cursor = s.cursor := rfl
@[simp] theorem keepAnswer_root (v : Word) (r : BusResponse) (s : State) : (keepAnswer v r s).root = s.root := rfl
@[simp] theorem keepAnswer_symCount (v : Word) (r : BusResponse) (s : State) : (keepAnswer v r s).symCount = s.symCount := rfl
@[simp] theorem keepAnswer_nodes (v : Word) (r : BusResponse) (s : State) : (keepAnswer v r s).nodes = s.nodes := rfl
@[simp] theorem keepAnswer_hist (v : Word) (r : BusResponse) (s : State) : (keepAnswer v r s).hist = s.hist := rfl
@[simp] theorem keepAnswer_code (v : Word) (r : BusResponse) (s : State) : (keepAnswer v r s).code = s.code := rfl
@[simp] theorem keepAnswer_mem (v : Word) (r : BusResponse) (s : State) : (keepAnswer v r s).mem = s.mem := rfl
@[simp] theorem keepAnswer_resetPin (v : Word) (r : BusResponse) (s : State) : (keepAnswer v r s).resetPin = s.resetPin := rfl
@[simp] theorem keepAnswer_delay (v : Word) (r : BusResponse) (s : State) : (keepAnswer v r s).delay = s.delay := rfl
@[simp] theorem keepAnswer_resets (v : Word) (r : BusResponse) (s : State) : (keepAnswer v r s).resets = s.resets := rfl
@[simp] theorem keepAnswer_draws (v : Word) (r : BusResponse) (s : State) : (keepAnswer v r s).draws = s.draws := rfl
@[simp] theorem keepAnswer_host (v : Word) (r : BusResponse) (s : State) : (keepAnswer v r s).host = { s.host with value := v, response := some r } := rfl

end Sys2Proof.Machine
end

