-- ==== Sys2Proof/Laws/Memory.lean ====
section
/-! SUPPORT. The laws of the buffers' memory: the canonical form is kept, a read after a write, and what a write leaves alone. -/

namespace Sys2Proof.Machine

theorem Memory.get?_put (m : Memory) (a : Nat) (v : Byte) (a' : Nat) (h : Memory.wf m) :
    Memory.get? (Memory.put m a v) a' = if a' = a then some v else Memory.get? m a' := by
  induction m with
  | nil => simp only [Memory.put, Memory.get?, eq_comm]
  | cons c m ih =>
    obtain ⟨k, w⟩ := c
    have hm : Memory.wf m := (List.pairwise_cons.1 h).2
    have hk : ∀ c ∈ m, k < c.1 := (List.pairwise_cons.1 h).1
    have habs : ∀ b, b ≤ k → Memory.get? m b = none := by
      clear ih h
      induction m with
      | nil => simp [Memory.get?]
      | cons c m ih =>
        intro b hb
        have h1 := hk c (by simp)
        have : c.1 ≠ b := by omega
        simp only [Memory.get?, this, if_false]
        exact ih (List.pairwise_cons.1 hm).2 (fun d hd => hk d (by simp [hd])) b hb
    simp only [Memory.put]
    split
    · simp only [Memory.get?]
      by_cases e : a' = a
      · simp [e]
      · have : ¬ a = a' := fun h => e h.symm
        simp [e, this]
    · split
      · rename_i hak
        subst hak
        simp only [Memory.get?]
        by_cases e : a' = a
        · simp [e]
        · have : ¬ a = a' := fun h => e h.symm
          simp [e, this]
      · simp only [Memory.get?, ih hm]
        by_cases e : k = a'
        · have : a' ≠ a := by omega
          simp [e, this]
        · simp [e]

theorem Memory.mem_put {m : Memory} {a : Nat} {v : Byte} {c : Host.Cell} (h : c ∈ Memory.put m a v) :
    c = (a, v) ∨ c ∈ m := by
  induction m with
  | nil => simpa [Memory.put] using h
  | cons d m ih =>
    obtain ⟨k, w⟩ := d
    simp only [Memory.put] at h
    split at h
    · simpa using h
    · split at h
      · rcases List.mem_cons.1 h with h | h
        · exact .inl h
        · exact .inr (by simp [h])
      · rcases List.mem_cons.1 h with h | h
        · exact .inr (by simp [h])
        · rcases ih h with h | h
          · exact .inl h
          · exact .inr (by simp [h])

theorem Memory.put_wf {m : Memory} (a : Nat) (v : Byte) (h : Memory.wf m) : Memory.wf (Memory.put m a v) := by
  induction m with
  | nil => simp [Memory.wf, Memory.put]
  | cons d m ih =>
    obtain ⟨k, w⟩ := d
    obtain ⟨hk, hm⟩ := List.pairwise_cons.1 h
    simp only [Memory.put]
    split
    · rename_i hlt
      refine List.pairwise_cons.2 ⟨?_, h⟩
      intro c hc
      rcases List.mem_cons.1 hc with rfl | hc
      · exact hlt
      · exact Nat.lt_trans hlt (hk c hc)
    · split
      · rename_i heq
        subst heq
        exact List.pairwise_cons.2 ⟨hk, hm⟩
      · rename_i h1 h2
        refine List.pairwise_cons.2 ⟨?_, ih hm⟩
        intro c hc
        rcases Memory.mem_put hc with rfl | hc
        · show k < a
          omega
        · exact hk c hc

theorem Memory.putBytes_wf {m : Memory} (a : Nat) (vs : List Byte) (h : Memory.wf m) :
    Memory.wf (Memory.putBytes m a vs) := by
  induction vs generalizing m a with
  | nil => exact h
  | cons v vs ih => exact ih (a + 1) (Memory.put_wf a v h)

theorem Memory.mem_putBytes {m : Memory} {a : Nat} {vs : List Byte} {c : Host.Cell} (h : c ∈ Memory.putBytes m a vs) :
    (a ≤ c.1 ∧ c.1 < a + vs.length) ∨ c ∈ m := by
  induction vs generalizing m a with
  | nil => exact .inr h
  | cons v vs ih =>
    rcases ih h with ⟨h1, h2⟩ | h
    · refine .inl ⟨by omega, ?_⟩
      simp only [List.length_cons]
      omega
    · rcases Memory.mem_put h with rfl | h
      · exact .inl ⟨Nat.le_refl _, by simp⟩
      · exact .inr h

/-- Everything a write of bytes does to what an address holds. -/
theorem Memory.get?_putBytes (m : Memory) (a : Nat) (vs : List Byte) (a' : Nat) (h : Memory.wf m) :
    Memory.get? (Memory.putBytes m a vs) a' =
      if a ≤ a' ∧ a' < a + vs.length then vs[a' - a]? else Memory.get? m a' := by
  induction vs generalizing m a with
  | nil =>
    simp [Memory.putBytes]
  | cons v vs ih =>
    simp only [Memory.putBytes, ih _ _ (Memory.put_wf a v h), Memory.get?_put _ _ _ _ h, List.length_cons]
    by_cases h1 : a' = a
    · subst h1
      simp
    · by_cases h2 : a ≤ a' ∧ a' < a + (vs.length + 1)
      · have h3 : a + 1 ≤ a' ∧ a' < a + 1 + vs.length := by omega
        have h4 : a' - a = (a' - (a + 1)) + 1 := by omega
        rw [if_pos h3, if_pos h2, h4, List.getElem?_cons_succ]
      · have h3 : ¬ (a + 1 ≤ a' ∧ a' < a + 1 + vs.length) := by omega
        rw [if_neg h3, if_neg h1, if_neg h2]

/-- What a buffer byte reads after a write of bytes. -/
theorem readByte_writeBytes (s : State) (a : Nat) (vs : List Byte) (a' : Nat) (h : Memory.wf s.mem) :
    readByte (writeBytes s a vs) a' =
      if a ≤ a' ∧ a' < a + vs.length then (vs[a' - a]?).getD (readByte s a') else readByte s a' := by
  simp only [readByte, writeBytes_mem, writeBytes_resets, Memory.get?_putBytes _ _ _ _ h]
  split
  · rename_i h1
    have : a' - a < vs.length := by omega
    simp [List.getElem?_eq_getElem this]
  · rfl

theorem readByte_writeBytes_outside (s : State) (a : Nat) (vs : List Byte) (a' : Nat) (h : Memory.wf s.mem)
    (ho : a' < a ∨ a + vs.length ≤ a') : readByte (writeBytes s a vs) a' = readByte s a' := by
  rw [readByte_writeBytes s a vs a' h, if_neg (by omega)]

theorem readBytes_writeBytes (s : State) (a : Nat) (vs : List Byte) (h : Memory.wf s.mem) :
    readBytes (writeBytes s a vs) a vs.length = vs := by
  apply List.ext_getElem
  · simp [readBytes]
  · intro i h1 h2
    simp [readBytes, readByte_writeBytes _ _ _ _ h, h2]

@[simp] theorem readBytes_length (s : State) (a n : Nat) : (readBytes s a n).length = n := by
  simp [readBytes]

/-- Reading depends on memory and on the reset draw alone. -/
theorem readByte_congr {s t : State} (hm : t.mem = s.mem) (hr : t.resets = s.resets) (a : Nat) :
    readByte t a = readByte s a := by
  simp [readByte, hm, hr]

end Sys2Proof.Machine
end

