-- ==== Sys2Proof/Laws/Ops.lean ====
section
/-! SUPPORT. What each shared operation can do, said once: effects, entries of HIST and CODE, the node arena, walks and insertion,
bit streams, the path operand and the host port. -/

namespace Sys2Proof.Machine

/-! ## Effects -/

/-- A finished effect goes on exactly where its rule completed or raised an error. -/
theorem Effect.finish_eq_next_iff (e : Effect) (t : State) :
    e.finish = .next t ↔
      (∃ s, e = .completed s ∧ t = complete s) ∨ (∃ c info s, e = .raised c info s ∧ t = raise c info s) := by
  cases e <;> simp [Effect.finish, eq_comm]

@[simp] theorem Effect.finish_completed (s : State) : (Effect.completed s).finish = .next (complete s) := rfl

@[simp] theorem Effect.finish_raised (c : ErrorCode) (info : Word) (s : State) :
    (Effect.raised c info s).finish = .next (raise c info s) := rfl

@[simp] theorem Effect.finish_stuck (f : Fault) : (Effect.stuck f).finish = .fault f := rfl

@[simp] theorem Effect.andThen_completed (s : State) (next : State → Effect) :
    (Effect.completed s).andThen next = next s := rfl

@[simp] theorem Effect.andThen_raised (c : ErrorCode) (info : Word) (s : State) (next : State → Effect) :
    (Effect.raised c info s).andThen next = .raised c info s := rfl

@[simp] theorem Effect.andThen_stuck (f : Fault) (next : State → Effect) :
    (Effect.stuck f).andThen next = .stuck f := rfl

/-- Sub-commands in order complete exactly where each completes. -/
theorem Effect.andThen_eq_completed_iff (e : Effect) (next : State → Effect) (t : State) :
    e.andThen next = .completed t ↔ ∃ s, e = .completed s ∧ next s = .completed t := by
  cases e <;> simp

/-- The error of sub-commands in order is the first one's, or the second's after the first completed. -/
theorem Effect.andThen_eq_raised_iff (e : Effect) (next : State → Effect) (c : ErrorCode) (info : Word) (t : State) :
    e.andThen next = .raised c info t ↔ e = .raised c info t ∨ ∃ s, e = .completed s ∧ next s = .raised c info t := by
  cases e <;> simp

/-! ## Entries of HIST and CODE -/

theorem histAt_histPut (h : Histogram) (b : Byte) (v : BitVec 64) (b' : Byte) :
    histAt (histPut h b v) b' = if b' = b then v else histAt h b' := by
  simp only [histAt, histPut, Vector.getElem_set, BitVec.toNat_inj, eq_comm]

@[simp] theorem histAt_zeroHist (b : Byte) : histAt zeroHist b = 0 := by
  simp [histAt, zeroHist]

theorem codeAt_codePut (t : CodeTable) (b : Byte) (c : BitString) (b' : Byte) :
    codeAt (codePut t b c) b' = if b' = b then some c else codeAt t b' := by
  simp only [codeAt, codePut, Vector.getElem_set, BitVec.toNat_inj, eq_comm]

@[simp] theorem codeAt_emptyCode (b : Byte) : codeAt emptyCode b = none := by
  simp [codeAt, emptyCode]

/-- Two code tables with the same entries are the same. -/
theorem codeTable_ext {t u : CodeTable} (h : ∀ b, codeAt t b = codeAt u b) : t = u := by
  apply Vector.ext
  intro i hi
  have := h (BitVec.ofNat 8 i)
  simpa [codeAt, Nat.mod_eq_of_lt hi] using this

theorem mem_allSymbols (b : Byte) : b ∈ allSymbols := by
  simp only [allSymbols, List.mem_map, List.mem_range]
  exact ⟨b.toNat, b.isLt, by simp⟩

theorem allSymbols_nodup : allSymbols.Nodup := by
  refine List.Nodup.map_on ?_ List.nodup_range
  intro x hx y hy hxy
  have := congrArg BitVec.toNat hxy
  simp only [List.mem_range] at hx hy
  simpa [Nat.mod_eq_of_lt hx, Nat.mod_eq_of_lt hy] using this

/-- The counting loop adds a byte's occurrences to what the table held, modulo the width of a count. -/
theorem histAt_foldl_count (bytes : List Byte) (h : Histogram) (b : Byte) :
    histAt (bytes.foldl (fun h b => histPut h b (histAt h b + 1)) h) b = histAt h b + BitVec.ofNat 64 (bytes.count b) := by
  induction bytes generalizing h with
  | nil => simp
  | cons x bytes ih =>
    simp only [List.foldl_cons, ih, histAt_histPut, List.count_cons]
    by_cases e : b = x
    · subst e
      simp only [if_true, beq_self_eq_true]
      rw [BitVec.add_assoc, Nat.add_comm, BitVec.ofNat_add]
      rfl
    · have : (x == b) = false := by simpa using fun h => e h.symm
      simp [e, this]

/-- A count is the number of occurrences (42_histogram.md R171, R172). -/
theorem histAt_countBytes (bytes : List Byte) (b : Byte) :
    histAt (countBytes bytes) b = BitVec.ofNat 64 (bytes.count b) := by
  rw [countBytes, histAt_foldl_count, histAt_zeroHist]
  exact BitVec.zero_add _

/-! ## The node arena -/

@[simp] theorem emptyNode_payload : emptyNode.payload = none := rfl
@[simp] theorem emptyNode_left : emptyNode.left = none := rfl
@[simp] theorem emptyNode_right : emptyNode.right = none := rfl

@[simp] theorem linkChild_length (nodes : List Node) (n : Nat) (bit : Bool) (c : Nat) :
    (linkChild nodes n bit c).length = nodes.length := by
  simp [linkChild]

@[simp] theorem setPayload_length (nodes : List Node) (n : Nat) (v : Byte) : (setPayload nodes n v).length = nodes.length := by
  simp [setPayload]

theorem nodeAt_append_left {nodes : List Node} {n : Nat} (h : n < nodes.length) (x : Node) :
    nodeAt (nodes ++ [x]) n = nodeAt nodes n := by
  simp [nodeAt, List.getD_eq_getElem?_getD, List.getElem?_append_left h]

@[simp] theorem nodeAt_append_new (nodes : List Node) (x : Node) : nodeAt (nodes ++ [x]) nodes.length = x := by
  simp [nodeAt, List.getD_eq_getElem?_getD]

theorem nodeAt_modify {nodes : List Node} {m : Nat} (h : m < nodes.length) (n : Nat) (f : Node → Node) :
    nodeAt (nodes.modify n f) m = if m = n then f (nodeAt nodes m) else nodeAt nodes m := by
  simp only [nodeAt, List.getD_eq_getElem?_getD, List.getElem?_modify, List.getElem?_eq_getElem h]
  by_cases e : n = m
  · subst e; simp
  · have e' : ¬ m = n := fun h => e h.symm
    simp [e, e']

theorem child_setPayload (nodes : List Node) (n : Nat) (v : Byte) (m : Nat) (bit : Bool) :
    child (setPayload nodes n v) m bit = child nodes m bit := by
  by_cases h : m < nodes.length
  · simp only [child, setPayload, nodeAt_modify h]
    split <;> split <;> rfl
  · have h1 : nodes.length ≤ m := Nat.le_of_not_lt h
    simp [child, nodeAt, List.getD_eq_getElem?_getD, h1]

theorem payload_setPayload {nodes : List Node} {m : Nat} (h : m < nodes.length) (n : Nat) (v : Byte) :
    (nodeAt (setPayload nodes n v) m).payload = if m = n then some v else (nodeAt nodes m).payload := by
  simp only [setPayload, nodeAt_modify h]
  split <;> rfl

/-- The arena after `alloc` and the link to the new node (41_tree.md R143, R145). -/
theorem child_link {nodes : List Node} {m : Nat} (h : m < nodes.length) (n : Nat) (bit b : Bool) :
    child (linkChild (nodes ++ [emptyNode]) n bit nodes.length) m b =
      if m = n ∧ b = bit then some nodes.length else child nodes m b := by
  have h' : m < (nodes ++ [emptyNode]).length := by simp; omega
  simp only [child, linkChild, nodeAt_modify h', nodeAt_append_left h]
  by_cases e : m = n <;> cases b <;> cases bit <;> simp [e]

theorem child_link_new {nodes : List Node} {n : Nat} (h : n < nodes.length) (bit b : Bool) :
    child (linkChild (nodes ++ [emptyNode]) n bit nodes.length) nodes.length b = none := by
  have h' : nodes.length < (nodes ++ [emptyNode]).length := by simp
  have : nodes.length ≠ n := by omega
  cases b <;> simp [child, linkChild, nodeAt_modify h', this]

theorem payload_link {nodes : List Node} {m : Nat} (h : m < nodes.length) (n : Nat) (bit : Bool) :
    (nodeAt (linkChild (nodes ++ [emptyNode]) n bit nodes.length) m).payload = (nodeAt nodes m).payload := by
  have h' : m < (nodes ++ [emptyNode]).length := by simp; omega
  simp only [linkChild, nodeAt_modify h', nodeAt_append_left h]
  split
  · split <;> rfl
  · rfl

theorem payload_link_new {nodes : List Node} {n : Nat} (h : n < nodes.length) (bit : Bool) :
    (nodeAt (linkChild (nodes ++ [emptyNode]) n bit nodes.length) nodes.length).payload = none := by
  have h' : nodes.length < (nodes ++ [emptyNode]).length := by simp
  have : nodes.length ≠ n := by omega
  simp [linkChild, nodeAt_modify h', this]

/-! ## Walks (41_tree.md R142) -/

theorem walk_eq_walkRoot (s : State) (p : BitString) : walk s p = walkRoot s.nodes s.root p := by
  simp only [walk, walkRoot]
  cases s.root <;> rfl

theorem walkFrom_append (nodes : List Node) (n : Nat) (p q : BitString) :
    walkFrom nodes n (p ++ q) = (walkFrom nodes n p).bind (fun m => walkFrom nodes m q) := by
  induction p generalizing n with
  | nil => rfl
  | cons b p ih =>
    simp only [List.cons_append, walkFrom]
    cases child nodes n b with
    | none => rfl
    | some c => exact ih c

theorem walkRoot_append (nodes : List Node) (root : Option Nat) (p q : BitString) :
    walkRoot nodes root (p ++ q) = (walkRoot nodes root p).bind (fun m => walkFrom nodes m q) := by
  cases root with
  | none => rfl
  | some r => exact walkFrom_append nodes r p q

/-- One more step of a walk. -/
theorem walkRoot_concat (nodes : List Node) (root : Option Nat) (p : BitString) (b : Bool) :
    walkRoot nodes root (p ++ [b]) = (walkRoot nodes root p).bind (fun m => child nodes m b) := by
  rw [walkRoot_append]
  cases walkRoot nodes root p with
  | none => rfl
  | some m => simp only [Option.bind_some, walkFrom]; cases child nodes m b <;> rfl

@[simp] theorem walkRoot_nil (nodes : List Node) (root : Option Nat) : walkRoot nodes root [] = root := by
  cases root <;> rfl

/-- Every node on the way of a walk exists. -/
theorem walkRoot_prefix {nodes : List Node} {root : Option Nat} {p q : BitString} {n : Nat}
    (h : walkRoot nodes root (p ++ q) = some n) : ∃ m, walkRoot nodes root p = some m ∧ walkFrom nodes m q = some n := by
  rw [walkRoot_append, Option.bind_eq_some_iff] at h
  exact h

/-- Walks see the children alone. -/
theorem walkRoot_congr {nodes nodes' : List Node} (h : ∀ m b, child nodes' m b = child nodes m b) (root : Option Nat)
    (p : BitString) : walkRoot nodes' root p = walkRoot nodes root p := by
  induction p using List.reverseRecOn with
  | nil => simp
  | append_singleton p b ih => simp only [walkRoot_concat, ih, h]

theorem walkRoot_setPayload (nodes : List Node) (n : Nat) (v : Byte) (root : Option Nat) (p : BitString) :
    walkRoot (setPayload nodes n v) root p = walkRoot nodes root p :=
  walkRoot_congr (child_setPayload nodes n v) root p

/-- In a tree a walk leads to an existing node. -/
theorem TreeOk.walk_lt {nodes : List Node} {root : Option Nat} (h : TreeOk nodes root) {p : BitString} {n : Nat}
    (hp : walkRoot nodes root p = some n) : n < nodes.length := by
  induction p using List.reverseRecOn generalizing n with
  | nil => exact h.rootExists n (by simpa using hp)
  | append_singleton p b ih =>
    rw [walkRoot_concat, Option.bind_eq_some_iff] at hp
    obtain ⟨m, hm, hc⟩ := hp
    exact h.childExists m (ih hm) b n hc

/-- In a tree two paths to one node are the same. -/
theorem TreeOk.path_unique {nodes : List Node} {root : Option Nat} (h : TreeOk nodes root) {p q : BitString} {n : Nat}
    (hp : walkRoot nodes root p = some n) (hq : walkRoot nodes root q = some n) : p = q := by
  obtain ⟨r, -, hu⟩ := h.onOnePath n (h.walk_lt hp)
  rw [hu p hp, hu q hq]

/-! ## Insertion (41_tree.md R143, R145) -/

/-- What linking a new node below the end of path `q` does to every walk. -/
theorem walkRoot_link {nodes : List Node} {root : Option Nat} (h : TreeOk nodes root) {q : BitString} {n : Nat} {bit : Bool}
    (hq : walkRoot nodes root q = some n) (hc : child nodes n bit = none) (p : BitString) :
    walkRoot (linkChild (nodes ++ [emptyNode]) n bit nodes.length) root p =
      if p = q ++ [bit] then some nodes.length else walkRoot nodes root p := by
  induction p using List.reverseRecOn with
  | nil => simp
  | append_singleton p b ih =>
    rw [walkRoot_concat, ih, walkRoot_concat]
    by_cases e : p = q ++ [bit]
    · subst e
      have h2 : ¬ q ++ [bit] ++ [b] = q ++ [bit] := by simp
      rw [if_pos rfl, if_neg h2, walkRoot_concat, hq]
      simp [hc, child_link_new (h.walk_lt hq)]
    · rw [if_neg e]
      cases hp : walkRoot nodes root p with
      | none =>
        have : ¬ p ++ [b] = q ++ [bit] := by
          intro h2
          have := (List.append_inj' h2 rfl).1
          subst this
          simp [hp] at hq
        simp [this]
      | some m =>
        simp only [Option.bind_some, child_link (h.walk_lt hp)]
        by_cases e2 : p = q
        · subst e2
          have : m = n := by simpa [hp] using hq
          subst this
          by_cases e3 : b = bit
          · subst e3; simp
          · simp [e3]
        · have h3 : m ≠ n := fun hmn => e2 (h.path_unique hp (hmn ▸ hq))
          have h4 : ¬ p ++ [b] = q ++ [bit] := fun h2 => e2 (List.append_inj' h2 rfl).1
          simp [h3, h4]

/-- A tree with a new node linked below one of its nodes is a tree. -/
theorem TreeOk.link {nodes : List Node} {root : Option Nat} (h : TreeOk nodes root) {q : BitString} {n : Nat} {bit : Bool}
    (hq : walkRoot nodes root q = some n) (hc : child nodes n bit = none) (hl : q.length < Config.maxCodeLen) :
    TreeOk (linkChild (nodes ++ [emptyNode]) n bit nodes.length) root := by
  have hn := h.walk_lt hq
  refine ⟨?_, ?_, ?_, ?_, ?_⟩
  · intro hr
    have := h.emptyWithoutRoot hr
    simp [this] at hn
  · intro r hr
    have := h.rootExists r hr
    simp only [linkChild_length, List.length_append, List.length_singleton]
    omega
  · intro m hm b c hmc
    simp only [linkChild_length, List.length_append, List.length_singleton] at hm ⊢
    by_cases e : m < nodes.length
    · rw [child_link e] at hmc
      split at hmc
      · simp only [Option.some.injEq] at hmc
        omega
      · have := h.childExists m e b c hmc
        omega
    · have : m = nodes.length := by omega
      subst this
      simp [child_link_new hn] at hmc
  · intro m hm
    simp only [linkChild_length, List.length_append, List.length_singleton] at hm
    by_cases e : m < nodes.length
    · obtain ⟨p, hp, hu⟩ := h.onOnePath m e
      refine ⟨p, ?_, ?_⟩
      · rw [walkRoot_link h hq hc, if_neg, hp]
        intro h2
        subst h2
        rw [walkRoot_concat, hq] at hp
        simp [hc] at hp
      · intro p' hp'
        rw [walkRoot_link h hq hc] at hp'
        split at hp'
        · simp only [Option.some.injEq] at hp'
          omega
        · exact hu p' hp'
    · have : m = nodes.length := by omega
      subst this
      refine ⟨q ++ [bit], by rw [walkRoot_link h hq hc, if_pos rfl], ?_⟩
      intro p' hp'
      rw [walkRoot_link h hq hc] at hp'
      split at hp'
      · assumption
      · have := h.walk_lt hp'
        omega
  · intro p m hp
    rw [walkRoot_link h hq hc] at hp
    split at hp
    · rename_i e
      subst e
      simp only [List.length_append, List.length_singleton]
      omega
    · exact h.pathBounded p m hp

/-- A tree stays a tree where a payload is set. -/
theorem TreeOk.setPayload {nodes : List Node} {root : Option Nat} (h : TreeOk nodes root) (n : Nat) (v : Byte) :
    TreeOk (setPayload nodes n v) root := by
  refine ⟨?_, ?_, ?_, ?_, ?_⟩
  · intro hr
    simp [h.emptyWithoutRoot hr, Machine.setPayload]
  · simpa using h.rootExists
  · simpa [child_setPayload] using h.childExists
  · simpa [walkRoot_setPayload] using h.onOnePath
  · simpa [walkRoot_setPayload] using h.pathBounded

/-- Everything the insertion loop does to the arena, from the node at the end of path `q`: it is a tree again; with an end node
every prefix of the path exists and the walk leads there; no more nodes than NODE_CAP; walks that were there stay, new walks are
prefixes of the path; old payloads stay, new nodes carry none. -/
theorem insertPath_spec {cap : Nat} {root : Option Nat} (p : BitString) :
    ∀ {nodes : List Node} {q : BitString} {n : Nat}, TreeOk nodes root → walkRoot nodes root q = some n →
      (q ++ p).length ≤ Config.maxCodeLen → nodes.length ≤ cap →
      let r := insertPath cap nodes n p
      TreeOk r.1 root ∧ nodes.length ≤ r.1.length ∧ r.1.length ≤ cap ∧
        (∀ e, r.2 = some e → walkRoot r.1 root (q ++ p) = some e) ∧
        (r.2 = none → r.1.length = cap ∧ walkRoot r.1 root (q ++ p) = none) ∧
        (∀ q' m, walkRoot nodes root q' = some m → walkRoot r.1 root q' = some m) ∧
        (∀ q' m, walkRoot r.1 root q' = some m → walkRoot nodes root q' = none →
          q' <+: q ++ p ∧ nodes.length ≤ m ∧ (nodeAt r.1 m).payload = none) ∧
        (∀ m, m < nodes.length → (nodeAt r.1 m).payload = (nodeAt nodes m).payload) := by
  induction p with
  | nil =>
    intro nodes q n h hq hl hcap
    simp only [insertPath, List.append_nil]
    refine ⟨h, Nat.le_refl _, hcap, by simp [hq], by simp, fun _ _ h => h, ?_, fun _ _ => trivial⟩
    intro q' m h1 h2
    simp [h1] at h2
  | cons bit p ih =>
    intro nodes q n h hq hl hcap
    have hqp : q ++ bit :: p = (q ++ [bit]) ++ p := by simp
    simp only [insertPath]
    cases hc : child nodes n bit with
    | some c =>
      simp only []
      have h1 : walkRoot nodes root (q ++ [bit]) = some c := by rw [walkRoot_concat, hq]; exact hc
      rw [hqp] at hl ⊢
      exact ih h h1 hl hcap
    | none =>
      simp only []
      by_cases e : nodes.length = cap
      · rw [if_pos e]
        refine ⟨h, Nat.le_refl _, hcap, by simp, ?_, fun _ _ h => h, ?_, fun _ _ => rfl⟩
        · intro _
          refine ⟨e, ?_⟩
          rw [hqp, walkRoot_append, walkRoot_concat, hq]
          simp [hc]
        · intro q' m h1 h2
          simp [h1] at h2
      · rw [if_neg e]
        have hlq : q.length < Config.maxCodeLen := by
          simp only [List.length_append, List.length_cons] at hl
          omega
        have h1 := h.link hq hc hlq
        have h2 : walkRoot (linkChild (nodes ++ [emptyNode]) n bit nodes.length) root (q ++ [bit]) = some nodes.length := by
          rw [walkRoot_link h hq hc, if_pos rfl]
        rw [hqp] at hl ⊢
        have h3 := ih h1 h2 hl (by simp; omega)
        obtain ⟨a1, a2, a3, a4, a5, a6, a7, a8⟩ := h3
        simp only [linkChild_length, List.length_append, List.length_singleton] at a2 a7 a8
        refine ⟨a1, by omega, a3, a4, a5, ?_, ?_, ?_⟩
        · intro q' m hm
          refine a6 q' m ?_
          rw [walkRoot_link h hq hc, if_neg, hm]
          intro h5
          subst h5
          rw [walkRoot_concat, hq] at hm
          simp [hc] at hm
        · intro q' m hm hold
          by_cases e2 : q' = q ++ [bit]
          · subst e2
            have h6 := a6 _ _ h2
            rw [hm] at h6
            simp only [Option.some.injEq] at h6
            subst h6
            refine ⟨⟨p, rfl⟩, Nat.le_refl _, ?_⟩
            rw [a8 nodes.length (by omega), payload_link_new (h.walk_lt hq)]
          · obtain ⟨b1, b2, b3⟩ := a7 q' m hm (by rw [walkRoot_link h hq hc, if_neg e2, hold])
            exact ⟨b1, by omega, b3⟩
        · intro m hm
          rw [a8 m (by omega), payload_link hm]

/-- Linking a new node keeps the weights that were there (41_tree.md R143). -/
theorem weight_link {nodes : List Node} {m : Nat} (h : m < nodes.length) (n : Nat) (bit : Bool) :
    (nodeAt (linkChild (nodes ++ [emptyNode]) n bit nodes.length) m).weight = (nodeAt nodes m).weight := by
  rw [linkChild, nodeAt_modify (by simp; omega), nodeAt_append_left h]
  split <;> (try split) <;> rfl

/-- A new node's weight is 0 (41_tree.md R143). -/
theorem weight_link_new {nodes : List Node} {n : Nat} (h : n < nodes.length) (bit : Bool) :
    (nodeAt (linkChild (nodes ++ [emptyNode]) n bit nodes.length) nodes.length).weight = 0 := by
  rw [linkChild, nodeAt_modify (by simp), nodeAt_append_new, if_neg (by omega)]
  rfl

/-- Counting over a range where one number counts for one predicate alone. -/
theorem countP_range_extra {c L : Nat} (hc : c < L) (P Q : Nat → Bool) (hP : P c = false) (hQ : Q c = true)
    (h : ∀ k, k < L → k ≠ c → P k = Q k) : (List.range L).countP Q = (List.range L).countP P + 1 := by
  induction L with
  | zero => omega
  | succ L ih =>
    simp only [List.range_succ, List.countP_append, List.countP_singleton]
    by_cases e : c = L
    · subst e
      have : (List.range c).countP Q = (List.range c).countP P := List.countP_congr fun k hk => by
        have := List.mem_range.1 hk
        rw [h k (by omega) (by omega)]
      simp [hP, hQ, this]
    · rw [ih (by omega) (fun k hk hne => h k (by omega) hne), h L (by omega) (Ne.symm e)]
      omega

/-- The indices and weights of what the insertion loop makes (41_tree.md R143, R145): a node made for a prefix of the path gets
NODE_COUNT plus the number of shorter prefixes that were missing, and weight 0; the weights that were there stay. -/
theorem insertPath_numbering {cap : Nat} {root : Option Nat} (p : BitString) :
    ∀ {nodes : List Node} {q : BitString} {n : Nat}, TreeOk nodes root → walkRoot nodes root q = some n →
      (q ++ p).length ≤ Config.maxCodeLen → nodes.length ≤ cap →
      let r := insertPath cap nodes n p
      (∀ q' m, walkRoot r.1 root q' = some m → walkRoot nodes root q' = none →
        m = nodes.length + (List.range q'.length).countP (fun k => walkRoot nodes root ((q ++ p).take k) = none) ∧
          (nodeAt r.1 m).weight = 0) ∧
        ∀ m, m < nodes.length → (nodeAt r.1 m).weight = (nodeAt nodes m).weight := by
  induction p with
  | nil =>
    intro nodes q n h hq hl hcap
    refine ⟨fun q' m h1 h2 => ?_, fun _ _ => rfl⟩
    simp only [insertPath] at h1
    simp [h1] at h2
  | cons bit p ih =>
    intro nodes q n h hq hl hcap
    have hqp : q ++ bit :: p = (q ++ [bit]) ++ p := by simp
    simp only [insertPath]
    cases hc : child nodes n bit with
    | some c =>
      simp only []
      have h1 : walkRoot nodes root (q ++ [bit]) = some c := by rw [walkRoot_concat, hq]; exact hc
      rw [hqp] at hl ⊢
      exact ih h h1 hl hcap
    | none =>
      simp only []
      by_cases e : nodes.length = cap
      · rw [if_pos e]
        refine ⟨fun q' m h1 h2 => ?_, fun _ _ => rfl⟩
        simp [h1] at h2
      · rw [if_neg e]
        have hlq : q.length < Config.maxCodeLen := by
          simp only [List.length_append, List.length_cons] at hl
          omega
        have hnew : walkRoot nodes root (q ++ [bit]) = none := by rw [walkRoot_concat, hq]; exact hc
        have h2 : walkRoot (linkChild (nodes ++ [emptyNode]) n bit nodes.length) root (q ++ [bit]) = some nodes.length := by
          rw [walkRoot_link h hq hc, if_pos rfl]
        rw [hqp] at hl ⊢
        have hok := h.link hq hc hlq
        have hlen : (linkChild (nodes ++ [emptyNode]) n bit nodes.length).length = nodes.length + 1 := by simp
        obtain ⟨a1, a2⟩ := ih hok h2 hl (by omega)
        obtain ⟨-, -, -, -, -, b6, b7, -⟩ := insertPath_spec p hok h2 hl (cap := cap) (by omega)
        refine ⟨fun q' m hm hold => ?_, fun m hm => by rw [a2 m (by omega), weight_link hm]⟩
        by_cases e2 : q' = q ++ [bit]
        · subst e2
          have h6 := b6 _ _ h2
          rw [hm, Option.some.injEq] at h6
          subst h6
          refine ⟨?_, by rw [a2 _ (by omega), weight_link_new (h.walk_lt hq)]⟩
          have hz : (List.range (q ++ [bit]).length).countP
              (fun k => decide (walkRoot nodes root ((q ++ [bit] ++ p).take k) = none)) = 0 := by
            rw [List.countP_eq_zero]
            intro k hk
            simp only [List.length_append, List.length_singleton, List.mem_range] at hk
            obtain ⟨x, hx, -⟩ := walkRoot_prefix (p := q.take k) (q := q.drop k) (by rw [List.take_append_drop]; exact hq)
            rw [List.append_assoc, List.take_append_of_le_length (by omega)]
            simp [hx]
          omega
        · have hold' : walkRoot (linkChild (nodes ++ [emptyNode]) n bit nodes.length) root q' = none := by
            rw [walkRoot_link h hq hc, if_neg e2, hold]
          obtain ⟨c1, c2⟩ := a1 q' m hm hold'
          refine ⟨?_, c2⟩
          have hpre := (b7 q' m hm hold').1
          have hlong : q.length + 1 < q'.length := by
            by_contra hs
            have h3 : q' <+: q ++ [bit] := List.prefix_of_prefix_length_le hpre (List.prefix_append _ _) (by simp; omega)
            obtain ⟨tail, ht⟩ := h3
            obtain ⟨x, hx, -⟩ := walkRoot_prefix (p := q') (q := tail) (by rw [ht]; exact h2)
            rw [hx] at hold'
            simp at hold'
          have hmax := hpre.length_le
          have htake : ∀ k, k < q'.length → ((q ++ [bit] ++ p).take k = q ++ [bit] ↔ k = q.length + 1) := by
            intro k hk
            constructor
            · intro h5
              have := congrArg List.length h5
              simp only [List.length_take, List.length_append, List.length_singleton] at this hmax
              omega
            · rintro rfl
              exact List.take_left' (by simp)
          have hcount := countP_range_extra hlong
            (fun k => decide (walkRoot (linkChild (nodes ++ [emptyNode]) n bit nodes.length) root
              ((q ++ [bit] ++ p).take k) = none))
            (fun k => decide (walkRoot nodes root ((q ++ [bit] ++ p).take k) = none))
            (by simp only [(htake _ hlong).2 rfl, h2]; rfl) (by simp only [(htake _ hlong).2 rfl, hnew]; rfl)
            (fun k hk hne => by simp only [walkRoot_link h hq hc, if_neg (fun h5 => hne ((htake k hk).1 h5))])
          omega

/-- A fresh tree is a tree (41_tree.md R144). -/
theorem treeOk_single (x : Node) (hl : x.left = none) (hr : x.right = none) : TreeOk [x] (some 0) := by
  have hc : ∀ b, child [x] 0 b = none := by
    intro b
    cases b <;> simp [child, nodeAt, hl, hr]
  have hw : ∀ p n, walkRoot [x] (some 0) p = some n → p = [] ∧ n = 0 := by
    intro p n h
    cases p with
    | nil => simpa [eq_comm] using h
    | cons b p => simp [walkRoot, walkFrom, hc] at h
  refine ⟨by simp, by simp, ?_, ?_, ?_⟩
  · intro n hn b c h
    have : n = 0 := by simpa using hn
    subst this
    simp [hc] at h
  · intro n hn
    have : n = 0 := by simpa using hn
    subst this
    exact ⟨[], by simp, fun q hq => (hw q 0 hq).1⟩
  · intro p n h
    simp [(hw p n h).1]

theorem treeOk_empty : TreeOk [] none := by
  refine ⟨by simp, by simp, by simp, by simp, ?_⟩
  intro p n h
  simp [walkRoot] at h

theorem treeOk_clearTree (s : State) : TreeOk (clearTree s).nodes (clearTree s).root :=
  treeOk_single emptyNode rfl rfl

/-! ## Bit streams (20_memory.md R61, 45_bit_packer.md R247) -/

@[simp] theorem byteBits_length (b : Byte) : (byteBits b).length = 8 := rfl

@[simp] theorem streamBits_length (bytes : List Byte) : (streamBits bytes).length = 8 * bytes.length := by
  induction bytes with
  | nil => rfl
  | cons b bytes ih =>
    simp only [streamBits, List.flatMap_cons, List.length_append, byteBits_length, List.length_cons] at ih ⊢
    omega

/-- The bits of the byte made of eight bits. -/
theorem byteBits_ofBits (b7 b6 b5 b4 b3 b2 b1 b0 : Bool) :
    byteBits (BitVec.ofNat 8 (natOfBits [b0, b1, b2, b3, b4, b5, b6, b7])) = [b7, b6, b5, b4, b3, b2, b1, b0] := by
  revert b7 b6 b5 b4 b3 b2 b1 b0
  decide

/-- Cutting a whole number of bytes loses nothing. -/
theorem streamBits_packBits (k : Nat) (bits : BitString) (h : bits.length = 8 * k) :
    streamBits (packBits bits) = bits ∧ (packBits bits).length = k := by
  induction k generalizing bits with
  | zero =>
    have : bits = [] := List.length_eq_zero_iff.1 (by omega)
    subst this
    exact ⟨rfl, rfl⟩
  | succ k ih =>
    match bits, h with
    | b7 :: b6 :: b5 :: b4 :: b3 :: b2 :: b1 :: b0 :: rest, h =>
      have h2 : rest.length = 8 * k := by
        simp only [List.length_cons] at h
        omega
      obtain ⟨i1, i2⟩ := ih rest h2
      simp only [packBits, streamBits, List.flatMap_cons, byteBits_ofBits, List.length_cons, i2]
      refine ⟨?_, trivial⟩
      simp only [streamBits] at i1
      simp [i1]

theorem paddedBits_length (bits : BitString) : (paddedBits bits).length = 8 * (bits.length / 8 + 1) := by
  simp only [paddedBits, padLength, List.length_append, List.length_cons, List.length_replicate]
  omega

theorem length_packBits_paddedBits (bits : BitString) : (packBits (paddedBits bits)).length = bits.length / 8 + 1 :=
  (streamBits_packBits _ _ (paddedBits_length bits)).2

theorem streamBits_packBits_paddedBits (bits : BitString) : streamBits (packBits (paddedBits bits)) = paddedBits bits :=
  (streamBits_packBits _ _ (paddedBits_length bits)).1

theorem length_inputBytes (s : State) : (inputBytes s).length = s.inLen.toNat := by
  simp [inputBytes]

theorem length_tableBytes (s : State) : (tableBytes s).length = s.tblLen.toNat := by
  simp [tableBytes]

/-! ## The path operand (10_state.md R35, 44_code_table.md R216) -/

@[simp] theorem length_pathOperand (s : State) : (pathOperand s).length = s.pathLen.toNat := by
  simp [pathOperand]

theorem length_pathOperand_le (s : State) : (pathOperand s).length ≤ Config.maxCodeLen := by
  have := s.pathLen.isLt
  simp only [length_pathOperand, Config.maxCodeLen]
  omega

theorem testBit_natOfBits (c : BitString) (i : Nat) : (natOfBits c).testBit i = c.getD i false := by
  induction c generalizing i with
  | nil => simp [natOfBits]
  | cons b c ih =>
    cases i with
    | zero =>
      simp only [natOfBits, Nat.testBit_zero, List.getD_cons_zero]
      cases b <;> simp
    | succ i =>
      simp only [natOfBits, Nat.testBit_succ, List.getD_cons_succ, ← ih]
      congr 1
      cases b
      · simp
      · simp only [Bool.toNat_true]
        omega

/-- Bit `j` of PATHk is path bit `32 k + j`. -/
theorem getLsbD_pathWord (c : BitString) (k j : Nat) (hj : j < 32) : (pathWord c k).getLsbD j = c.getD (32 * k + j) false := by
  simp only [pathWord, BitVec.getLsbD_ofNat, hj, decide_true, Bool.true_and, testBit_natOfBits]
  simp only [List.getD_eq_getElem?_getD, List.getElem?_take, List.getElem?_drop, hj, if_true]

/-- The path registers hold a code first bit first. -/
theorem pathBit_pathWords (s : State) (c : BitString) (h : s.path = pathWords c) (i : Nat) (hi : i < 256) :
    pathBit s i = c.getD i false := by
  have h1 : i / 32 < 8 := by omega
  have h2 : s.path[i / 32]?.getD 0 = pathWord c (i / 32) := by
    rw [h]
    generalize i / 32 = k at h1
    match k, h1 with
    | 0, _ | 1, _ | 2, _ | 3, _ | 4, _ | 5, _ | 6, _ | 7, _ => rfl
  rw [pathBit, h2, getLsbD_pathWord _ _ _ (Nat.mod_lt _ (by decide))]
  congr 1
  omega

/-! ## The unpacking loop (47_bit_unpacker.md R280) -/

/-- The loop keeps the bytes it had and never holds more than OBUF does. -/
theorem unpackBits_out {cap : Nat} {nodes : List Node} {root : Option Nat} {deg : Option Byte} (bits : BitString) :
    ∀ {i : Nat} {out : List Byte} {cur : Option Nat}, out.length ≤ cap →
      out <+: (unpackBits cap nodes root deg i out cur bits).out ∧
        (unpackBits cap nodes root deg i out cur bits).out.length ≤ cap := by
  induction bits with
  | nil => intro i out cur h; exact ⟨List.prefix_refl _, h⟩
  | cons bit rest ih =>
    intro i out cur h
    simp only [unpackBits]
    have key : ∀ v : Byte, out.length ≠ cap → ∀ {cur' : Option Nat},
        out <+: (unpackBits cap nodes root deg (i + 1) (out ++ [v]) cur' rest).out ∧
          (unpackBits cap nodes root deg (i + 1) (out ++ [v]) cur' rest).out.length ≤ cap := by
      intro v hne cur'
      have := ih (i := i + 1) (out := out ++ [v]) (cur := cur') (by simp; omega)
      exact ⟨(List.prefix_append out [v]).trans this.1, this.2⟩
    split
    · split
      · exact ⟨List.prefix_refl _, h⟩
      · split
        · exact ⟨List.prefix_refl _, h⟩
        · exact key _ (by assumption)
    · split
      · exact ⟨List.prefix_refl _, h⟩
      · split
        · exact ih h
        · split
          · exact ⟨List.prefix_refl _, h⟩
          · exact key _ (by assumption)

/-- The loop ends without an error only at the root. -/
theorem unpackBits_cur {cap : Nat} {nodes : List Node} {root : Option Nat} {deg : Option Byte} (bits : BitString) :
    ∀ {i : Nat} {out : List Byte} {cur : Option Nat},
      (unpackBits cap nodes root deg i out cur bits).error = none →
        (unpackBits cap nodes root deg i out cur bits).cur = root := by
  induction bits with
  | nil =>
    intro i out cur h
    simp only [unpackBits] at h ⊢
    by_cases e : cur = root
    · exact e
    · simp [e] at h
  | cons bit rest ih =>
    intro i out cur h
    simp only [unpackBits] at h ⊢
    split at h
    · split at h
      · simp at h
      · split at h
        · simp at h
        · rw [if_neg (by assumption), if_neg (by assumption)]
          exact ih h
    · split at h
      · simp at h
      · split at h
        · exact ih h
        · split at h
          · simp at h
          · rw [if_neg (by assumption)]
            exact ih h

/-- On a degenerate tree a run of 0 bits that OBUF has room for gives as many copies of the root's payload. -/
theorem unpackBits_degenerate_zeros {cap : Nat} {nodes : List Node} {root cur : Option Nat} {v : Byte} (rest : BitString)
    (k : Nat) : ∀ {i : Nat} {out : List Byte}, out.length + k ≤ cap →
      unpackBits cap nodes root (some v) i out cur (List.replicate k false ++ rest) =
        unpackBits cap nodes root (some v) (i + k) (out ++ List.replicate k v) cur rest := by
  induction k with
  | zero => intro i out _; simp
  | succ k ih =>
    intro i out h
    rw [List.replicate_succ, List.cons_append, unpackBits]
    simp only [Bool.false_eq_true, if_false]
    rw [if_neg (by omega), ih (by simp only [List.length_append, List.length_singleton]; omega), List.replicate_succ]
    simp only [List.append_assoc, List.singleton_append, Nat.add_assoc, Nat.add_comm 1]

/-- A sub-cause and its position as one number (60_exceptions.md R302). -/
theorem causeInfo_eq_or (cause : BitVec 4) (position : Nat) (h : position < 2 ^ 28) :
    causeInfo cause position = BitVec.ofNat 32 (cause.toNat * 2 ^ 28) ||| BitVec.ofNat 32 position := by
  apply BitVec.eq_of_toNat_eq
  have : cause.toNat < 16 := cause.isLt
  simp only [causeInfo, BitVec.toNat_append, BitVec.toNat_or, BitVec.toNat_ofNat]
  rw [Nat.mod_eq_of_lt h, Nat.shiftLeft_eq, Nat.mod_eq_of_lt (a := position) (by omega), Nat.mod_eq_of_lt (by omega)]

/-! ## The host port (20_memory.md R65 to R73) -/

/-- A read changes nothing, or draws one free value. -/
theorem hostRead_state (a : Word) (n : Nat) (s : State) :
    (hostRead a n s).1 = s ∨ (hostRead a n s).1 = { s with draws := s.draws + 1 } := by
  simp only [hostRead]
  split
  · exact .inl rfl
  · split
    · exact .inl rfl
    · split
      · exact .inr rfl
      · exact .inl rfl

/-- A write changes nothing, or is dropped with REJECT while BUSY, or acts on the place its address names. -/
theorem hostWrite_state (a : Word) (n : Nat) (v : Word) (s : State) :
    (hostWrite a n v s).1 = s ∨
      (s.phase = .busy ∧ (hostWrite a n v s).1 = { s with reject := true }) ∨
      (∃ p, s.resetPin = false ∧ placeOf s.caps a n = some p ∧ (s.phase = .idle ∨ p = .register .status) ∧
        (hostWrite a n v s).1 = writePlace p n v s) := by
  simp only [hostWrite]
  split
  · exact .inl rfl
  · rename_i h1
    split
    · exact .inl rfl
    · rename_i p h2
      split
      · rename_i h3
        simp only [Bool.and_eq_true, busyFlag, beq_iff_eq] at h3
        exact .inr (.inl ⟨h3.1, rfl⟩)
      · rename_i h3
        refine .inr (.inr ⟨p, by simpa using h1, h2, ?_, rfl⟩)
        cases hp : s.phase with
        | idle => exact .inl rfl
        | busy => exact .inr (by simpa [busyFlag, hp] using h3)

/-- A read leaves the host as it was. -/
@[simp] theorem hostRead_host (a : Word) (n : Nat) (s : State) : (hostRead a n s).1.host = s.host := by
  rcases hostRead_state a n s with h | h <;> rw [h]

/-- A write takes a pinned delay at most from the host. -/
theorem hostWrite_host (a : Word) (n : Nat) (v : Word) (s : State) :
    (hostWrite a n v s).1.host = { s.host with pinned := (hostWrite a n v s).1.host.pinned } := by
  rcases hostWrite_state a n v s with h | ⟨-, h⟩ | ⟨p, -, -, -, h⟩ <;> rw [h]
  cases p with
  | buffer b => rfl
  | register r =>
    cases r with
    | cmd => simp only [writePlace, writeReg, armEngine]; split <;> rfl
    | _ => rfl

/-- A buffer place lies wholly in one of the three windows. -/
theorem placeOf_buffer {c : Caps} {a : Word} {n b : Nat} (h : placeOf c a n = some (.buffer b)) :
    b = a.toNat ∧ (n = 1 ∨ n = 4) ∧ inBuffers c b n = true := by
  simp only [placeOf] at h
  split at h
  · rename_i h4
    split at h
    · simp at h
    · split at h
      · simp at h
      · split at h
        · rename_i hb
          simp only [Option.some.injEq, Place.buffer.injEq] at h
          subst h
          exact ⟨rfl, .inr h4, h4 ▸ hb⟩
        · simp at h
  · split at h
    · rename_i h1
      split at h
      · rename_i hb
        simp only [Option.some.injEq, Place.buffer.injEq] at h
        subst h
        exact ⟨rfl, .inl h1, h1 ▸ hb⟩
      · simp at h
    · simp at h

/-- A register place is an aligned 4-byte access at the register's offset. -/
theorem placeOf_register {c : Caps} {a : Word} {n : Nat} {r : Reg} (h : placeOf c a n = some (.register r)) :
    n = 4 ∧ r.offset = a.toNat := by
  simp only [placeOf] at h
  split at h
  · rename_i h4
    split at h
    · simp at h
    · split at h
      · rename_i r' hr
        simp only [Option.some.injEq, Place.register.injEq] at h
        subst h
        have := List.find?_some hr
        exact ⟨h4, by simpa using this⟩
      · split at h <;> simp at h
  · split at h
    · split at h <;> simp at h
    · simp at h

/-- The three buffer windows, in numbers (20_memory.md R63). -/
theorem inBuffers_iff (c : Caps) (a n : Nat) :
    inBuffers c a n = true ↔
      (0x01000000 ≤ a ∧ a + n ≤ 0x01000000 + c.ibufCap) ∨ (0x02000000 ≤ a ∧ a + n ≤ 0x02000000 + c.obufCap) ∨
        (0x03000000 ≤ a ∧ a + n ≤ 0x03000000 + c.tbufCap) := by
  simp only [inBuffers, inWindow, Bool.or_eq_true, decide_eq_true_eq, or_assoc]
  rfl

/-- Each byte of an access in a window is in that window. -/
theorem inBuffers_byte {c : Caps} {a n i : Nat} (h : inBuffers c a n = true) (hi : i < n) : inBuffers c (a + i) 1 = true := by
  simp only [inBuffers, inWindow, Bool.or_eq_true, decide_eq_true_eq] at h ⊢
  omega

theorem length_storedBytes (v : Word) (n : Nat) (h : n = 1 ∨ n = 4) : (storedBytes v n).length = n := by
  rcases h with rfl | rfl <;> rfl

/-- Every register is found at its own offset. -/
theorem regAt_offset (r : Reg) : regAt r.offset = some r := by
  cases r with
  | path k => revert k; decide
  | _ => decide

/-- No register lies in the buffers' part of the address space (20_memory.md R63). -/
theorem regAt_of_le {a : Nat} (h : 0x1000 ≤ a) : regAt a = none := by
  refine List.find?_eq_none.2 fun r _ => ?_
  have : r.offset < 0x1000 := by
    cases r <;> simp only [Reg.offset] <;> omega
  simp only [beq_iff_eq]
  omega

/-- An access wholly within a buffer's window, aligned where it is of 4 bytes, reaches the buffer at its own address
(20_memory.md R63). -/
theorem placeOf_of_inBuffers {c : Caps} {a : Word} {n : Nat} (h : inBuffers c a.toNat n = true)
    (hn : n = 1 ∨ n = 4 ∧ a.toNat % 4 = 0) : placeOf c a n = some (.buffer a.toNat) := by
  rcases hn with rfl | ⟨rfl, ha⟩
  · simp [placeOf, h]
  · have hlow : 0x1000 ≤ a.toNat := by
      have := (inBuffers_iff c a.toNat 4).1 h
      omega
    simp [placeOf, ha, regAt_of_le hlow, h]

/-- A buffer byte right after a reset event is the one drawn for that event (70_reset_and_hazards.md R332, log entry 3). -/
theorem readByte_assertReset {s : State} (h : s.resetPin = false) (a : Nat) :
    readByte (assertReset s) a = Config.drawnByte (s.resets + 1) a := by
  simp [assertReset, h, readByte, State.afterReset, Memory.get?]

/-- A register's address is mapped to it (20_memory.md R63). -/
theorem placeOf_offset (c : Caps) (r : Reg) : placeOf c (BitVec.ofNat 32 r.offset) 4 = some (.register r) := by
  have h : (BitVec.ofNat 32 r.offset).toNat = r.offset ∧ r.offset % 4 = 0 := by
    cases r <;> simp [Reg.offset]
    omega
  simp [placeOf, h.1, h.2, regAt_offset]

/-- A register read while IDLE gives its value and does nothing (20_memory.md R67). -/
theorem hostRead_register {s : State} (r : Reg) (hp : s.resetPin = false) (hi : s.phase = .idle) :
    hostRead (BitVec.ofNat 32 r.offset) 4 s = (s, readReg r s, .okay) := by
  simp [hostRead, hp, placeOf_offset, busyFlag, hi, readPlace]

/-- A register written while IDLE is answered OKAY (20_memory.md R67). -/
theorem hostWrite_register {s : State} (r : Reg) (v : Word) (hp : s.resetPin = false) (hi : s.phase = .idle) :
    hostWrite (BitVec.ofNat 32 r.offset) 4 v s = (writeReg r v s, .okay) := by
  simp [hostWrite, hp, placeOf_offset, busyFlag, hi, writePlace]

/-- A short field in the low bits of a register reads as its number. -/
theorem toNat_zero_append {k n : Nat} (x : BitVec n) : ((0 : BitVec k) ++ x).toNat = x.toNat := by
  simp [BitVec.toNat_append]

/-- A node index that is not NIL reads as itself (10_state.md R38). -/
theorem toNat_nodeWord {n : Nat} (h : n < 0x10000) : (nodeWord (some n)).toNat = n := by
  simp only [nodeWord, BitVec.toNat_ofNat]
  omega

theorem toNat_readReg_cursor {s : State} : (readReg .cursor s).toNat = (nodeWord s.cursor).toNat :=
  toNat_zero_append _

theorem toNat_readReg_root {s : State} : (readReg .root s).toNat = (nodeWord s.root).toNat :=
  toNat_zero_append _

theorem toNat_readReg_nodeCount {s : State} : (readReg .nodeCount s).toNat = s.nodes.length % 65536 :=
  (toNat_zero_append (k := 16) (n := 16) _).trans (BitVec.toNat_ofNat _ _)

theorem readReg_pathLen {s : State} : readReg .pathLen s = s.pathLen.setWidth 32 :=
  BitVec.eq_of_toNat_eq ((toNat_zero_append (k := 24) _).trans (by
    rw [BitVec.toNat_setWidth, Nat.mod_eq_of_lt (Nat.lt_of_lt_of_le s.pathLen.isLt (by decide))]))

theorem readReg_symCount {s : State} : readReg .symCount s = s.symCount.setWidth 32 :=
  BitVec.eq_of_toNat_eq ((toNat_zero_append (k := 23) _).trans (by
    rw [BitVec.toNat_setWidth, Nat.mod_eq_of_lt (Nat.lt_of_lt_of_le s.symCount.isLt (by decide))]))

/-- RESULT as a number (10_state.md R36). -/
theorem Result.toNat_word (r : Result) :
    r.word.toNat = (nodeWord r.node).toNat * 2 ^ 16 + r.payload.toNat * 2 ^ 8 + r.leaf.toNat * 2 + r.found.toNat := by
  have h : r.word.toNat = (((((nodeWord r.node).toNat <<< 8 ||| r.payload.toNat) <<< 6 ||| 0) <<< 1 ||| r.leaf.toNat) <<< 1 |||
      r.found.toNat) := by
    simp only [Result.word]
    refine (BitVec.toNat_append (_ : BitVec 31) (_ : BitVec 1)).trans ?_
    refine congrArg₂ (fun a b => a <<< 1 ||| b) ((BitVec.toNat_append (_ : BitVec 30) (_ : BitVec 1)).trans ?_) (by simp)
    refine congrArg₂ (fun a b => a <<< 1 ||| b) ((BitVec.toNat_append (_ : BitVec 24) (_ : BitVec 6)).trans ?_) (by simp)
    refine congrArg₂ (fun a b => a <<< 6 ||| b) (BitVec.toNat_append (_ : BitVec 16) (_ : BitVec 8)) rfl
  rw [h]
  have hp := r.payload.isLt
  have hl : r.leaf.toNat < 2 ^ 1 := by cases r.leaf <;> decide
  have hf : r.found.toNat < 2 ^ 1 := by cases r.found <;> decide
  rw [← Nat.shiftLeft_add_eq_or_of_lt hp, Nat.or_zero, ← Nat.shiftLeft_add_eq_or_of_lt hl, ← Nat.shiftLeft_add_eq_or_of_lt hf]
  simp only [Nat.shiftLeft_eq]
  omega

/-- The reset state's memory is in canonical form. -/
theorem reset_memory_wf : Memory.wf State.reset.mem := List.Pairwise.nil

end Sys2Proof.Machine
end

