-- ==== Sys2Proof/Laws/Exec.lean ====
section
/-! SUPPORT. A command's perform step as its rule and its completion, so that a proof about `exec` is one about the rule. -/

namespace Sys2Proof.Machine

/-- The rule of a command, without its completion. -/
def ruleOf (i : Instr) (s : State) : Effect :=
  match i with
  | .nop => .completed s
  | .histCount => ruleHistCount s
  | .histClear => .completed { s with hist := zeroHist }
  | .histGet b =>
    .completed { s with countLo := (histAt s.hist b).extractLsb' 0 32, countHi := (histAt s.hist b).extractLsb' 32 32 }
  | .histSet b => .completed { s with hist := histPut s.hist b (countOperand s) }
  | .treeBuild => ruleTreeBuild s
  | .codeDerive => ruleCodeDerive s
  | .codeClear => .completed { s with code := emptyCode }
  | .codeGet b => ruleCodeGet b s
  | .codeSet b => ruleCodeSet b s
  | .tableSerialize => ruleTableSerialize s
  | .pack => rulePack s
  | .encode => ruleEncode s
  | .treeClear => .completed (clearTree s)
  | .treeInsert b => insertPayload s (pathOperand s) b
  | .treeSearch => ruleTreeSearch s
  | .treeStep bit => ruleTreeStep bit s
  | .treeReset => .completed { s with cursor := s.root }
  | .tableParse => ruleTableParse s
  | .unpack => ruleUnpack s
  | .decode => ruleDecode s

theorem exec_eq_finish (i : Instr) (s : State) : exec i s = (ruleOf i s).finish := by
  cases i <;> rfl

/-- A command goes on in exactly two ways: its rule completes, or it raises an error. -/
theorem exec_eq_next_iff (i : Instr) (s t : State) :
    exec i s = .next t ↔
      (∃ u, ruleOf i s = .completed u ∧ t = complete u) ∨
        (∃ c info u, ruleOf i s = .raised c info u ∧ t = raise c info u) := by
  rw [exec_eq_finish, Effect.finish_eq_next_iff]

/-- The engine's perform step is the decoded command, or the illegal word's error. -/
theorem performCommand_eq (s : State) :
    (∃ i, decode s.cmd = .command i ∧ performCommand s = exec i s) ∨
      (∃ why, decode s.cmd = .illegal why ∧ performCommand s = .next (raise .illegalCommand s.cmd s)) := by
  simp only [performCommand]
  cases h : decode s.cmd with
  | command i => exact .inl ⟨i, rfl, rfl⟩
  | illegal why => exact .inr ⟨why, rfl, rfl⟩

/-- Everything a step can be: the host's turn, or the engine's perform step. -/
theorem step_eq (s : State) :
    (step s = .next (hostTurn s) ∧ (s.resetPin = true ∨ s.phase = .idle)) ∨
      (∃ d, s.resetPin = false ∧ s.phase = .busy ∧ s.delay = d + 1 ∧ step s = .next (hostTurn { s with delay := d })) ∨
      (s.resetPin = false ∧ s.phase = .busy ∧ s.delay = 0 ∧ step s = performCommand s) := by
  simp only [step, machineTurn]
  cases hr : s.resetPin with
  | true => exact .inl ⟨rfl, .inl rfl⟩
  | false =>
    cases hp : s.phase with
    | idle => exact .inl ⟨rfl, .inr rfl⟩
    | busy =>
      cases hd : s.delay with
      | zero => exact .inr (.inr ⟨rfl, rfl, rfl, rfl⟩)
      | succ d => exact .inr (.inl ⟨d, rfl, rfl, rfl, rfl⟩)

end Sys2Proof.Machine
end

