-- ==== Sys2Proof/Laws/Parser.lean ====
section
/-! SUPPORT. The scanner of 46_table_parser.md R263, run over one whole piece of text at a time: digits, bits, an entry with its
separator, a list of such entries. -/

namespace Sys2Proof.Machine

/-- The value of a digit string, from a value read before (46_table_parser.md R263). -/
def decimalFrom (v : Nat) (digits : List Byte) : Nat :=
  digits.foldl (fun v ch => 10 * v + (ch.toNat - 0x30)) v

/-- The characters of a bit string (46_table_parser.md R262). -/
def bitText (c : BitString) : List Byte :=
  c.map (fun x => if x then 0x31 else 0x30)

/-- One entry and the separator after it (46_table_parser.md R262): its digits, and what they and its bits mean. -/
def entryPiece (e : List Byte × Byte × BitString) : List Byte :=
  e.1 ++ [0x3A] ++ bitText e.2.2 ++ [0x2D]

/-- An entry within the limits of 46_table_parser.md R262. -/
structure EntryOk (e : List Byte × Byte × BitString) : Prop where
  someDigit : 1 ≤ e.1.length
  fewDigits : e.1.length ≤ 3
  digits : ∀ ch ∈ e.1, 0x30 ≤ ch.toNat ∧ ch.toNat ≤ 0x39
  value : decimalFrom 0 e.1 = e.2.1.toNat
  fewBits : e.2.2.length ≤ 255

@[simp] theorem length_bitText (c : BitString) : (bitText c).length = c.length := by simp [bitText]

theorem isDigit_iff (ch : Byte) : isDigit ch = true ↔ 0x30 ≤ ch.toNat ∧ ch.toNat ≤ 0x39 := by simp [isDigit]

theorem isDuplicate_iff {es : List (Byte × BitString)} {v : Nat} (hv : v ≤ 255) :
    isDuplicate es v = true ↔ ∃ e ∈ es, e.1.toNat = v := by
  simp only [isDuplicate, List.any_eq_true, beq_iff_eq]
  refine exists_congr fun e => and_congr_right fun _ => ?_
  constructor
  · intro h
    rw [h, BitVec.toNat_ofNat]
    omega
  · intro h
    rw [← h, BitVec.ofNat_toNat, BitVec.setWidth_eq]

/-- A run of digits within the limit of three is read whole. -/
theorem scanTable_digits (start : Nat) (es : List (Byte × BitString)) (tail : List Byte) (ds : List Byte) :
    ∀ (v nd pos : Nat), (∀ ch ∈ ds, isDigit ch = true) → nd + ds.length ≤ 3 →
      scanTable (.number start v nd) pos es (ds ++ tail) =
        scanTable (.number start (decimalFrom v ds) (nd + ds.length)) (pos + ds.length) es tail := by
  induction ds with
  | nil => intro v nd pos _ _; rfl
  | cons ch ds ih =>
    intro v nd pos hd hn
    simp only [List.length_cons] at hn
    rw [List.cons_append, scanTable, if_pos (hd ch (by simp)), if_neg (by omega),
      ih _ _ _ (fun x hx => hd x (by simp [hx])) (by omega)]
    simp only [decimalFrom, List.foldl_cons, List.length_cons, Nat.add_assoc, Nat.add_comm 1]

/-- A run of bits within the limit of 255 is read whole. -/
theorem scanTable_bits (start v : Nat) (es : List (Byte × BitString)) (rest : List Byte) (bits : BitString) :
    ∀ (c : BitString) (pos : Nat), c.length + bits.length ≤ 255 →
      scanTable (.code start v c) pos es (bitText bits ++ rest) =
        scanTable (.code start v (c ++ bits)) (pos + bits.length) es rest := by
  induction bits with
  | nil => intro c pos _; simp [bitText]
  | cons b bits ih =>
    intro c pos hl
    simp only [List.length_cons] at hl
    have hb : (if b then 0x31 else 0x30 : Byte) = bitChar b := rfl
    have hbit : (bitChar b == bitChar true) = b := by cases b <;> rfl
    simp only [bitText, List.map_cons, List.cons_append] at ih ⊢
    rw [hb, scanTable, if_pos (by cases b <;> simp), if_neg (by simp only [Config.maxCodeLen]; omega), hbit,
      ih _ _ (by simp only [List.length_append, List.length_singleton]; omega)]
    simp only [List.append_assoc, List.singleton_append, List.length_cons]
    congr 1
    omega

/-- The number of an entry and its `:` are read whole. -/
theorem scanTable_number {ds : List Byte} (start : Nat) (es : List (Byte × BitString)) (rest : List Byte)
    (hd : ∀ ch ∈ ds, isDigit ch = true) (h1 : 1 ≤ ds.length) (h3 : ds.length ≤ 3) (hv : decimalFrom 0 ds ≤ 255) :
    scanTable (.number start 0 0) start es (ds ++ 0x3A :: rest) =
      scanTable (.code start (decimalFrom 0 ds) []) (start + ds.length + 1) es rest := by
  rw [scanTable_digits start es _ ds 0 0 start hd (by omega), Nat.zero_add, scanTable, if_neg (by decide)]
  have : numberError start (decimalFrom 0 ds) ds.length (start + ds.length) = none := by
    rw [numberError, if_neg (by omega), if_neg (by omega)]
  rw [this]
  simp [colonChar]

/-- A new entry and its separator are read whole. -/
theorem scanTable_entry {e : List Byte × Byte × BitString} (start : Nat) (es : List (Byte × BitString)) (rest : List Byte)
    (he : EntryOk e) (hnew : ∀ e' ∈ es, e'.1 ≠ e.2.1) :
    scanTable (.number start 0 0) start es (entryPiece e ++ rest) =
      scanTable (.number (start + (entryPiece e).length) 0 0) (start + (entryPiece e).length) (es ++ [e.2]) rest := by
  have hv : decimalFrom 0 e.1 ≤ 255 := by rw [he.value]; have := e.2.1.isLt; omega
  have hdup : ¬ isDuplicate es (decimalFrom 0 e.1) = true := by
    rw [isDuplicate_iff hv]
    rintro ⟨e', he', h⟩
    exact hnew e' he' (BitVec.eq_of_toNat_eq (by rw [h, he.value]))
  have hbyte : BitVec.ofNat 8 (decimalFrom 0 e.1) = e.2.1 := by
    rw [he.value, BitVec.ofNat_toNat, BitVec.setWidth_eq]
  have htext : entryPiece e ++ rest = e.1 ++ 0x3A :: (bitText e.2.2 ++ 0x2D :: rest) := by simp [entryPiece]
  have hlen : (entryPiece e).length = e.1.length + 1 + e.2.2.length + 1 := by simp [entryPiece]; omega
  rw [htext, scanTable_number start es _ (fun ch hch => (isDigit_iff ch).2 (he.digits ch hch)) he.someDigit he.fewDigits hv,
    scanTable_bits _ _ _ _ _ _ _ (by simpa using he.fewBits), scanTable, if_neg (by decide), if_neg hdup,
    if_neg (by simp [dashChar]), hlen, hbyte]
  simp only [List.nil_append]
  congr 1
  · congr 1
    omega
  · omega

/-- Entries with distinct values, each with its separator, are read whole. -/
theorem scanTable_entries (rest : List Byte) (raw : List (List Byte × Byte × BitString)) :
    ∀ (start : Nat) (es : List (Byte × BitString)), (∀ e ∈ raw, EntryOk e) →
      (es.map (fun e => e.1) ++ raw.map (fun e => e.2.1)).Nodup →
      scanTable (.number start 0 0) start es (raw.flatMap entryPiece ++ rest) =
        scanTable (.number (start + (raw.flatMap entryPiece).length) 0 0) (start + (raw.flatMap entryPiece).length)
          (es ++ raw.map (fun e => e.2)) rest := by
  induction raw with
  | nil => intro start es _ _; simp
  | cons e raw ih =>
    intro start es hok hnd
    have hnew : ∀ e' ∈ es, e'.1 ≠ e.2.1 := by
      intro e' he' heq
      rw [List.nodup_append] at hnd
      exact hnd.2.2 _ (List.mem_map_of_mem he') _ (by simp) heq
    rw [List.flatMap_cons, List.append_assoc, scanTable_entry _ _ _ (hok e (by simp)) hnew,
      ih _ _ (fun x hx => hok x (by simp [hx])) (by simpa using hnd)]
    simp [Nat.add_assoc]

end Sys2Proof.Machine
end

