-- ==== Sys2Proof/Laws/PerInstr.lean ====
section
/-! SUPPORT. For every command: its encoded word matches its row of spec/opcode_table.json, match and mask (30_encoding.md R96). -/

namespace Sys2Proof.Laws.TableMatch

/-- The mask and the match of a command's row in spec/opcode_table.json. -/
def row (i : Instr) : Word × Word :=
  match i with
  | .nop => (0xFFFFFFFF, 0x00000000)
  | .histCount => (0xFFFFFFFF, 0x10000000)
  | .histClear => (0xFFFFFFFF, 0x11000000)
  | .histGet _ => (0xFFFFFF00, 0x12000000)
  | .histSet _ => (0xFFFFFF00, 0x13000000)
  | .treeBuild => (0xFFFFFFFF, 0x20000000)
  | .codeDerive => (0xFFFFFFFF, 0x30000000)
  | .codeClear => (0xFFFFFFFF, 0x31000000)
  | .codeGet _ => (0xFFFFFF00, 0x32000000)
  | .codeSet _ => (0xFFFFFF00, 0x33000000)
  | .tableSerialize => (0xFFFFFFFF, 0x34000000)
  | .pack => (0xFFFFFFFF, 0x40000000)
  | .encode => (0xFFFFFFFF, 0x4F000000)
  | .treeClear => (0xFFFFFFFF, 0x50000000)
  | .treeInsert _ => (0xFFFFFF00, 0x51000000)
  | .treeSearch => (0xFFFFFFFF, 0x52000000)
  | .treeStep _ => (0xFFFFFFFE, 0x53000000)
  | .treeReset => (0xFFFFFFFF, 0x54000000)
  | .tableParse => (0xFFFFFFFF, 0x60000000)
  | .unpack => (0xFFFFFFFF, 0x70000000)
  | .decode => (0xFFFFFFFF, 0x7F000000)

/-- `(w AND mask) = match` for the word of the command (30_encoding.md R96). -/
def Statement (i : Instr) : Prop :=
  encode i &&& (row i).1 = (row i).2

theorem nop : Statement .nop := by unfold Statement; decide

theorem histCount : Statement .histCount := by unfold Statement; decide

theorem histClear : Statement .histClear := by unfold Statement; decide

theorem histGet (b : Byte) : Statement (.histGet b) := by
  revert b; unfold Statement; decide

theorem histSet (b : Byte) : Statement (.histSet b) := by
  revert b; unfold Statement; decide

theorem treeBuild : Statement .treeBuild := by unfold Statement; decide

theorem codeDerive : Statement .codeDerive := by unfold Statement; decide

theorem codeClear : Statement .codeClear := by unfold Statement; decide

theorem codeGet (b : Byte) : Statement (.codeGet b) := by
  revert b; unfold Statement; decide

theorem codeSet (b : Byte) : Statement (.codeSet b) := by
  revert b; unfold Statement; decide

theorem tableSerialize : Statement .tableSerialize := by unfold Statement; decide

theorem pack : Statement .pack := by unfold Statement; decide

theorem encode : Statement .encode := by unfold Statement; decide

theorem treeClear : Statement .treeClear := by unfold Statement; decide

theorem treeInsert (b : Byte) : Statement (.treeInsert b) := by
  revert b; unfold Statement; decide

theorem treeSearch : Statement .treeSearch := by unfold Statement; decide

theorem treeStep (bit : Bool) : Statement (.treeStep bit) := by
  cases bit <;> unfold Statement <;> decide

theorem treeReset : Statement .treeReset := by unfold Statement; decide

theorem tableParse : Statement .tableParse := by unfold Statement; decide

theorem unpack : Statement .unpack := by unfold Statement; decide

theorem decode : Statement .decode := by unfold Statement; decide

end Sys2Proof.Laws.TableMatch
end

