-- ==== Sys2Proof/Laws/Rules.lean ====
section
/-! SUPPORT. What each composed rule can write: one frame lemma per rule, for its completion and its causes alike; and which rules raise no error. -/

namespace Sys2Proof.Machine

/-- Where the effect completes or raises a cause, the state it leaves has `P`. -/
def Effect.EndsIn (e : Effect) (P : State → Prop) : Prop := (∀ t, e = .completed t → P t) ∧ (∀ c i t, e = .raised c i t → P t)

/-- Two effects in order: what the first leaves already has `Q`, and the second keeps it. -/
theorem Effect.endsIn_andThen {e : Effect} {f : State → Effect} {P Q : State → Prop} (h1 : Effect.EndsIn e P) (h2 : ∀ u, P u → Effect.EndsIn (f u) Q)
   (h3 : ∀ u, P u → Q u) : Effect.EndsIn (e.andThen f) Q := by
  cases e with
  | completed s => exact h2 s (h1.1 s rfl)
  | raised c i s => exact ⟨by simp, fun c i t h => by simp at h; obtain ⟨_, _, rfl⟩ := h; exact h3 _ (h1.2 _ _ _ rfl)⟩
  | stuck f => exact ⟨by simp, by simp⟩

/-- A completed effect ends in its own state. -/
theorem Effect.endsIn_completed (s P) (h : P s) : Effect.EndsIn (.completed s) P := ⟨by simp; exact h, by simp⟩

/-- A raised effect ends in the state it raises at. -/
theorem Effect.endsIn_raised (c i s P) (h : P s) : Effect.EndsIn (.raised c i s) P := ⟨by simp, by rintro c i t ⟨⟩; exact h⟩

/-- An insertion writes the tree, its root, cursor and symbol count, whether it completes or raises. -/
theorem insertPayload_frame (s : State) (p : BitString) (v : Byte) :
  (∀ t, insertPayload s p v = .completed t → ∃ n r c y, t = { s with nodes := n, root := r, cursor := c, symCount := y }) ∧
  (∀ e i t, insertPayload s p v = .raised e i t → ∃ n r c y, t = { s with nodes := n, root := r, cursor := c, symCount := y }) := by
  constructor
  · intro t h
    simp only [insertPayload, ensureRoot] at h
    cases hr : s.root <;> simp only [hr, clearTree] at h
    all_goals
      split at h
      · simp only [Effect.completed.injEq] at h; subst h; exact ⟨_, _, _, _, rfl⟩
      · simp at h
  · intro e i t h
    simp only [insertPayload, ensureRoot] at h
    cases hr : s.root <;> simp only [hr, clearTree] at h
    all_goals
      split at h
      · simp at h
      · simp only [Effect.raised.injEq] at h; obtain ⟨-, -, rfl⟩ := h; exact ⟨_, _, _, _, rfl⟩

/-- Inserting a list of pairs writes the tree, its root, cursor and symbol count, nothing else. -/
theorem insertEntries_frame (es : List (Byte × BitString)) : ∀ (s : State),
  (∀ t, insertEntries es s = .completed t → ∃ n r c y, t = { s with nodes := n, root := r, cursor := c, symCount := y }) ∧
  (∀ e i t, insertEntries es s = .raised e i t → ∃ n r c y, t = { s with nodes := n, root := r, cursor := c, symCount := y }) := by
  induction es with
  | nil => intro s; refine ⟨?_, ?_⟩ <;> simp [insertEntries]; exact ⟨_, _, _, _, rfl⟩
  | cons x es ih =>
    intro s
    obtain ⟨v, c⟩ := x
    simp only [insertEntries]
    refine ⟨?_, ?_⟩
    · intro t h
      obtain ⟨u, h1, h2⟩ := (Effect.andThen_eq_completed_iff _ _ _).1 h
      obtain ⟨n, r, c, y, rfl⟩ := (insertPayload_frame _ _ _).1 u h1
      obtain ⟨n, r, c, y, rfl⟩ := (ih _).1 t h2
      exact ⟨_, _, _, _, rfl⟩
    · intro e i t h
      rcases (Effect.andThen_eq_raised_iff _ _ _ _ _).1 h with h | ⟨u, h1, h2⟩
      · exact (insertPayload_frame _ _ _).2 _ _ _ h
      · obtain ⟨n, r, c, y, rfl⟩ := (insertPayload_frame _ _ _).1 u h1
        obtain ⟨n, r, c, y, rfl⟩ := (ih _).2 _ _ t h2
        exact ⟨_, _, _, _, rfl⟩

/-- TABLE_PARSE writes the tree, its root, cursor and symbol count, nothing else. -/
theorem ruleTableParse_frame (s : State) : Effect.EndsIn (ruleTableParse s) (fun t => ∃ n r c y, t = { s with nodes := n, root := r, cursor := c, symCount := y }) := by
  have load : ∀ es, Effect.EndsIn (loadEntries es s) (fun t => ∃ n r c y, t = { s with nodes := n, root := r, cursor := c, symCount := y }) := by
    intro es
    refine Effect.endsIn_andThen (P := fun t => ∃ n r c y, t = { s with nodes := n, root := r, cursor := c, symCount := y }) ?_ ?_ (fun u h => h)
    · have := insertEntries_frame es (clearTree s)
      refine ⟨?_, ?_⟩
      · intro t h; obtain ⟨n, r, c, y, rfl⟩ := this.1 t h; exact ⟨_, _, _, _, rfl⟩
      · intro c i t h; obtain ⟨n, r, c, y, rfl⟩ := this.2 _ _ t h; exact ⟨_, _, _, _, rfl⟩
    · rintro u ⟨n, r, c, y, rfl⟩; exact Effect.endsIn_completed _ _ ⟨_, _, _, _, rfl⟩
  simp only [ruleTableParse]
  split
  · exact Effect.endsIn_raised _ _ _ _ ⟨_, _, _, _, rfl⟩
  · split
    · exact Effect.endsIn_raised _ _ _ _ ⟨_, _, _, _, rfl⟩
    · split
      · split
        · exact Effect.endsIn_raised _ _ _ _ ⟨_, _, _, _, rfl⟩
        · exact load _
      · exact load _

/-- UNPACK writes the output bytes and their length, DATABITS and the cursor, nothing else. -/
theorem ruleUnpack_frame (s : State) : Effect.EndsIn (ruleUnpack s) (fun t => ∃ m o d c, t = { s with mem := m, outLen := o, dataBits := d, cursor := c }) := by
  simp only [ruleUnpack, decodeStream, writeBytes]
  split
  · exact Effect.endsIn_raised _ _ _ _ ⟨_, _, _, _, rfl⟩
  · split
    · exact Effect.endsIn_raised _ _ _ _ ⟨_, _, _, _, rfl⟩
    · split
      · exact Effect.endsIn_raised _ _ _ _ ⟨_, _, _, _, rfl⟩
      · split
        · exact Effect.endsIn_raised _ _ _ _ ⟨_, _, _, _, rfl⟩
        · exact Effect.endsIn_completed _ _ ⟨_, _, _, _, rfl⟩

/-- PACK writes the output bytes, their length and the three counts, nothing else. -/
theorem rulePack_frame (s : State) : Effect.EndsIn (rulePack s) (fun t => ∃ m o d c e, t = { s with mem := m, outLen := o, dataBits := d, initSize := c, compSize := e }) := by
  simp only [rulePack, writeBytes]
  split
  · exact Effect.endsIn_raised _ _ _ _ ⟨_, _, _, _, _, rfl⟩
  · split
    · exact Effect.endsIn_raised _ _ _ _ ⟨_, _, _, _, _, rfl⟩
    · split
      · exact Effect.endsIn_raised _ _ _ _ ⟨_, _, _, _, _, rfl⟩
      · exact Effect.endsIn_completed _ _ ⟨_, _, _, _, _, rfl⟩

/-- TABLE_SERIALIZE writes the table text and its length, nothing else. -/
theorem ruleTableSerialize_frame (s : State) : Effect.EndsIn (ruleTableSerialize s) (fun t => ∃ m o, t = { s with mem := m, tblLen := o }) := by
  simp only [ruleTableSerialize, writeBytes]
  split
  · exact Effect.endsIn_raised _ _ _ _ ⟨_, _, rfl⟩
  · exact Effect.endsIn_completed _ _ ⟨_, _, rfl⟩

/-- CODE_DERIVE writes the code table, nothing else. -/
theorem ruleCodeDerive_frame (s : State) : Effect.EndsIn (ruleCodeDerive s) (fun t => ∃ m, t = { s with code := m }) := by
  simp only [ruleCodeDerive]
  split
  · exact Effect.endsIn_completed _ _ ⟨_, rfl⟩
  · exact ⟨by simp, by simp⟩

/-- HIST_COUNT writes the histogram, nothing else. -/
theorem ruleHistCount_frame (s : State) : Effect.EndsIn (ruleHistCount s) (fun t => ∃ m, t = { s with hist := m }) := by
  simp only [ruleHistCount]
  split
  · exact Effect.endsIn_raised _ _ _ _ ⟨_, rfl⟩
  · exact Effect.endsIn_completed _ _ ⟨_, rfl⟩

/-- ENCODE writes what its five stages write, nothing else. -/
theorem ruleEncode_frame (s : State) : Effect.EndsIn (ruleEncode s) (fun t => ∃ h n r cu y co m tl o d c e, t = { s with hist := h, nodes := n, root := r, cursor := cu, symCount := y, code := co, mem := m, tblLen := tl, outLen := o, dataBits := d, initSize := c, compSize := e }) := by
  unfold ruleEncode
  refine Effect.endsIn_andThen (Effect.endsIn_andThen (Effect.endsIn_andThen (Effect.endsIn_andThen (ruleHistCount_frame s) (Q := fun t => ∃ h n r cu y, t = { s with hist := h, nodes := n, root := r, cursor := cu, symCount := y }) ?_ ?_)  (Q := fun t => ∃ h n r cu y co, t = { s with hist := h, nodes := n, root := r, cursor := cu, symCount := y, code := co }) ?_ ?_)
    (Q := fun t => ∃ h n r cu y co m tl, t = { s with hist := h, nodes := n, root := r, cursor := cu, symCount := y, code := co, mem := m, tblLen := tl }) ?_ ?_) ?_ ?_
  · rintro u ⟨m, rfl⟩; exact Effect.endsIn_completed _ _ ⟨_, _, _, _, _, rfl⟩
  · rintro u ⟨m, rfl⟩; exact ⟨_, _, _, _, _, rfl⟩
  · rintro u ⟨m, n, r, cu, y, rfl⟩
    refine ⟨fun t h => ?_, fun c i t h => ?_⟩
    · obtain ⟨_, rfl⟩ := (ruleCodeDerive_frame _).1 t h; exact ⟨_, _, _, _, _, _, rfl⟩
    · obtain ⟨_, rfl⟩ := (ruleCodeDerive_frame _).2 _ _ t h; exact ⟨_, _, _, _, _, _, rfl⟩
  · rintro u ⟨m, n, r, cu, y, rfl⟩; exact ⟨_, _, _, _, _, _, rfl⟩
  · rintro u ⟨m, n, r, cu, y, co, rfl⟩
    refine ⟨fun t h => ?_, fun c i t h => ?_⟩
    · obtain ⟨_, _, rfl⟩ := (ruleTableSerialize_frame _).1 t h; exact ⟨_, _, _, _, _, _, _, _, rfl⟩
    · obtain ⟨_, _, rfl⟩ := (ruleTableSerialize_frame _).2 _ _ t h; exact ⟨_, _, _, _, _, _, _, _, rfl⟩
  · rintro u ⟨m, n, r, cu, y, co, rfl⟩; exact ⟨_, _, _, _, _, _, _, _, rfl⟩
  · rintro u ⟨m, n, r, cu, y, co, mm, tl, rfl⟩
    refine ⟨fun t h => ?_, fun c i t h => ?_⟩
    · obtain ⟨_, _, _, _, _, rfl⟩ := (rulePack_frame _).1 t h; exact ⟨_, _, _, _, _, _, _, _, _, _, _, _, rfl⟩
    · obtain ⟨_, _, _, _, _, rfl⟩ := (rulePack_frame _).2 _ _ t h; exact ⟨_, _, _, _, _, _, _, _, _, _, _, _, rfl⟩
  · rintro u ⟨m, n, r, cu, y, co, mm, tl, rfl⟩; exact ⟨_, _, _, _, _, _, _, _, _, _, _, _, rfl⟩

/-- DECODE writes what its two stages write, nothing else. -/
theorem ruleDecode_frame (s : State) : Effect.EndsIn (ruleDecode s) (fun t => ∃ n r y m o d c, t = { s with nodes := n, root := r, symCount := y, mem := m, outLen := o, dataBits := d, cursor := c }) := by
  refine Effect.endsIn_andThen (ruleTableParse_frame s) ?_ ?_
  · rintro u ⟨n, r, c, y, rfl⟩
    refine ⟨fun t h => ?_, fun c i t h => ?_⟩
    · obtain ⟨_, _, _, _, rfl⟩ := (ruleUnpack_frame _).1 t h; exact ⟨_, _, _, _, _, _, _, rfl⟩
    · obtain ⟨_, _, _, _, rfl⟩ := (ruleUnpack_frame _).2 _ _ t h; exact ⟨_, _, _, _, _, _, _, rfl⟩
  · rintro u ⟨n, r, c, y, rfl⟩; exact ⟨_, _, _, _, _, _, _, rfl⟩

/-! ## Rules that raise no error (60_exceptions.md R303) -/

theorem ruleCodeDerive_not_raised (s t : State) (c : ErrorCode) (info : Word) : ruleCodeDerive s ≠ .raised c info t := by
  simp only [ruleCodeDerive]
  split <;> simp

theorem ruleCodeGet_not_raised (b : Byte) (s t : State) (c : ErrorCode) (info : Word) :
    ruleCodeGet b s ≠ .raised c info t := by
  simp only [ruleCodeGet]
  split <;> simp

theorem ruleTreeSearch_not_raised (s t : State) (c : ErrorCode) (info : Word) : ruleTreeSearch s ≠ .raised c info t := by
  simp only [ruleTreeSearch]
  split <;> simp

theorem ruleTreeStep_not_raised (bit : Bool) (s t : State) (c : ErrorCode) (info : Word) :
    ruleTreeStep bit s ≠ .raised c info t := by
  simp only [ruleTreeStep]
  split
  · simp
  · split <;> simp

end Sys2Proof.Machine
end

