-- ==== Sys2Proof/Tests/Slice0.lean ====
section
/-! SUPPORT. Tests on the spec's own words, examples and vectors, and the witnesses of the statements' hypotheses. -/

namespace Sys2Proof.Tests

set_option Elab.async false

open Sys2Proof Sys2Proof.Machine

/-! ## Well-formed words (30_encoding.md R96; each word is one that file 95 lists or R95 leaves unassigned) -/

theorem test_wellFormed_accepts : wellFormedWord 0x12000061 = true ∧ wellFormedWord 0x53000001 = true ∧
    wellFormedWord 0x7F000000 = true := by decide
theorem test_wellFormed_refuses_unassigned_opc :
    CommandFields.wellFormed { opc := 0x01, rsvd := 0, imm8 := 0 } = false ∧ wellFormedWord 0xFF000000 = false := by decide
theorem test_wellFormed_refuses_reserved_bits :
    CommandFields.wellFormed { opc := 0x10, rsvd := 1, imm8 := 0 } = false ∧ wellFormedWord 0x12010061 = false := by decide
theorem test_wellFormed_refuses_immediate_in_format_n :
    CommandFields.wellFormed { opc := 0x00, rsvd := 0, imm8 := 1 } = false ∧ wellFormedWord 0x00000001 = false := by decide
theorem test_wellFormed_refuses_high_step_bits :
    CommandFields.wellFormed { opc := 0x53, rsvd := 0, imm8 := 2 } = false ∧ wellFormedWord 0x5300000F = false := by decide

/-! ## Decoding: each word bit by bit, OPC, RSVD, IMM8, from 30_encoding.md R91, R92, R95 -/

theorem test_decode_nop : decode 0b00000000_0000000000000000_00000000 = .command .nop := by decide
theorem test_decode_histCount : decode 0b00010000_0000000000000000_00000000 = .command .histCount := by decide
theorem test_decode_histClear : decode 0b00010001_0000000000000000_00000000 = .command .histClear := by decide
theorem test_decode_histGet : decode 0b00010010_0000000000000000_01100001 = .command (.histGet 0x61) := by decide
theorem test_decode_histSet : decode 0b00010011_0000000000000000_01000001 = .command (.histSet 0x41) := by decide
theorem test_decode_treeBuild : decode 0b00100000_0000000000000000_00000000 = .command .treeBuild := by decide
theorem test_decode_codeDerive : decode 0b00110000_0000000000000000_00000000 = .command .codeDerive := by decide
theorem test_decode_codeClear : decode 0b00110001_0000000000000000_00000000 = .command .codeClear := by decide
theorem test_decode_codeGet : decode 0b00110010_0000000000000000_10000000 = .command (.codeGet 0x80) := by decide
theorem test_decode_codeSet : decode 0b00110011_0000000000000000_11111111 = .command (.codeSet 0xFF) := by decide
theorem test_decode_tableSerialize : decode 0b00110100_0000000000000000_00000000 = .command .tableSerialize := by decide
theorem test_decode_pack : decode 0b01000000_0000000000000000_00000000 = .command .pack := by decide
theorem test_decode_encode : decode 0b01001111_0000000000000000_00000000 = .command .encode := by decide
theorem test_decode_treeClear : decode 0b01010000_0000000000000000_00000000 = .command .treeClear := by decide
theorem test_decode_treeInsert : decode 0b01010001_0000000000000000_01100010 = .command (.treeInsert 0x62) := by decide
theorem test_decode_treeSearch : decode 0b01010010_0000000000000000_00000000 = .command .treeSearch := by decide
theorem test_decode_treeStep_left : decode 0b01010011_0000000000000000_00000000 = .command (.treeStep false) := by decide
theorem test_decode_treeStep_right : decode 0b01010011_0000000000000000_00000001 = .command (.treeStep true) := by decide
theorem test_decode_treeReset : decode 0b01010100_0000000000000000_00000000 = .command .treeReset := by decide
theorem test_decode_tableParse : decode 0b01100000_0000000000000000_00000000 = .command .tableParse := by decide
theorem test_decode_unpack : decode 0b01110000_0000000000000000_00000000 = .command .unpack := by decide
theorem test_decode_decode : decode 0b01111111_0000000000000000_00000000 = .command .decode := by decide
theorem test_decode_illegal_words :
    decode 0x00000001 = .illegal .immediateNotZero ∧ decode 0x53000002 = .illegal .stepBitsNotZero ∧
    decode 0x10000100 = .illegal .reservedNotZero ∧ decode 0x51FF0000 = .illegal .reservedNotZero ∧
    decode 0x01000000 = .illegal .opcodeUnassigned := by decide
theorem test_decodeTableWord : decodeTableWord 32 0x12000061 = some (.histGet 0x61) ∧ decodeTableWord 32 1 = none := by decide

/-! ## Small states -/

/-- The next state has a property. -/
def after (o : Host.Outcome State Fault Refusal) (p : State → Bool) : Bool :=
  match o with
  | .next t => p t
  | .fault _ => false
  | .refused _ => false

/-- Bytes in IBUF and their number in IN_LEN. -/
def withInput (bytes : List Byte) (s : State) : State :=
  { writeBytes s ibufBase bytes with inLen := BitVec.ofNat 32 bytes.length }

/-- Characters in TBUF and their number in TBL_LEN. -/
def withTable (text : List Byte) (s : State) : State :=
  { writeBytes s tbufBase text with tblLen := BitVec.ofNat 32 text.length }

/-- A path in the path registers. -/
def withPath (p : BitString) (s : State) : State :=
  { s with pathLen := BitVec.ofNat 8 p.length, path := pathWords p }

/-- A tree. -/
def withTree (nodes : List Node) (root : Option Nat) (s : State) : State :=
  { s with nodes := nodes, root := root, cursor := root }

def leaf (b : Byte) : Node := { payload := some b, left := none, right := none, weight := 0 }
def inner (l r : Option Nat) : Node := { payload := none, left := l, right := r, weight := 0 }

/-- The tree V-T1 of file 95, S1. -/
def treeT1 : List Node :=
  [inner (some 1) none, inner (some 5) (some 2), inner (some 3) (some 4), leaf 0x61, leaf 0x62, leaf 0x63]

/-- The tree of `97:1-98:0` (file 95, V-U20): root 0, RIGHT 1 = a, LEFT 2 = b. -/
def treeAB : List Node := [inner (some 2) (some 1), leaf 0x61, leaf 0x62]

/-- The table of file 95, V-E11: a "1", b "0". -/
def codeAB : CodeTable := codePut (codePut emptyCode 0x61 [true]) 0x62 [false]

/-- "aaab" in IBUF. -/
def aaab : State := withInput [0x61, 0x61, 0x61, 0x62] State.reset

/-- `97:010-98:011-99:00` in TBUF. -/
def textT1 : List Byte :=
  [0x39, 0x37, 0x3A, 0x30, 0x31, 0x30, 0x2D, 0x39, 0x38, 0x3A, 0x30, 0x31, 0x31, 0x2D, 0x39, 0x39, 0x3A, 0x30, 0x30]

/-- `97:1-98:0` in TBUF. -/
def textAB : List Byte := [0x39, 0x37, 0x3A, 0x31, 0x2D, 0x39, 0x38, 0x3A, 0x30]

/-- The table text of the statements' parser witnesses: `97:0` and `97:`. -/
def textA0 : List Byte := [0x39, 0x37, 0x3A, 0x30]
def textA : List Byte := [0x39, 0x37, 0x3A]

/-- A BUSY state with the word in CMD. -/
def busy (w : Word) : State := { acceptCommand w State.reset with delay := 0 }

/-! ## One step per command (expected results from file 95 and the rules' examples) -/

-- V-P1: STATUS = 0x00000002, CMD = 0
theorem test_nop : after (step (busy 0)) (fun t => readReg .status t = 2 && readReg .cmd t = 0) = true := by decide +kernel
-- V-P3: STATUS = 0x00000606, ERR_INFO = the word
theorem test_illegal : after (step (busy 1)) (fun t => readReg .status t = 0x606 && t.errInfo = 1 && t.cmd = 1) = true := by
  decide +kernel
-- V-P15: the write is dropped, REJECT = 1
theorem test_reject : (hostWrite cmdAddress 4 0 (busy 1)).2 = .okay ∧ (hostWrite cmdAddress 4 0 (busy 1)).1.reject = true ∧
    (hostWrite cmdAddress 4 0 (busy 1)).1.cmd = 1 := by decide +kernel
-- V-H1
theorem test_histCount : after (exec .histCount aaab)
    (fun t => histAt t.hist 0x61 = 3 && histAt t.hist 0x62 = 1 && histAt t.hist 0x63 = 0) = true := by decide +kernel
-- V-H7: IBUF_CAP + 1
theorem test_histCount_too_long : after (exec .histCount { State.reset with inLen := 0x00100001 })
    (fun t => readReg .status t = 0x106 && t.errInfo = 1) = true := by decide +kernel
-- V-H8
theorem test_histClear : after (exec .histClear { State.reset with hist := histPut zeroHist 0x61 3 })
    (fun t => histAt t.hist 0x61 = 0) = true := by decide +kernel
-- V-H5
theorem test_histGet : after (exec (.histGet 0x41) { State.reset with hist := histPut zeroHist 0x41 4294967298 })
    (fun t => t.countLo = 2 && t.countHi = 1) = true := by decide +kernel
-- V-H4
theorem test_histSet : after (exec (.histSet 0x41) { State.reset with countLo := 2, countHi := 1 })
    (fun t => histAt t.hist 0x41 = 4294967298 && histAt t.hist 0x40 = 0) = true := by decide +kernel
-- V-B1
theorem test_treeBuild : after (exec .treeBuild { State.reset with hist := histPut (histPut zeroHist 0x61 3) 0x62 1 })
    (fun t => t.nodes = [{ leaf 0x61 with weight := 3 }, { leaf 0x62 with weight := 1 },
        { inner (some 1) (some 0) with weight := 4 }] && t.root = some 2 && t.cursor = some 2 && t.symCount = 2) = true := by
  decide +kernel
-- V-B2: the tie goes to the lower index
theorem test_treeBuild_tie : after (exec .treeBuild
      { State.reset with hist := histPut (histPut (histPut zeroHist 0x61 1) 0x62 1) 0x63 2 })
    (fun t => t.nodes.drop 3 = [{ inner (some 0) (some 1) with weight := 2 }, { inner (some 2) (some 3) with weight := 4 }])
      = true := by decide +kernel
-- R211's example: b "0", a "1"
theorem test_codeDerive : after (exec .codeDerive (withTree treeAB (some 0) State.reset))
    (fun t => codeAt t.code 0x61 = some [true] && codeAt t.code 0x62 = some [false] && codeAt t.code 0x63 = none) = true := by
  decide +kernel
-- V-C8: the first 0x41 wins, 0x42 below a leaf is not reached
theorem test_codeDerive_first : after (exec .codeDerive (withTree [inner (some 3) (some 1),
      { leaf 0x41 with left := some 2 }, leaf 0x42, leaf 0x41] (some 0) State.reset))
    (fun t => codeAt t.code 0x41 = some [false] && codeAt t.code 0x42 = none) = true := by decide +kernel
-- R215
theorem test_codeClear : after (exec .codeClear { State.reset with code := codeAB }) (fun t => codeAt t.code 0x61 = none) = true := by
  decide +kernel
-- V-C1: code "110"
theorem test_codeGet : after (exec (.codeGet 0x62) { State.reset with code := codePut emptyCode 0x62 [true, true, false] })
    (fun t => t.pathLen = 3 && readReg (.path 0) t = 3 && readReg .result t = 0xFFFF6201) = true := by decide +kernel
-- V-C4
theorem test_codeSet_empty : after (exec (.codeSet 0x41) State.reset)
    (fun t => readReg .status t = 0x506 && t.errInfo = 0x10000041) = true := by decide +kernel
-- R217's example: "01"
theorem test_codeSet : after (exec (.codeSet 0x7A) (withPath [false, true] State.reset))
    (fun t => codeAt t.code 0x7A = some [false, true]) = true := by decide +kernel
-- V-E1's table: 97:1-98:0
theorem test_tableSerialize : after (exec .tableSerialize { State.reset with code := codeAB })
    (fun t => t.tblLen = 9 && readBytes t tbufBase 9 = textAB) = true := by decide +kernel
-- R240's example: 0xE8
theorem test_pack : after (exec .pack { aaab with code := codeAB })
    (fun t => readByte t obufBase = 0xE8 && t.outLen = 1 && t.dataBits = 4 && t.initSize = 4 && t.compSize = 1) = true := by
  decide +kernel
-- V-E11: offset 2, byte 0x63
theorem test_pack_missing : after (exec .pack { withInput [0x61, 0x62, 0x63] State.reset with code := codeAB })
    (fun t => readReg .status t = 0x206 && t.errInfo = 0x263 && t.outLen = 0) = true := by decide +kernel
-- V-E1
theorem test_encode : after (exec .encode aaab)
    (fun t => readBytes t tbufBase 9 = textAB && t.tblLen = 9 && readByte t obufBase = 0xE8 && t.root = some 2) = true := by
  decide +kernel
-- V-E14 with the smallest OBUF: the table is already written
theorem test_encode_full : after (exec .encode
      { withInput [0x61, 0x61, 0x61, 0x61, 0x61, 0x61, 0x61, 0x62] State.reset with
        caps := { Config.defaultCaps with obufCap := 1 } })
    (fun t => readReg .status t = 0x106 && t.errInfo = 2 && t.tblLen = 9 && t.outLen = 0) = true := by decide +kernel
-- V-T18
theorem test_treeClear : after (exec .treeClear (withTree treeT1 (some 0) State.reset))
    (fun t => t.nodes = [inner none none] && t.root = some 0 && t.cursor = some 0) = true := by decide +kernel
-- V-T13: the implicit clear
theorem test_treeInsert : after (exec (.treeInsert 0x41) (withPath [true] State.reset))
    (fun t => t.nodes = [inner none (some 1), leaf 0x41] && t.root = some 0 && t.cursor = some 0) = true := by decide +kernel
-- V-T21, NODE_CAP - NODE_COUNT = 2 here with a small NODE_CAP
theorem test_treeInsert_full : after (exec (.treeInsert 5) (withPath [true, true, true]
      { withTree [inner none none] (some 0) State.reset with caps := { Config.defaultCaps with nodeCap := 3 } }))
    (fun t => readReg .status t = 0x706 && t.errInfo = 0 && t.nodes = [inner none (some 1), inner none (some 2), inner none none])
      = true := by decide +kernel
-- V-T2, V-T4
theorem test_treeSearch : after (exec .treeSearch (withPath [false, true, false] (withTree treeT1 (some 0) State.reset)))
    (fun t => readReg .result t = 0x00036103) = true := by decide +kernel
theorem test_treeSearch_absent : after (exec .treeSearch (withPath [true] (withTree treeT1 (some 0) State.reset)))
    (fun t => readReg .result t = 0xFFFF0000) = true := by decide +kernel
-- V-T8, V-T9
theorem test_treeStep : after (exec (.treeStep false) { withTree treeT1 (some 0) State.reset with cursor := some 1 })
    (fun t => t.cursor = some 5 && readReg .result t = 0x00056303) = true := by decide +kernel
theorem test_treeStep_absent : after (exec (.treeStep true) { withTree treeT1 (some 0) State.reset with cursor := some 5 })
    (fun t => t.cursor = some 5 && readReg .result t = 0xFFFF0000) = true := by decide +kernel
-- V-T10
theorem test_treeReset : after (exec .treeReset { withTree treeT1 (some 0) State.reset with cursor := some 5 })
    (fun t => t.cursor = some 0) = true := by decide +kernel
-- S1
theorem test_tableParse : after (exec .tableParse (withTable textT1 State.reset))
    (fun t => t.nodes = treeT1 && t.symCount = 3 && t.root = some 0 && t.cursor = some 0) = true := by decide +kernel
-- V-D7: `97`
theorem test_tableParse_cut : after (exec .tableParse (withTable [0x39, 0x37] State.reset))
    (fun t => readReg .status t = 0x406 && t.errInfo = 0x10000002 && t.root = none) = true := by decide +kernel
-- V-U1: "cab"
theorem test_unpack : after (exec .unpack (withInput [0x13, 0x80] (withTree treeT1 (some 0) State.reset)))
    (fun t => readBytes t obufBase 3 = [0x63, 0x61, 0x62] && t.outLen = 3 && t.dataBits = 8 && t.cursor = some 0) = true := by
  decide +kernel
-- V-U8: a cut code
theorem test_unpack_cut : after (exec .unpack (withInput [0x49, 0x80] (withTree treeT1 (some 0) State.reset)))
    (fun t => readReg .status t = 0x306 && t.errInfo = 0x40000008 && t.outLen = 2 && t.cursor = some 2) = true := by
  decide +kernel
-- R289's example
theorem test_decodeCommand : after (exec .decode (withInput [0xE8] (withTable textAB State.reset)))
    (fun t => readBytes t obufBase 4 = [0x61, 0x61, 0x61, 0x62] && t.outLen = 4 && t.symCount = 2 && t.cursor = some 0)
      = true := by decide +kernel
-- V-D21: `97:0-98:`
theorem test_decodeCommand_emptyCode : after (exec .decode (withTable [0x39, 0x37, 0x3A, 0x30, 0x2D, 0x39, 0x38, 0x3A] State.reset))
    (fun t => readReg .status t = 0x506 && t.errInfo = 0x20000001 && t.root = none) = true := by decide +kernel

/-! ## The host port -/

-- V-M1, V-M2
theorem test_hostWrite_littleEndian : readBytes (hostWrite 0x01000000 4 0x62616161 State.reset).1 ibufBase 4 =
    [0x61, 0x61, 0x61, 0x62] := by decide +kernel
-- V-M4 to V-M7
theorem test_busErrors : (hostRead 0x01000002 4 State.reset).2 = (0, .busErr) ∧ (hostRead 0x00000004 1 State.reset).2 = (0, .busErr) ∧
    (hostRead 0x00000FFC 4 State.reset).2 = (0, .busErr) ∧ (hostWrite 0x01100000 1 1 State.reset).2 = .busErr := by decide +kernel
-- V-M12
theorem test_pathLen_keeps_low_byte :
    (hostRead 0x034 4 (hostWrite 0x034 4 0x305 State.reset).1).2 = (5, .okay) := by decide +kernel
-- V-P12
theorem test_status_write :
    readReg .status (hostWrite statusAddress 4 0xF01 { State.reset with done := true, errCode := some .corruptStream }).1 =
      0x306 := by decide +kernel
-- 30_encoding.md R100: the host's first operation after reset is a CMD write, accepted in that step
theorem test_first_step : after (step (State.reset.withProgram (runOp .treeBuild)))
    (fun t => t.cmd = 0x20000000 && t.phase == .busy && t.host.pc = 1) = true := by decide +kernel
-- the word placed by withFetchWord is performed by the next step
theorem test_withFetchWord : after (step (State.reset.withFetchWord 32 0x50000000)) (fun t => t.root = some 0 && t.done) = true := by
  decide +kernel

/-! ## Witnesses: for each statement with hypotheses, states and operands that meet them all -/

theorem after_next {o : Host.Outcome State Fault Refusal} {p : State → Bool} (h : after o p = true) :
    ∃ t, o = .next t ∧ p t = true := by
  cases o with
  | next t => exact ⟨t, rfl, h⟩
  | fault f => simp [after] at h
  | refused r => simp [after] at h

/-- The tree of `97:1-98:0` is a tree: it is built by two insertions. -/
theorem treeOk_treeAB : TreeOk treeAB (some 0) := by
  have h1 := (insertPath_spec (cap := 65535) [true] (treeOk_single emptyNode rfl rfl) (q := []) (n := 0) rfl
    (by decide) (by decide)).1.setPayload 1 0x61
  exact (insertPath_spec (cap := 65535) [false] h1 (q := []) (n := 0) rfl (by decide) (by decide)).1.setPayload 2 0x62

/-- A state with the tree of `97:1-98:0`, its codes and "aaab" in IBUF. -/
def stateAB : State :=
  { withInput [0x61, 0x61, 0x61, 0x62] (withTree treeAB (some 0) State.reset) with
    code := (deriveTable treeAB (some 0)).getD emptyCode }

/-- A BUSY state that meets the invariant: a single leaf as the tree, TREE_STEP accepted. -/
def stateInv : State := { busy 0x53000000 with nodes := [leaf 0x61], root := some 0, cursor := some 0 }

theorem inv_stateInv : Inv stateInv := by
  refine ⟨by decide, ⟨List.Pairwise.nil, by simp [stateInv, busy, acceptCommand, State.reset, State.afterReset]⟩,
    ⟨fun _ => ⟨rfl, rfl⟩, fun _ => rfl, fun h => by simp [stateInv, busy, acceptCommand, State.reset, State.afterReset] at h⟩,
    ?_, treeOk_single _ rfl rfl, ?_, by decide, by decide⟩
  · intro b c h
    have : codeAt emptyCode b = some c := h
    simp at this
  · intro n h
    have : n = 0 := by simpa [stateInv, eq_comm] using h
    subst this
    decide

theorem witness_StepPerformsTheDecodedCommand_command :
    (busy 0x10000000).resetPin = false ∧ (busy 0x10000000).phase = .busy ∧ (busy 0x10000000).delay = 0 ∧
      decode (busy 0x10000000).cmd = .command .histCount := by decide +kernel
theorem witness_StepPerformsTheDecodedCommand_illegal :
    (busy 1).resetPin = false ∧ (busy 1).phase = .busy ∧ (busy 1).delay = 0 ∧
      decode (busy 1).cmd = .illegal .immediateNotZero := by decide +kernel
theorem witness_StepPerformsTheDecodedCommand_waiting :
    ({ busy 0 with delay := 1 }).resetPin = false ∧ ({ busy 0 with delay := 1 }).phase = .busy ∧
      ({ busy 0 with delay := 1 }).delay = 0 + 1 := by decide +kernel
theorem witness_StepPerformsTheDecodedCommand_host :
    State.reset.phase = .idle ∧ (assertReset State.reset).resetPin = true := by decide +kernel
/-- One operation of each kind. -/
def everyOp : List HostOp :=
  [.read 0x004 4, .write 0x01000000 1 0x61, .waitDone, .ifField 0 0 1 7, .goto 5, .assertReset, .releaseReset]

/-- A host at a place of that program. -/
def hostAt (k : Nat) (s : State) : State := { s with host := { s.host with prog := everyOp, pc := k } }

-- a place for each kind of operation, and the place after the last
theorem witness_StepPerformsTheDecodedCommand_turns :
    (List.range 8).map (fun k => (hostAt k State.reset).host.prog[(hostAt k State.reset).host.pc]?) =
      everyOp.map some ++ [none] := by decide +kernel
-- `wait` stays while BUSY and goes on in IDLE, a branch is taken on the last value read, a reset discards the command
theorem witness_StepPerformsTheDecodedCommand_moves :
    after (step (hostAt 2 { busy 0 with delay := 1 })) (fun t => t.host.pc = 2 && t.host.value = 1) = true ∧
      after (step (hostAt 2 State.reset)) (fun t => t.host.pc = 3 && t.host.response = some .okay) = true ∧
      after (step (hostAt 3 State.reset)) (fun t => t.host.pc = 4) = true ∧
      after (step (hostAt 5 { busy 0 with delay := 1 })) (fun t => t.host.pc = 6 && t.resetPin && t.phase == .idle) = true := by
  decide +kernel
theorem witness_IllegalWordRaisesIllegalCommand : decode (busy 0xFF000000).cmd = .illegal .opcodeUnassigned := by decide +kernel
theorem witness_CmdWriteWhileIdleIsAccepted : State.reset.resetPin = false ∧ State.reset.phase = .idle := by decide +kernel
theorem witness_NopCompletes : (0x00000001 : Word).extractLsb' 24 8 = 0x00 ∧ (0x00000001 : Word) ≠ 0x00000000 := by decide

-- while BUSY: a dropped write to the last OBUF byte, a read of each named register, a drawn read of CMD
theorem witness_BusyAccessesAreDroppedOrDrawn_write :
    (busy 0).resetPin = false ∧ (busy 0).phase = .busy ∧ placeOf (busy 0).caps 0x027FFFFF 1 = some (.buffer 0x027FFFFF) ∧
      Place.buffer 0x027FFFFF ≠ .register .status := by decide +kernel
theorem witness_BusyAccessesAreDroppedOrDrawn_read :
    (busy 0).resetPin = false ∧ (busy 0).phase = .busy ∧
      ∀ r ∈ [Reg.status, Reg.id, Reg.irqEn, Reg.ibufCap, Reg.obufCap, Reg.tbufCap, Reg.nodeCap],
        placeOf (busy 0).caps (BitVec.ofNat 32 r.offset) 4 = some (.register r) := by decide +kernel
theorem witness_BusyAccessesAreDroppedOrDrawn_drawn :
    placeOf (busy 0).caps 0x00000008 4 = some (.register .cmd) ∧
      ∀ r ∈ [Reg.status, Reg.id, Reg.irqEn, Reg.ibufCap, Reg.obufCap, Reg.tbufCap, Reg.nodeCap],
        Place.register .cmd ≠ .register r := by decide +kernel

-- BUSERR: a width of 2, misaligned by 1 and by 3, the last byte of the register range, one byte beyond IBUF, a 4-byte access whose
-- last byte is beyond a buffer of 2^20 - 1 bytes; no BUSERR: the last byte of IBUF, the last word of TBUF, PATH7
theorem witness_BusErrorsChangeNothing_errors :
    (hostRead 0x01000000 2 State.reset).2 = (0, .busErr) ∧ (hostRead 0x00000005 4 State.reset).2 = (0, .busErr) ∧
    (hostRead 0x01000003 4 State.reset).2 = (0, .busErr) ∧ (hostRead 0x00000FFF 1 State.reset).2 = (0, .busErr) ∧
    (hostRead 0x01100000 1 State.reset).2 = (0, .busErr) ∧ (hostRead 0x00000080 4 State.reset).2 = (0, .busErr) ∧
    (hostRead 0x010FFFFC 4 { State.reset with caps := { Config.defaultCaps with ibufCap := 1048575 } }).2 = (0, .busErr) := by
  decide +kernel
theorem witness_BusErrorsChangeNothing_answers :
    (hostRead 0x010FFFFF 1 State.reset).2.2 = .okay ∧ (hostRead 0x0300FFFC 4 State.reset).2.2 = .okay ∧
    (hostRead 0x0000007C 4 State.reset).2.2 = .okay ∧ (hostWrite 0x010FFFFF 1 0 State.reset).2 = .okay := by decide +kernel
-- the first word of IBUF, the last word of OBUF, the last byte of TBUF
theorem witness_BufferAccessesAreLittleEndian :
    Memory.wf State.reset.mem ∧ State.reset.resetPin = false ∧ State.reset.phase = .idle ∧
      (0x01000000 ≤ (0x01000000 : Word).toNat ∧ (0x01000000 : Word).toNat + 4 ≤ 0x01000000 + State.reset.caps.ibufCap) ∧
      (0x02000000 ≤ (0x027FFFFC : Word).toNat ∧ (0x027FFFFC : Word).toNat + 4 ≤ 0x02000000 + State.reset.caps.obufCap) ∧
      (0x027FFFFC : Word).toNat % 4 = 0 ∧
      (0x03000000 ≤ (0x0300FFFF : Word).toNat ∧ (0x0300FFFF : Word).toNat + 1 ≤ 0x03000000 + State.reset.caps.tbufCap) := by
  decide +kernel
theorem witness_StatusReadsAndClears : (busy 0).resetPin = false ∧ State.reset.resetPin = false := by decide +kernel
theorem witness_RegistersReadBackAsTheirAccessTypeSays :
    State.reset.resetPin = false ∧ State.reset.phase = .idle ∧ (∃ k, Reg.path 7 = .path k) :=
  ⟨rfl, rfl, 7, rfl⟩
-- NIL and an index, at both ends of the range; and V-T2's RESULT read at 0x038, NODE_COUNT at 0x044
theorem witness_RegistersReadBackAsTheirAccessTypeSays_nodes :
    State.reset.cursor = none ∧ State.reset.result.node = none ∧
      (withTree treeT1 (some 0) State.reset).root = some 0 ∧ (0 : Nat) < 0xFFFF ∧ (65534 : Nat) < 0xFFFF ∧
      (withTree treeT1 (some 0) State.reset).nodes.length ≤ 0xFFFF ∧
      after (exec .treeSearch (withPath [false, true, false] (withTree treeT1 (some 0) State.reset)))
        (fun t => t.result.node = some 3 && (hostRead 0x038 4 t).2 = (0x00036103, .okay) && (hostRead 0x044 4 t).2 = (6, .okay))
          = true := by decide +kernel
theorem witness_CompletionRaisesIrqWhenEnabled :
    (∃ t, exec (.histGet 0) State.reset = .next t) ∧ (0x2 : Word).getLsbD 1 = true ∧ (0x2 : Word).getLsbD 0 = false ∧
      State.reset.resetPin = false :=
  ⟨⟨_, rfl⟩, by decide, by decide, rfl⟩
theorem witness_RegistersAfterReset :
    (busy 0x4F000000).resetPin = false ∧ (assertReset (busy 0x4F000000)).caps = (busy 0x4F000000).caps := ⟨rfl, rfl⟩
theorem witness_ResetEventDiscardsEverything : (busy 0x4F000000).resetPin = false := rfl

-- IN_LEN at and one above IBUF_CAP
theorem witness_HistCountCountsTheInput :
    State.reset.caps.Legal ∧ ({ State.reset with inLen := 0x00100000 }).inLen.toNat ≤ State.reset.caps.ibufCap ∧
      State.reset.caps.ibufCap < ({ State.reset with inLen := 0x00100001 }).inLen.toNat := by decide +kernel

/-- HIST with "a" 3 times and "b" once. -/
def histAB : Histogram := histPut (histPut zeroHist 0x61 3) 0x62 1

theorem witness_BuiltTreeShape :
    ∃ t, exec .treeBuild { State.reset with hist := histAB } = .next t ∧
      2 = allSymbols.countP (fun b => histAt histAB b ≠ 0) ∧ 1 ≤ 2 ∧ walk t [true] = some 0 ∧ 0 < 2 := by
  obtain ⟨t, h, hp⟩ := after_next (o := exec .treeBuild { State.reset with hist := histAB })
    (p := fun t => walk t [true] = some 0) (by decide +kernel)
  exact ⟨t, h, by decide +kernel, by decide, by simpa using hp, by decide⟩
theorem witness_BuiltWeightsNeverWrap :
    ∃ t, exec .treeBuild { State.reset with hist := histAB } = .next t ∧ t.root = some 2 ∧ (nodeAt t.nodes 2).left = some 1 ∧
      (nodeAt t.nodes 2).right = some 0 ∧ (nodeAt t.nodes 0).payload = some 0x61 ∧ t.nodes.length = 3 := by
  obtain ⟨t, h, hp⟩ := after_next (o := exec .treeBuild { State.reset with hist := histAB })
    (p := fun t => t.root = some 2 && (nodeAt t.nodes 2).left = some 1 && (nodeAt t.nodes 2).right = some 0 &&
      (nodeAt t.nodes 0).payload = some 0x61 && t.nodes.length = 3) (by decide +kernel)
  simp only [Bool.and_eq_true, decide_eq_true_eq] at hp
  exact ⟨t, h, hp.1.1.1.1, hp.1.1.1.2, hp.1.1.2, hp.1.2, hp.2⟩
theorem witness_QueueMinimumByWeightThenIndex : minKey [leaf 0x61, leaf 0x62] [1, 0] = some 0 := by decide +kernel
-- R198's first case: a = 1, b = 1, c = 2
theorem witness_QueueMinimumByWeightThenIndex_build :
    (let h := histPut (histPut (histPut zeroHist 0x61 1) 0x62 1) 0x63 2
     [0x61, 0x62, 0x63] = ((List.range 256).map (BitVec.ofNat 8)).filter (fun b => histAt h b ≠ 0) ∧
      after (exec .treeBuild { State.reset with hist := h })
        (fun t => t.nodes.length = 5 && (nodeAt t.nodes 3).left = some 0 && (nodeAt t.nodes 3).right = some 1 &&
          (nodeAt t.nodes 4).left = some 2 && (nodeAt t.nodes 4).right = some 3) = true) := by decide +kernel
theorem witness_SmallAlphabets_none :
    (∃ t, exec .treeBuild State.reset = .next t) ∧ ∀ b, histAt State.reset.hist b = 0 :=
  ⟨⟨_, rfl⟩, histAt_zeroHist⟩
theorem witness_SmallAlphabets_one :
    (∃ t, exec .treeBuild { State.reset with hist := histPut zeroHist 0x7A 3 } = .next t) ∧
      histAt (histPut zeroHist 0x7A 3) 0x7A ≠ 0 ∧ ∀ b, b ≠ 0x7A → histAt (histPut zeroHist 0x7A 3) b = 0 := by
  refine ⟨⟨_, rfl⟩, by decide +kernel, ?_⟩
  intro b hb
  rw [histAt_histPut, if_neg hb, histAt_zeroHist]

theorem witness_CodeDeriveCompletes : TreeOk stateAB.nodes stateAB.root := treeOk_treeAB
theorem witness_DerivedCodesAreFirstPayloadPaths :
    TreeOk stateAB.nodes stateAB.root ∧ ∃ t, exec .codeDerive stateAB = .next t ∧ codeAt t.code 0x61 = some [true] ∧
      codeAt t.code 0x63 = none := by
  obtain ⟨t, h, hp⟩ := after_next (o := exec .codeDerive stateAB)
    (p := fun t => codeAt t.code 0x61 = some [true] && codeAt t.code 0x63 = none) (by decide +kernel)
  simp only [Bool.and_eq_true, decide_eq_true_eq] at hp
  exact ⟨treeOk_treeAB, t, h, hp.1, hp.2⟩
theorem witness_DegenerateRootGetsTheOneBitCode :
    (withTree [leaf 0x7A] (some 0) State.reset).root = some 0 ∧
      (nodeAt (withTree [leaf 0x7A] (some 0) State.reset).nodes 0).payload = some 0x7A ∧
      ∃ t, exec .codeDerive (withTree [leaf 0x7A] (some 0) State.reset) = .next t := by
  refine ⟨rfl, rfl, ?_⟩
  obtain ⟨t, h, -⟩ := after_next (o := exec .codeDerive (withTree [leaf 0x7A] (some 0) State.reset)) (p := fun _ => true)
    (by decide +kernel)
  exact ⟨t, h⟩
-- a code of 255 bits, and an invalid entry
theorem witness_CodeGetShowsTheCode :
    codeAt (codePut emptyCode 0xFF (List.replicate 255 true)) 0xFF = some (List.replicate 255 true) ∧
      (List.replicate 255 true).length ≤ Config.maxCodeLen ∧
      codeAt (codePut emptyCode 0xFF (List.replicate 255 true)) 0x61 = none := by decide +kernel
theorem witness_CodeSetStoresThePath :
    State.reset.pathLen = 0 ∧ (withPath (List.replicate 255 true) State.reset).pathLen ≠ 0 ∧ (0x40 : Byte) ≠ 0x41 := by
  decide +kernel
-- a text that just fits TBUF, and one that is one character too long
theorem witness_TableSerializeWritesTheText :
    ({ Config.defaultCaps with tbufCap := 9 } : Caps).Legal ∧ ({ Config.defaultCaps with tbufCap := 8 } : Caps).Legal ∧
      Memory.wf State.reset.mem ∧ (tableText codeAB).length = 9 ∧
      tableText codeAB = List.intercalate [0x2D] (allSymbols.filterMap (fun b => (codeAt codeAB b).map (fun c =>
        (Nat.toDigits 10 b.toNat).map (fun ch => BitVec.ofNat 8 ch.toNat) ++ [0x3A] ++
          c.map (fun x => if x then 0x31 else 0x30)))) := by decide +kernel
-- IN_LEN above IBUF; every symbol coded with 8 data bits, which need 2 bytes: OBUF of 2 and of 1
theorem witness_PackWritesTheStream :
    ({ Config.defaultCaps with obufCap := 2 } : Caps).Legal ∧ ({ Config.defaultCaps with obufCap := 1 } : Caps).Legal ∧
      Config.defaultCaps.ibufCap < (0x00100001 : Word).toNat ∧ Memory.wf stateAB.mem ∧
      stateAB.inLen.toNat ≤ stateAB.caps.ibufCap ∧ (∀ b ∈ inputBytes stateAB, codeAt stateAB.code b ≠ none) ∧
      ((inputBytes (withInput [0x61, 0x61, 0x61, 0x61, 0x61, 0x61, 0x61, 0x62] stateAB)).flatMap
        (fun b => (codeAt stateAB.code b).getD [])).length / 8 + 1 = 2 := by decide +kernel
theorem witness_MissingSymbolIsTheFirstOne :
    stateAB.caps.Legal ∧ (withInput [0x61, 0x62, 0x63] stateAB).inLen.toNat ≤ stateAB.caps.ibufCap ∧
      2 < (withInput [0x61, 0x62, 0x63] stateAB).inLen.toNat ∧
      (0x63 : Byte) = readByte (withInput [0x61, 0x62, 0x63] stateAB) (0x01000000 + 2) ∧
      codeAt stateAB.code 0x63 = none ∧
      ∀ j, j < 2 → codeAt stateAB.code (readByte (withInput [0x61, 0x62, 0x63] stateAB) (0x01000000 + j)) ≠ none := by
  decide +kernel

/-- The tree and the table of "aaab". -/
def builtAB : List Node × Option Nat := buildTree (countBytes [0x61, 0x61, 0x61, 0x62])
def tableAB : CodeTable := (deriveTable builtAB.1 builtAB.2).getD emptyCode

theorem derive_builtAB : deriveTable builtAB.1 builtAB.2 = some tableAB := by
  have h : (deriveTable builtAB.1 builtAB.2).isSome = true := by decide +kernel
  obtain ⟨x, hx⟩ := Option.isSome_iff_exists.1 h
  simp [tableAB, hx]

theorem witness_EncodeCompletes :
    aaab.caps.Legal ∧ Memory.wf aaab.mem ∧ aaab.inLen.toNat ≤ aaab.caps.ibufCap ∧
      [0x61, 0x61, 0x61, 0x62] = inputBytes aaab ∧ deriveTable builtAB.1 builtAB.2 = some tableAB ∧
      (tableText tableAB).length ≤ aaab.caps.tbufCap ∧
      (packBits (paddedBits (codedBits tableAB [0x61, 0x61, 0x61, 0x62]))).length ≤ aaab.caps.obufCap := by
  refine ⟨by decide +kernel, by decide +kernel, by decide +kernel, by decide +kernel, derive_builtAB, by decide +kernel,
    by decide +kernel⟩

-- IN_LEN one above IBUF_CAP; the 9 characters of the table in a TBUF of 8; 8 data bits, which need 2 bytes, in an OBUF of 1
theorem witness_EncodeCompletes_errors :
    aaab.caps.ibufCap < ({ aaab with inLen := 0x00100001 }).inLen.toNat ∧
      ({ Config.defaultCaps with tbufCap := 8 } : Caps).Legal ∧ 8 < (tableText tableAB).length ∧
      ({ Config.defaultCaps with obufCap := 1 } : Caps).Legal ∧
      (let x : List Byte := [0x61, 0x61, 0x61, 0x61, 0x61, 0x61, 0x61, 0x62]
       x = inputBytes (withInput x State.reset) ∧
        ∃ tbl, deriveTable (buildTree (countBytes x)).1 (buildTree (countBytes x)).2 = some tbl ∧
          (tableText tbl).length ≤ Config.defaultCaps.tbufCap ∧ 1 < (packBits (paddedBits (codedBits tbl x))).length) := by
  refine ⟨by decide +kernel, by decide +kernel, by decide +kernel, by decide +kernel, by decide +kernel, ?_⟩
  have h : (deriveTable (buildTree (countBytes [0x61, 0x61, 0x61, 0x61, 0x61, 0x61, 0x61, 0x62])).1
      (buildTree (countBytes [0x61, 0x61, 0x61, 0x61, 0x61, 0x61, 0x61, 0x62])).2).any (fun tbl =>
        decide ((tableText tbl).length ≤ Config.defaultCaps.tbufCap) &&
          decide (1 < (packBits (paddedBits (codedBits tbl [0x61, 0x61, 0x61, 0x61, 0x61, 0x61, 0x61, 0x62]))).length)) = true := by
    decide +kernel
  obtain ⟨tbl, h1, h2⟩ := (Option.any_eq_true _ _).1 h
  simp only [Bool.and_eq_true, decide_eq_true_eq] at h2
  exact ⟨tbl, h1, h2⟩

-- an empty tree, and room for exactly the nodes that are missing
theorem witness_TreeInsertPlacesThePayload :
    TreeOk State.reset.nodes State.reset.root ∧
      (List.range ((pathOperand (withPath [true] State.reset)).length + 1)).countP
        (fun k => walk (withPath [true] State.reset) ((pathOperand (withPath [true] State.reset)).take k) = none) = 2 ∧
      State.reset.nodes.length + 2 ≤ State.reset.caps.nodeCap := by
  refine ⟨treeOk_empty, by decide +kernel, by decide +kernel⟩
-- R145's example: after TREE_CLEAR the path "010" makes nodes 1, 2 and 3
theorem witness_TreeInsertPlacesThePayload_numbers :
    after (exec (.treeInsert 97) (withPath [false, true, false] (clearTree State.reset)))
      (fun t => walk t [false] = some 1 && walk t [false, true] = some 2 && walk t [false, true, false] = some 3 &&
        (nodeAt t.nodes 3).payload = some 97 && t.nodes.length = 4) = true := by decide +kernel
-- one node short
theorem witness_TreeInsertAtCapacity :
    TreeOk [emptyNode] (some 0) ∧
      (let s := withPath [true, true] { withTree [emptyNode] (some 0) State.reset with
          caps := { Config.defaultCaps with nodeCap := 2 } }
       s.root ≠ none ∧ s.nodes.length ≤ s.caps.nodeCap ∧
        s.caps.nodeCap < s.nodes.length +
          (List.range ((pathOperand s).length + 1)).countP (fun k => walk s ((pathOperand s).take k) = none)) :=
  ⟨treeOk_single _ rfl rfl, by decide +kernel⟩
theorem witness_TreeSearchReportsTheNode :
    walk (withPath [false, true, false] (withTree treeT1 (some 0) State.reset))
        (pathOperand (withPath [false, true, false] (withTree treeT1 (some 0) State.reset))) = some 3 ∧
      walk State.reset (pathOperand State.reset) = none := by decide +kernel
theorem witness_TreeStepMovesTheCursor :
    State.reset.cursor = none ∧ (withTree treeT1 (some 0) State.reset).cursor = some 0 ∧
      (nodeAt (withTree treeT1 (some 0) State.reset).nodes 0).right = none ∧
      (nodeAt (withTree treeT1 (some 0) State.reset).nodes 0).left = some 1 := by decide +kernel
theorem witness_TreeResetReturnsTheCursor :
    State.reset.root = none ∧ ∃ t u, exec .treeReset State.reset = .next t ∧ exec (.treeStep true) t = .next u :=
  ⟨rfl, _, _, rfl, rfl⟩

theorem witness_TableParseLoadsTheEntries :
    (withTable textAB State.reset).caps.Legal ∧
      (withTable textAB State.reset).tblLen.toNat ≤ (withTable textAB State.reset).caps.tbufCap ∧
      parseTable (tableBytes (withTable textAB State.reset)) = .entries [(0x61, [true]), (0x62, [false])] ∧
      (∀ e ∈ [((0x61 : Byte), [true]), (0x62, [false])], e.2 ≠ []) := by decide +kernel
-- S1's nodes: the text needs 0, 01, 010, then 011, then 00
theorem witness_TableParseLoadsTheEntries_numbers :
    after (exec .tableParse (withTable textT1 State.reset))
      (fun t => [[], [false], [false, true], [false, true, false], [false, true, true], [false, false]].map (walk t) =
        [some 0, some 1, some 2, some 3, some 4, some 5]) = true := by decide +kernel
-- TBL_LEN one above TBUF_CAP, a malformed text, a text with an empty code
theorem witness_FailedParseKeepsTheTree :
    State.reset.caps.Legal ∧ State.reset.caps.tbufCap < ({ State.reset with tblLen := 0x00010001 }).tblLen.toNat ∧
      parseTable (tableBytes (withTable [0x39, 0x37] State.reset)) = .malformed { cause := .grammar, position := 2 } ∧
      ∃ t, State.reset.errCode = none ∧ exec .tableParse (withTable [0x39, 0x37] State.reset) = .next t ∧ t.errCode ≠ none := by
  refine ⟨by decide +kernel, by decide +kernel, by decide +kernel, ?_⟩
  obtain ⟨t, h, hp⟩ := after_next (o := exec .tableParse (withTable [0x39, 0x37] State.reset))
    (p := fun t => t.errCode ≠ none) (by decide +kernel)
  exact ⟨t, rfl, h, by simpa using hp⟩
-- an empty code among two entries
theorem witness_FailedParseKeepsTheTree_emptyCode :
    parseTable [0x39, 0x37, 0x3A, 0x30, 0x2D, 0x39, 0x38, 0x3A] = .entries [(0x61, [false]), (0x62, [])] := by decide +kernel

/-- What a clause about a violation asks of a text: whole entries, then digits, then the rest. -/
abbrev splitsInto (text : List Byte) (raw : List (List Byte × Byte × BitString)) (ds tail : List Byte) : Prop :=
  (withTable text State.reset).tblLen.toNat ≤ State.reset.caps.tbufCap ∧ tableBytes (withTable text State.reset) ≠ [] ∧
    (∀ e ∈ raw, 1 ≤ e.1.length ∧ e.1.length ≤ 3 ∧ (∀ ch ∈ e.1, 0x30 ≤ ch.toNat ∧ ch.toNat ≤ 0x39) ∧
      decimalFrom 0 e.1 = e.2.1.toNat ∧ e.2.2.length ≤ 255) ∧
    (raw.map (fun e => e.2.1)).Nodup ∧
    tableBytes (withTable text State.reset) = raw.flatMap entryPiece ++ ds ++ tail ∧
    ∀ ch ∈ ds, 0x30 ≤ ch.toNat ∧ ch.toNat ≤ 0x39

/-- TABLE_PARSE of a text records MALFORMED_TABLE with this ERR_INFO. -/
def malformedWith (text : List Byte) (info : Word) : Bool :=
  after (exec .tableParse (withTable text State.reset)) (fun t => t.errCode = some .malformedTable && t.errInfo = info)

/-- The entry `97:0`. -/
def entryA : List Byte × Byte × BitString := ([0x39, 0x37], 0x61, [false])

-- V-D17 behind an entry: `97:0-1000`
theorem witness_FailedParseKeepsTheTree_fourthDigit :
    splitsInto [0x39, 0x37, 0x3A, 0x30, 0x2D, 0x31, 0x30, 0x30, 0x30] [entryA] [0x31, 0x30, 0x30, 0x30] [] ∧
      malformedWith [0x39, 0x37, 0x3A, 0x30, 0x2D, 0x31, 0x30, 0x30, 0x30] 0x20000005 = true := by decide +kernel
-- V-D8: `97:0-`
theorem witness_FailedParseKeepsTheTree_noDigit :
    splitsInto [0x39, 0x37, 0x3A, 0x30, 0x2D] [entryA] [] [] ∧
      malformedWith [0x39, 0x37, 0x3A, 0x30, 0x2D] 0x10000005 = true := by decide +kernel
-- V-D16: `256:0`
theorem witness_FailedParseKeepsTheTree_value :
    splitsInto [0x32, 0x35, 0x36, 0x3A, 0x30] [] [0x32, 0x35, 0x36] [0x3A, 0x30] ∧ 255 < decimalFrom 0 [0x32, 0x35, 0x36] ∧
      malformedWith [0x32, 0x35, 0x36, 0x3A, 0x30] 0x20000000 = true := by decide +kernel
-- V-D13: `97;0`
theorem witness_FailedParseKeepsTheTree_colon :
    splitsInto [0x39, 0x37, 0x3B, 0x30] [] [0x39, 0x37] [0x3B, 0x30] ∧ decimalFrom 0 [0x39, 0x37] ≤ 255 ∧
      malformedWith [0x39, 0x37, 0x3B, 0x30] 0x10000002 = true := by decide +kernel
-- V-D19: `1:` then 256 zeros
theorem witness_FailedParseKeepsTheTree_tooLong :
    splitsInto (0x31 :: 0x3A :: List.replicate 256 0x30) [] [0x31]
        (0x3A :: bitText (List.replicate 255 false) ++ [0x30]) ∧
      malformedWith (0x31 :: 0x3A :: List.replicate 256 0x30) 0x30000101 = true := by decide +kernel
-- V-D20: `97:0-97:1`
theorem witness_FailedParseKeepsTheTree_duplicate :
    splitsInto [0x39, 0x37, 0x3A, 0x30, 0x2D, 0x39, 0x37, 0x3A, 0x31] [entryA] [0x39, 0x37] (0x3A :: bitText [true] ++ []) ∧
      entryA.2.1.toNat = decimalFrom 0 [0x39, 0x37] ∧
      malformedWith [0x39, 0x37, 0x3A, 0x30, 0x2D, 0x39, 0x37, 0x3A, 0x31] 0x40000005 = true := by decide +kernel
-- V-D14: `97:2`
theorem witness_FailedParseKeepsTheTree_afterBits :
    splitsInto [0x39, 0x37, 0x3A, 0x32] [] [0x39, 0x37] (0x3A :: bitText [] ++ [0x32]) ∧
      malformedWith [0x39, 0x37, 0x3A, 0x32] 0x10000003 = true := by decide +kernel
theorem witness_EmptyCodesAreRejectedOrReadAsZero :
    parseTable [0x39, 0x37, 0x3A, 0x30, 0x2D, 0x39, 0x38, 0x3A] = .entries [(0x61, [false]), (0x62, [])] ∧
      ([((0x61 : Byte), [false]), (0x62, [])].map (fun e => e.2))[1]? = some [] ∧
      (∀ k, k < 1 → ([((0x61 : Byte), [false]), (0x62, [])].map (fun e => e.2))[k]? ≠ some []) ∧
      tableBytes (withTable textA State.reset) = textA ∧ parseTable textA = .entries [(0x61, [])] := by decide +kernel

-- IN_LEN one above IBUF_CAP, 0, and a last byte 0
theorem witness_UnpackChecksItsInput :
    State.reset.caps.Legal ∧ State.reset.caps.ibufCap < ({ State.reset with inLen := 0x00100001 }).inLen.toNat ∧
      State.reset.inLen = 0 ∧ (withInput [0x13, 0x00] State.reset).inLen ≠ 0 ∧
      (withInput [0x13, 0x00] State.reset).inLen.toNat ≤ State.reset.caps.ibufCap ∧
      readByte (withInput [0x13, 0x00] State.reset) (0x01000000 + ((withInput [0x13, 0x00] State.reset).inLen.toNat - 1)) = 0 := by
  decide +kernel

/-- 0xE8 in IBUF and the tree of `97:1-98:0`: "aaab". -/
def packedAB : State := withInput [0xE8] (withTree treeAB (some 0) State.reset)

theorem walk_treeAB_one (q : BitString) (n : Nat) (b : Bool) (h : q <+: [b]) (hne : q ≠ [b])
    (hw : walk packedAB q = some n) : (nodeAt packedAB.nodes n).payload = none := by
  have hq : q = [] := by
    rcases List.prefix_cons_iff.1 h with h | ⟨t, rfl, ht⟩
    · exact h
    · exact absurd (by simpa using ht) hne
  subst hq
  have : some 0 = some n := hw
  have : n = 0 := by simpa [eq_comm] using this
  subst this
  rfl

theorem witness_UnpackDecodesConcatenatedCodes :
    packedAB.caps.Legal ∧ Memory.wf packedAB.mem ∧ packedAB.inLen.toNat ≤ packedAB.caps.ibufCap ∧ packedAB.inLen ≠ 0 ∧
      lowestSetBit (readByte packedAB (0x01000000 + (packedAB.inLen.toNat - 1))) = some 3 ∧
      (∀ r, packedAB.root = some r → (nodeAt packedAB.nodes r).payload = none) ∧
      (∀ e ∈ [((0x61 : Byte), [true]), (0x61, [true]), (0x61, [true]), (0x62, [false])],
        (∃ n, walk packedAB e.2 = some n ∧ (nodeAt packedAB.nodes n).payload = some e.1) ∧
        ∀ q n, q <+: e.2 → q ≠ e.2 → walk packedAB q = some n → (nodeAt packedAB.nodes n).payload = none) ∧
      (streamBits (inputBytes packedAB)).take (8 * packedAB.inLen.toNat - (3 + 1)) =
        ([((0x61 : Byte), [true]), (0x61, [true]), (0x61, [true]), (0x62, [false])].map (fun e => e.2)).flatten := by
  refine ⟨by decide +kernel, by decide +kernel, by decide +kernel, by decide +kernel, by decide +kernel, ?_, ?_,
    by decide +kernel⟩
  · intro r hr
    have : r = 0 := by simpa [packedAB, withInput, withTree, eq_comm] using hr
    subst this
    rfl
  · intro e he
    simp only [List.mem_cons, List.not_mem_nil, or_false] at he
    rcases he with rfl | rfl | rfl | rfl
    · exact ⟨⟨1, rfl, rfl⟩, fun q n h hne => walk_treeAB_one q n _ h hne⟩
    · exact ⟨⟨1, rfl, rfl⟩, fun q n h hne => walk_treeAB_one q n _ h hne⟩
    · exact ⟨⟨1, rfl, rfl⟩, fun q n h hne => walk_treeAB_one q n _ h hne⟩
    · exact ⟨⟨2, rfl, rfl⟩, fun q n h hne => walk_treeAB_one q n _ h hne⟩
-- 0x10 is three 0 bits, 0x30 has its first 1 bit at position 2
theorem witness_DegenerateTreeDecodesZeroBits :
    (withTree [leaf 0x7A] (some 0) State.reset).root = some 0 ∧ (nodeAt [leaf 0x7A] 0).payload = some 0x7A ∧
      lowestSetBit (readByte (withInput [0x10] State.reset) (0x01000000 + 0)) = some 4 ∧ 3 = 8 * 1 - (4 + 1) ∧
      (∀ i, i < 3 → (streamBits (inputBytes (withInput [0x10] State.reset))).getD i false = false) ∧
      (streamBits (inputBytes (withInput [0x30] State.reset))).getD 2 false = true ∧
      (∀ j, j < 2 → (streamBits (inputBytes (withInput [0x30] State.reset))).getD j false = false) ∧
      Memory.wf (withInput [0x10] State.reset).mem := by decide +kernel
-- three 0 bits for an OBUF of two bytes
theorem witness_DegenerateTreeDecodesZeroBits_full :
    (let s := { withInput [0x10] (withTree [leaf 0x7A] (some 0) State.reset) with caps := { Config.defaultCaps with obufCap := 2 } }
     s.caps.Legal ∧ Memory.wf s.mem ∧ s.inLen.toNat ≤ s.caps.ibufCap ∧ s.inLen ≠ 0 ∧ s.caps.obufCap < 3 ∧
      (∀ j, j ≤ s.caps.obufCap → (streamBits (inputBytes s)).getD j false = false) ∧
      after (exec .unpack s) (fun t => readReg .status t = 0x106 && t.errInfo = 2 && t.outLen = 2 && t.cursor = some 0) =
        true) := by decide +kernel
-- V-U7 (a cut code), V-U6 (a missing child), V-U18 (no tree), V-U20 (OBUF of two bytes)
theorem witness_UnpackStopsAtTheFirstBadBit_cut :
    (streamBits (inputBytes (withInput [0x40] State.reset))).take (8 * 1 - (6 + 1)) = ([] : BitString) ++ [false] ∧
      lowestSetBit (readByte (withInput [0x40] State.reset) (0x01000000 + 0)) = some 6 ∧
      walk (withTree treeT1 (some 0) State.reset) [false] = some 1 ∧
      (withTree treeT1 (some 0) State.reset).root ≠ some 1 ∧ (nodeAt treeT1 0).payload = none ∧
      (nodeAt treeT1 1).payload = none := by decide +kernel
theorem witness_UnpackStopsAtTheFirstBadBit_missing :
    (streamBits (inputBytes (withInput [0xC0] State.reset))).take (8 * 1 - (6 + 1)) = ([] : BitString) ++ true :: [] ∧
      walk (withTree treeT1 (some 0) State.reset) [] = some 0 ∧
      child (withTree treeT1 (some 0) State.reset).nodes 0 true = none ∧ State.reset.root = none := by decide +kernel
theorem witness_UnpackStopsAtTheFirstBadBit_full :
    (streamBits (inputBytes packedAB)).take (8 * 1 - (3 + 1)) = [true, true] ++ ([true] ++ [false]) ∧
      walk packedAB [true] = some 1 ∧ (nodeAt packedAB.nodes 1).payload = some 0x61 ∧
      ({ Config.defaultCaps with obufCap := 2 } : Caps).Legal := by decide +kernel

theorem witness_DecodeRunsItsSequence_error :
    ∃ t, State.reset.errCode = none ∧ exec .tableParse (withTable [0x39, 0x37] State.reset) = .next t ∧ t.errCode ≠ none := by
  obtain ⟨t, h, hp⟩ := after_next (o := exec .tableParse (withTable [0x39, 0x37] State.reset))
    (p := fun t => t.errCode ≠ none) (by decide +kernel)
  exact ⟨t, rfl, h, by simpa using hp⟩
theorem witness_DecodeRunsItsSequence_success :
    ∃ t, State.reset.errCode = none ∧ exec .tableParse (withTable textAB State.reset) = .next t ∧ t.errCode = none := by
  obtain ⟨t, h, hp⟩ := after_next (o := exec .tableParse (withTable textAB State.reset))
    (p := fun t => t.errCode = none) (by decide +kernel)
  exact ⟨t, rfl, h, by simpa using hp⟩
theorem witness_DecodeCompletesOnAPrefixFreeTable :
    (let s := withInput [0xE8] (withTable textAB State.reset)
     s.caps.Legal ∧ Memory.wf s.mem ∧ s.tblLen.toNat ≤ s.caps.tbufCap ∧
      parseTable (tableBytes s) = .entries [(0x61, [true]), (0x62, [false])] ∧ s.inLen.toNat ≤ s.caps.ibufCap ∧ s.inLen ≠ 0 ∧
      lowestSetBit (readByte s (0x01000000 + (s.inLen.toNat - 1))) = some 3 ∧
      (streamBits (inputBytes s)).take (8 * s.inLen.toNat - (3 + 1)) =
        ([((0x61 : Byte), [true]), (0x61, [true]), (0x61, [true]), (0x62, [false])].map (fun e => e.2)).flatten) ∧
      ∀ e ∈ [((0x61 : Byte), [true]), (0x62, [false])], ∀ e' ∈ [((0x61 : Byte), [true]), (0x62, [false])],
        e.2 <+: e'.2 → e = e' := by decide +kernel

theorem witness_UnpackInvertsPack :
    stateAB.caps.Legal ∧ Memory.wf stateAB.mem ∧ TreeOk stateAB.nodes stateAB.root ∧
      deriveTable stateAB.nodes stateAB.root = some stateAB.code ∧ stateAB.errCode = none ∧
      stateAB.inLen.toNat ≤ stateAB.caps.obufCap ∧ Memory.wf packedAB.mem ∧ packedAB.caps = stateAB.caps ∧
      packedAB.nodes = stateAB.nodes ∧ packedAB.root = stateAB.root ∧ packedAB.errCode = none ∧
      ∃ t, exec .pack stateAB = .next t ∧ t.errCode = none ∧ t.outLen.toNat ≤ stateAB.caps.ibufCap ∧ packedAB.inLen = t.outLen ∧
        inputBytes packedAB = readBytes t 0x02000000 t.outLen.toNat := by
  refine ⟨by decide +kernel, by decide +kernel, treeOk_treeAB, ?_, rfl, by decide +kernel, by decide +kernel, rfl, rfl, rfl, rfl, ?_⟩
  · have h : (deriveTable treeAB (some 0)).isSome = true := by decide +kernel
    obtain ⟨x, hx⟩ := Option.isSome_iff_exists.1 h
    show deriveTable treeAB (some 0) = some ((deriveTable treeAB (some 0)).getD emptyCode)
    simp [hx]
  · obtain ⟨t, h, hp⟩ := after_next (o := exec .pack stateAB)
      (p := fun t => t.errCode = none && t.outLen.toNat ≤ stateAB.caps.ibufCap && packedAB.inLen = t.outLen &&
        inputBytes packedAB = readBytes t 0x02000000 t.outLen.toNat) (by decide +kernel)
    simp only [Bool.and_eq_true, decide_eq_true_eq] at hp
    exact ⟨t, h, hp.1.1.1, hp.1.1.2, hp.1.2, hp.2⟩

/-- The packed byte of "aaab" in IBUF and its table in TBUF. -/
def receivedAB : State := withInput [0xE8] (withTable textAB State.reset)

theorem witness_DecodeInvertsEncode :
    aaab.caps.Legal ∧ Memory.wf aaab.mem ∧ aaab.inLen.toNat ≤ aaab.caps.ibufCap ∧ aaab.inLen.toNat ≤ aaab.caps.obufCap ∧
      aaab.errCode = none ∧ Memory.wf receivedAB.mem ∧ receivedAB.caps = aaab.caps ∧ receivedAB.errCode = none ∧
      ∃ t, exec .encode aaab = .next t ∧ t.errCode = none ∧ t.outLen.toNat ≤ aaab.caps.ibufCap ∧
        receivedAB.inLen = t.outLen ∧ inputBytes receivedAB = readBytes t 0x02000000 t.outLen.toNat ∧
        receivedAB.tblLen = t.tblLen ∧ tableBytes receivedAB = tableBytes t := by
  refine ⟨by decide +kernel, by decide +kernel, by decide +kernel, by decide +kernel, rfl, by decide +kernel, rfl, rfl, ?_⟩
  obtain ⟨t, h, hp⟩ := after_next (o := exec .encode aaab)
    (p := fun t => t.errCode = none && t.outLen.toNat ≤ aaab.caps.ibufCap && receivedAB.inLen = t.outLen &&
      inputBytes receivedAB = readBytes t 0x02000000 t.outLen.toNat && receivedAB.tblLen = t.tblLen &&
      tableBytes receivedAB = tableBytes t) (by decide +kernel)
  simp only [Bool.and_eq_true, decide_eq_true_eq] at hp
  exact ⟨t, h, hp.1.1.1.1.1, hp.1.1.1.1.2, hp.1.1.1.2, hp.1.1.2, hp.1.2, hp.2⟩
theorem witness_ParsingAWrittenTableIsIdempotent :
    (withTable textAB State.reset).caps.Legal ∧ Memory.wf (withTable textAB State.reset).mem ∧
      (withTable textAB State.reset).errCode = none ∧ deriveTable builtAB.1 builtAB.2 = some tableAB ∧
      (withTable textAB State.reset).tblLen.toNat ≤ (withTable textAB State.reset).caps.tbufCap ∧
      tableBytes (withTable textAB State.reset) = tableText tableAB := by
  refine ⟨by decide +kernel, by decide +kernel, rfl, derive_builtAB, by decide +kernel, by decide +kernel⟩

theorem witness_ErrorsByCommand :
    Inv stateInv ∧ stateInv.errCode = none ∧ ∃ t, exec (.codeSet 0x41) stateInv = .next t ∧ t.errCode = some .invalidPath :=
  ⟨inv_stateInv, rfl, _, rfl, rfl⟩
theorem witness_StateIsWrittenOnlyByItsCommands :
    (∃ t, exec .treeReset State.reset = .next t) ∧ (∀ b, Instr.treeReset ≠ .histGet b) ∧ Instr.treeReset ≠ .pack :=
  ⟨⟨_, rfl⟩, by simp, by simp⟩
theorem witness_BuffersAreWrittenOnlyWhereTheRuleSays :
    ∃ t, stateAB.caps.Legal ∧ Memory.wf stateAB.mem ∧ exec .pack stateAB = .next t ∧
      0x02000000 + t.outLen.toNat ≤ 0x02000001 ∧ (0x01FFFFFF : Nat) < 0x02000000 := by
  obtain ⟨t, h, hp⟩ := after_next (o := exec .pack stateAB) (p := fun t => t.outLen = 1) (by decide +kernel)
  simp only [decide_eq_true_eq] at hp
  refine ⟨t, by decide +kernel, by decide +kernel, h, ?_, by decide⟩
  rw [hp]
  decide
theorem witness_EveryStepKeepsTheInvariant : Inv stateInv ∧ ∃ t, step stateInv = .next t :=
  ⟨inv_stateInv, _, rfl⟩
theorem witness_ResetMeetsTheInvariant : stateInv.caps.Legal ∧ stateInv.resetPin = false := ⟨by decide, rfl⟩
theorem witness_TheMachineNeverStops : Inv stateInv := inv_stateInv

end Sys2Proof.Tests
end

section
/-! SUPPORT. The tree builder's queue and arena (43_tree_builder.md): what the merge loop keeps, and that a built tree keeps the
tree invariant of 10_state.md R42. -/

namespace Sys2Proof.Machine

/-! ### The queue -/

theorem minKey_eq_none_iff (nodes : List Node) (q : List Nat) : minKey nodes q = none ↔ q = [] := by
  cases q with
  | nil => simp [minKey]
  | cons x q =>
    simp only [minKey, reduceCtorEq, iff_false]
    split
    · simp
    · split <;> simp

theorem minKey_mem {nodes : List Node} {q : List Nat} {x : Nat} (h : minKey nodes q = some x) : x ∈ q := by
  induction q generalizing x with
  | nil => simp [minKey] at h
  | cons z q ih =>
    simp only [minKey] at h
    split at h
    · exact List.mem_cons.2 (.inl (Option.some_inj.1 h).symm)
    · rename_i y hy
      split at h
      · exact List.mem_cons.2 (.inl (Option.some_inj.1 h).symm)
      · exact List.mem_cons.2 (.inr (ih (hy.trans h)))

/-! ### The merge loop -/

/-- What every merge keeps, the loop keeps. -/
theorem mergeLoop_induction {P : List Node → List Nat → Prop}
    (merge : ∀ nodes q x y, P nodes q → minKey nodes q = some x → minKey nodes (q.erase x) = some y →
      P (nodes ++ [mergedNode nodes x y]) ((q.erase x).erase y ++ [nodes.length]))
    (turns : Nat) (nodes : List Node) (q : List Nat) (h : P nodes q) :
    P (mergeLoop turns nodes q).1 (mergeLoop turns nodes q).2 := by
  induction turns generalizing nodes q with
  | zero => exact h
  | succ turns ih =>
    simp only [mergeLoop]
    split
    · exact h
    · rename_i x hx
      split
      · exact h
      · rename_i y hy
        exact ih _ _ (merge nodes q x y h hx hy)

/-- A merge takes two nodes off the queue and puts one on it. -/
theorem length_merged_queue {q : List Nat} {x y z : Nat} (hx : x ∈ q) (hy : y ∈ q.erase x) :
    ((q.erase x).erase y ++ [z]).length + 1 = q.length := by
  have h1 := List.length_erase_add_one hx
  have h2 := List.length_erase_add_one hy
  simp only [List.length_append, List.length_singleton]
  omega

/-- With turns enough the loop leaves one node in the queue, or none where there was none. -/
theorem length_mergeLoop_queue (turns : Nat) (nodes : List Node) (q : List Nat) (h : q.length ≤ turns + 1) :
    (mergeLoop turns nodes q).2.length = min q.length 1 := by
  induction turns generalizing nodes q with
  | zero => simpa [mergeLoop] using h
  | succ turns ih =>
    simp only [mergeLoop]
    split
    · rename_i hx
      simp [(minKey_eq_none_iff _ _).1 hx]
    · rename_i x hx
      have h1 := List.length_erase_add_one (minKey_mem hx)
      split
      · rename_i hy
        rw [(minKey_eq_none_iff _ _).1 hy, List.length_nil] at h1
        show q.length = _
        omega
      · rename_i y hy
        have h2 := length_merged_queue (z := nodes.length) (minKey_mem hx) (minKey_mem hy)
        have h3 := List.length_pos_of_mem (minKey_mem hy)
        rw [ih _ _ (by omega)]
        omega

/-! ### The forest below the queue -/

theorem child_append_left {nodes : List Node} {n : Nat} (h : n < nodes.length) (x : Node) (bit : Bool) :
    child (nodes ++ [x]) n bit = child nodes n bit := by
  simp only [child, nodeAt_append_left h]

/-- The arena and the queue while TREE_BUILD merges: every existing node lies below exactly one node of the queue, on exactly one
path; each merge takes one node off the queue, so that many levels at most lie below it (43_tree_builder.md R197). -/
structure Forest (leaves : Nat) (nodes : List Node) (q : List Nat) : Prop where
  rootsNodup : q.Nodup
  rootExists : ∀ r ∈ q, r < nodes.length
  childExists : ∀ n, n < nodes.length → ∀ bit c, child nodes n bit = some c → c < nodes.length
  onOnePath : ∀ n, n < nodes.length → ∃ r ∈ q, ∃ p, walkFrom nodes r p = some n ∧
    ∀ r' ∈ q, ∀ p', walkFrom nodes r' p' = some n → r' = r ∧ p' = p
  pathBounded : ∀ r ∈ q, ∀ p n, walkFrom nodes r p = some n → p.length + q.length ≤ leaves
  size : nodes.length + q.length = 2 * leaves

theorem walkFrom_lt {nodes : List Node}
    (h : ∀ n, n < nodes.length → ∀ bit c, child nodes n bit = some c → c < nodes.length) (p : BitString) :
    ∀ {n m : Nat}, n < nodes.length → walkFrom nodes n p = some m → m < nodes.length := by
  induction p with
  | nil =>
    intro n m hn hm
    simpa [walkFrom, ← Option.some_inj.1 hm] using hn
  | cons b p ih =>
    intro n m hn hm
    simp only [walkFrom] at hm
    split at hm
    · simp at hm
    · rename_i c hc
      exact ih (h n hn b c hc) hm

/-- A node put at the end of the arena changes no walk from the nodes before it. -/
theorem walkFrom_append_left {nodes : List Node}
    (h : ∀ n, n < nodes.length → ∀ bit c, child nodes n bit = some c → c < nodes.length) (x : Node) (p : BitString) :
    ∀ {n : Nat}, n < nodes.length → walkFrom (nodes ++ [x]) n p = walkFrom nodes n p := by
  induction p with
  | nil => intro n _; rfl
  | cons b p ih =>
    intro n hn
    simp only [walkFrom, child_append_left hn]
    split
    · rfl
    · rename_i c hc
      exact ih (h n hn b c hc)

theorem child_mergedNode (nodes : List Node) (x y : Nat) (bit : Bool) :
    child (nodes ++ [mergedNode nodes x y]) nodes.length bit = some (if bit then y else x) := by
  cases bit <;> simp [child, mergedNode]

/-- A walk from a merged node goes on in one of the two trees it merged. -/
theorem walkFrom_mergedNode {nodes : List Node}
    (h : ∀ n, n < nodes.length → ∀ bit c, child nodes n bit = some c → c < nodes.length) {x y : Nat}
    (hx : x < nodes.length) (hy : y < nodes.length) (bit : Bool) (p : BitString) :
    walkFrom (nodes ++ [mergedNode nodes x y]) nodes.length (bit :: p) = walkFrom nodes (if bit then y else x) p := by
  simp only [walkFrom, child_mergedNode]
  exact walkFrom_append_left h _ p (by split <;> assumption)

theorem mem_merged_queue {q : List Nat} (h : q.Nodup) (x y z r : Nat) :
    r ∈ (q.erase x).erase y ++ [z] ↔ (r ∈ q ∧ r ≠ x ∧ r ≠ y) ∨ r = z := by
  rw [List.mem_append, List.mem_singleton, (h.erase x).mem_erase_iff, h.mem_erase_iff]
  tauto

/-- Childless nodes, all of them in the queue, are a forest. -/
theorem forest_of_childless {nodes : List Node} (h : ∀ n, n < nodes.length → ∀ bit, child nodes n bit = none) :
    Forest nodes.length nodes (List.range nodes.length) := by
  have hwalk : ∀ r ∈ List.range nodes.length, ∀ p n, walkFrom nodes r p = some n → p = [] ∧ r = n := by
    intro r hr p n hp
    cases p with
    | nil => exact ⟨rfl, Option.some_inj.1 hp⟩
    | cons b p => simp [walkFrom, h r (List.mem_range.1 hr)] at hp
  refine ⟨List.nodup_range, fun r hr => List.mem_range.1 hr, ?_, ?_, ?_, ?_⟩
  · intro n hn bit c hc
    simp [h n hn] at hc
  · intro n hn
    refine ⟨n, List.mem_range.2 hn, [], rfl, fun r' hr' p' hp' => ?_⟩
    obtain ⟨rfl, rfl⟩ := hwalk r' hr' p' n hp'
    exact ⟨rfl, rfl⟩
  · intro r hr p n hp
    obtain ⟨rfl, -⟩ := hwalk r hr p n hp
    simp
  · simp
    omega

/-! ### A merge of two nodes of the queue keeps the forest -/

section
variable {leaves : Nat} {nodes : List Node} {q : List Nat} {x y : Nat} (h : Forest leaves nodes q) (hx : x ∈ q)
  (hy : y ∈ q.erase x)

include h in
theorem Forest.walk_lt {r : Nat} (hr : r ∈ q) {p : BitString} {n : Nat} (hp : walkFrom nodes r p = some n) :
    n < nodes.length :=
  walkFrom_lt h.childExists p (h.rootExists r hr) hp

include h in
/-- A merge changes no walk from the queue's nodes. -/
theorem Forest.walk_old {r : Nat} (hr : r ∈ q) (p : BitString) :
    walkFrom (nodes ++ [mergedNode nodes x y]) r p = walkFrom nodes r p :=
  walkFrom_append_left h.childExists _ p (h.rootExists r hr)

include h hy in
theorem Forest.merged_child_inj {bit bit' : Bool} (hb : (if bit then y else x) = (if bit' then y else x)) : bit = bit' := by
  have hyx : y ≠ x := ((h.rootsNodup.mem_erase_iff).1 hy).1
  revert bit bit'
  rintro (_ | _) (_ | _) hb
  · rfl
  · exact absurd hb.symm hyx
  · exact absurd hb hyx
  · rfl

include hx hy

theorem merged_child_mem (bit : Bool) : (if bit then y else x) ∈ q := by
  cases bit
  · exact hx
  · exact List.mem_of_mem_erase hy

include h

theorem Forest.walk_new (bit : Bool) (p : BitString) :
    walkFrom (nodes ++ [mergedNode nodes x y]) nodes.length (bit :: p) = walkFrom nodes (if bit then y else x) p :=
  walkFrom_mergedNode h.childExists (h.rootExists x hx) (h.rootExists y (List.mem_of_mem_erase hy)) bit p

theorem Forest.merge_childExists (n : Nat) (hn : n < (nodes ++ [mergedNode nodes x y]).length) (bit : Bool) (c : Nat)
    (hc : child (nodes ++ [mergedNode nodes x y]) n bit = some c) : c < (nodes ++ [mergedNode nodes x y]).length := by
  rw [List.length_append, List.length_singleton] at hn ⊢
  rcases Nat.lt_succ_iff_lt_or_eq.1 hn with hn | rfl
  · rw [child_append_left hn] at hc
    have := h.childExists n hn bit c hc
    omega
  · rw [child_mergedNode, Option.some_inj] at hc
    have := h.rootExists _ (merged_child_mem hx hy bit)
    omega

/-- The new node is on the empty path from itself alone. -/
theorem Forest.merge_new_onOnePath {r : Nat} (hr : r ∈ (q.erase x).erase y ++ [nodes.length]) {p : BitString}
    (hp : walkFrom (nodes ++ [mergedNode nodes x y]) r p = some nodes.length) : r = nodes.length ∧ p = [] := by
  rcases (mem_merged_queue h.rootsNodup x y nodes.length r).1 hr with ⟨hr, -, -⟩ | rfl
  · rw [h.walk_old hr] at hp
    exact absurd (h.walk_lt hr hp) (Nat.lt_irrefl _)
  · cases p with
    | nil => exact ⟨rfl, rfl⟩
    | cons bit p =>
      rw [h.walk_new hx hy] at hp
      exact absurd (h.walk_lt (merged_child_mem hx hy bit) hp) (Nat.lt_irrefl _)

/-- Each other node stays on one path: below a node that stays in the queue, or one step below the new node. -/
theorem Forest.merge_old_onOnePath (n : Nat) (hn : n < nodes.length) :
    ∃ r ∈ (q.erase x).erase y ++ [nodes.length], ∃ p, walkFrom (nodes ++ [mergedNode nodes x y]) r p = some n ∧
      ∀ r' ∈ (q.erase x).erase y ++ [nodes.length], ∀ p', walkFrom (nodes ++ [mergedNode nodes x y]) r' p' = some n →
        r' = r ∧ p' = p := by
  have hmem := mem_merged_queue h.rootsNodup x y nodes.length
  obtain ⟨r, hr, p, hp, hu⟩ := h.onOnePath n hn
  have hnew : ∀ p', walkFrom (nodes ++ [mergedNode nodes x y]) nodes.length p' = some n →
      ∃ bit : Bool, p' = bit :: p ∧ (if bit then y else x) = r := by
    intro p' hp'
    cases p' with
    | nil => exact absurd (Option.some_inj.1 hp') (by omega)
    | cons bit p' =>
      rw [h.walk_new hx hy] at hp'
      obtain ⟨hroot, rfl⟩ := hu _ (merged_child_mem hx hy bit) p' hp'
      exact ⟨bit, rfl, hroot⟩
  by_cases hside : ∃ bit : Bool, (if bit then y else x) = r
  · obtain ⟨bit, hbit⟩ := hside
    refine ⟨nodes.length, (hmem _).2 (.inr rfl), bit :: p, by rw [h.walk_new hx hy, hbit, hp], fun r' hr' p' hp' => ?_⟩
    rcases (hmem r').1 hr' with ⟨hr', hrx, hry⟩ | rfl
    · rw [h.walk_old hr'] at hp'
      obtain ⟨rfl, -⟩ := hu r' hr' p' hp'
      cases bit
      · exact absurd hbit.symm hrx
      · exact absurd hbit.symm hry
    · obtain ⟨bit', rfl, hbit'⟩ := hnew p' hp'
      exact ⟨rfl, by rw [h.merged_child_inj hy (hbit'.trans hbit.symm)]⟩
  · have hrx : r ≠ x := fun he => hside ⟨false, he.symm⟩
    have hry : r ≠ y := fun he => hside ⟨true, he.symm⟩
    refine ⟨r, (hmem r).2 (.inl ⟨hr, hrx, hry⟩), p, by rw [h.walk_old hr, hp], fun r' hr' p' hp' => ?_⟩
    rcases (hmem r').1 hr' with ⟨hr', -, -⟩ | rfl
    · rw [h.walk_old hr'] at hp'
      exact hu r' hr' p' hp'
    · obtain ⟨bit, -, hbit⟩ := hnew p' hp'
      exact absurd ⟨bit, hbit⟩ hside

/-- One more level lies below the new node than below what it merged, and the queue is one shorter. -/
theorem Forest.merge_pathBounded {r : Nat} (hr : r ∈ (q.erase x).erase y ++ [nodes.length]) {p : BitString} {n : Nat}
    (hp : walkFrom (nodes ++ [mergedNode nodes x y]) r p = some n) :
    p.length + ((q.erase x).erase y ++ [nodes.length]).length ≤ leaves := by
  have hlen := length_merged_queue (z := nodes.length) hx hy
  rcases (mem_merged_queue h.rootsNodup x y nodes.length r).1 hr with ⟨hr, -, -⟩ | rfl
  · rw [h.walk_old hr] at hp
    have := h.pathBounded r hr p n hp
    omega
  · cases p with
    | nil =>
      have := h.pathBounded x hx [] x rfl
      simp only [List.length_nil] at this ⊢
      omega
    | cons bit p =>
      rw [h.walk_new hx hy] at hp
      have := h.pathBounded _ (merged_child_mem hx hy bit) p n hp
      rw [List.length_cons]
      omega

theorem Forest.merge : Forest leaves (nodes ++ [mergedNode nodes x y]) ((q.erase x).erase y ++ [nodes.length]) where
  rootsNodup := by
    refine List.nodup_append'.2 ⟨(h.rootsNodup.erase x).erase y, List.nodup_singleton _, ?_⟩
    intro r hr hr'
    have := h.rootExists r (List.mem_of_mem_erase (List.mem_of_mem_erase hr))
    rw [List.mem_singleton.1 hr'] at this
    omega
  rootExists := by
    intro r hr
    rw [List.length_append, List.length_singleton]
    rcases (mem_merged_queue h.rootsNodup x y nodes.length r).1 hr with ⟨hr, -, -⟩ | rfl
    · have := h.rootExists r hr
      omega
    · omega
  childExists := h.merge_childExists hx hy
  onOnePath := by
    intro n hn
    rw [List.length_append, List.length_singleton] at hn
    rcases Nat.lt_succ_iff_lt_or_eq.1 hn with hn | rfl
    · exact h.merge_old_onOnePath hx hy n hn
    · exact ⟨nodes.length, List.mem_append_right _ (List.mem_singleton_self _), [], rfl,
        fun r hr p hp => h.merge_new_onOnePath hx hy hr hp⟩
  pathBounded := fun r hr p n hp => h.merge_pathBounded hx hy hr hp
  size := by
    have := h.size
    have := length_merged_queue (z := nodes.length) hx hy
    rw [List.length_append (as := nodes), List.length_singleton]
    omega

end

/-! ### The built tree -/

theorem length_seedLeaves_le (h : Histogram) : (seedLeaves h).length ≤ 256 := by
  refine Nat.le_trans (List.length_filterMap_le _ _) ?_
  simp [allSymbols]

theorem child_seedLeaves (h : Histogram) (n : Nat) (hn : n < (seedLeaves h).length) (bit : Bool) :
    child (seedLeaves h) n bit = none := by
  have hmem : (seedLeaves h)[n] ∈ seedLeaves h := List.getElem_mem hn
  obtain ⟨b, -, hb⟩ := List.mem_filterMap.1 hmem
  split at hb
  · simp at hb
  · rw [child, nodeAt, List.getD_eq_getElem _ _ hn, ← Option.some_inj.1 hb]
    cases bit <;> rfl

/-- What TREE_BUILD's loop ends in: a forest of one tree, or of none where there is no symbol. -/
theorem forest_buildTree (h : Histogram) :
    Forest (seedLeaves h).length (buildTree h).1 (buildTree h).2.toList ∧
      (buildTree h).2.toList.length = min (seedLeaves h).length 1 := by
  have hforest := mergeLoop_induction (P := Forest (seedLeaves h).length)
    (fun nodes q x y hf hx hy => hf.merge (minKey_mem hx) (minKey_mem hy)) (seedLeaves h).length _ _
    (forest_of_childless (child_seedLeaves h))
  have hlen := length_mergeLoop_queue (seedLeaves h).length (seedLeaves h) (List.range (seedLeaves h).length) (by simp)
  rw [List.length_range] at hlen
  have hq : (buildTree h).2.toList =
      (mergeLoop (seedLeaves h).length (seedLeaves h) (List.range (seedLeaves h).length)).2 := by
    simp only [buildTree]
    revert hlen
    generalize (mergeLoop _ _ _).2 = q
    intro hlen
    match q, hlen with
    | [], _ | [_], _ => rfl
    | _ :: _ :: _, hlen => simp only [List.length_cons] at hlen; omega
  rw [hq]
  exact ⟨hforest, hlen⟩

/-- A built tree of n leaves has 2n - 1 nodes, none where n is 0 (43_tree_builder.md R197). -/
theorem length_buildTree (h : Histogram) : (buildTree h).1.length = 2 * (seedLeaves h).length - 1 := by
  obtain ⟨hf, hq⟩ := forest_buildTree h
  have := hf.size
  omega

/-- A built tree keeps the tree invariant (43_tree_builder.md R197). -/
theorem treeOk_buildTree (h : Histogram) : TreeOk (buildTree h).1 (buildTree h).2 := by
  obtain ⟨hf, hq⟩ := forest_buildTree h
  cases hroot : (buildTree h).2 with
  | none =>
    have hnil : (buildTree h).1 = [] := by
      rw [hroot, Option.toList_none, List.length_nil] at hq
      rw [← List.length_eq_zero_iff, length_buildTree]
      omega
    rw [hnil]
    exact treeOk_empty
  | some r =>
    rw [hroot, Option.toList_some] at hf
    have hr : r ∈ [r] := List.mem_singleton_self r
    refine ⟨by simp, fun r' hr' => Option.some_inj.1 hr' ▸ hf.rootExists r hr, hf.childExists, ?_, ?_⟩
    · intro n hn
      obtain ⟨r', hr', p, hp, hu⟩ := hf.onOnePath n hn
      rw [List.mem_singleton.1 hr'] at hp hu
      exact ⟨p, hp, fun p' hp' => (hu r hr p' hp').2⟩
    · intro p n hp
      have := hf.pathBounded r hr p n hp
      have := length_seedLeaves_le h
      simp only [List.length_singleton, Config.maxCodeLen] at *
      omega

end Sys2Proof.Machine
end

section
/-! SUPPORT. What CODE_DERIVE lists on a tree (44_code_table.md R211, R214), and the codes it records. -/

namespace Sys2Proof.Machine

/-- On a tree the traversal of 44_code_table.md R211 ends: from a node at the end of path `p` no more levels follow than a code may
have bits. -/
theorem leafCodes_isSome {nodes : List Node} {root : Option Nat} (h : TreeOk nodes root) (depth : Nat) :
    ∀ {n : Nat} {p : BitString}, walkRoot nodes root p = some n → p.length + depth = Config.maxCodeLen →
      (leafCodes nodes depth n p).isSome = true := by
  have hstep : ∀ {n c : Nat} {p : BitString} (bit : Bool), walkRoot nodes root p = some n → child nodes n bit = some c →
      walkRoot nodes root (p ++ [bit]) = some c := by
    intro n c p bit hp hc
    rw [walkRoot_concat, hp]
    exact hc
  induction depth with
  | zero =>
    intro n p hp hl
    have hend : ∀ bit, child nodes n bit = none := by
      intro bit
      by_contra hc
      obtain ⟨c, hc⟩ := Option.ne_none_iff_exists'.1 hc
      have := h.pathBounded _ _ (hstep bit hp hc)
      simp only [List.length_append, List.length_singleton] at this
      omega
    simp only [leafCodes]
    split
    · rfl
    · rw [if_pos ⟨hend false, hend true⟩]
      rfl
  | succ depth ih =>
    intro n p hp hl
    have hside : ∀ bit, ((child nodes n bit).elim (some []) (fun c => leafCodes nodes depth c (p ++ [bit]))).isSome = true := by
      intro bit
      cases hc : child nodes n bit with
      | none => rfl
      | some c => exact ih (hstep bit hp hc) (by simp only [List.length_append, List.length_singleton]; omega)
    obtain ⟨l, hl⟩ := Option.isSome_iff_exists.1 (hside false)
    obtain ⟨r, hr⟩ := Option.isSome_iff_exists.1 (hside true)
    simp only [child, Bool.false_eq_true, if_true, if_false] at hl hr
    simp only [leafCodes, hl, hr]
    split <;> rfl

/-- What the traversal lists are nodes with that payload at that path. -/
theorem walkRoot_of_mem_leafCodes {nodes : List Node} {root : Option Nat} (depth : Nat) :
    ∀ {n : Nat} {p : BitString} {leaves : List (Byte × BitString)}, walkRoot nodes root p = some n →
      leafCodes nodes depth n p = some leaves → ∀ e ∈ leaves,
        ∃ m, walkRoot nodes root e.2 = some m ∧ (nodeAt nodes m).payload = some e.1 := by
  induction depth with
  | zero =>
    intro n p leaves hp hl e he
    simp only [leafCodes] at hl
    split at hl
    · rename_i b hb
      rw [← Option.some_inj.1 hl, List.mem_singleton] at he
      subst he
      exact ⟨n, hp, hb⟩
    · split at hl
      · rw [← Option.some_inj.1 hl] at he
        simp at he
      · simp at hl
  | succ depth ih =>
    intro n p leaves hp hl e he
    have hside : ∀ bit side, (child nodes n bit).elim (some []) (fun c => leafCodes nodes depth c (p ++ [bit])) = some side →
        e ∈ side → ∃ m, walkRoot nodes root e.2 = some m ∧ (nodeAt nodes m).payload = some e.1 := by
      intro bit side hs hes
      cases hc : child nodes n bit with
      | none =>
        rw [hc, Option.elim_none] at hs
        rw [← Option.some_inj.1 hs] at hes
        simp at hes
      | some c =>
        rw [hc, Option.elim_some] at hs
        refine ih ?_ hs e hes
        rw [walkRoot_concat, hp]
        exact hc
    simp only [leafCodes] at hl
    split at hl
    · rename_i b hb
      rw [← Option.some_inj.1 hl, List.mem_singleton] at he
      subst he
      exact ⟨n, hp, hb⟩
    · split at hl
      · simp at hl
      · rename_i l hleft
        split at hl
        · simp at hl
        · rename_i r hright
          rw [← Option.some_inj.1 hl, List.mem_append] at he
          rcases he with he | he
          · exact hside false l hleft he
          · exact hside true r hright he

theorem codeOk_emptyCode : CodeOk emptyCode := by
  intro b c h
  simp at h

theorem CodeOk.codePut {t : CodeTable} (h : CodeOk t) (b : Byte) {c : BitString} (h1 : 1 ≤ c.length)
    (h2 : c.length ≤ Config.maxCodeLen) : CodeOk (codePut t b c) := by
  intro b' c' hc
  rw [codeAt_codePut] at hc
  split at hc
  · rw [← Option.some_inj.1 hc]
    exact ⟨h1, h2⟩
  · exact h b' c' hc

/-- Recording a leaf whose path fits LEN keeps the table's codes within 1 to 255 bits (44_code_table.md R213, R214). -/
theorem CodeOk.recordLeaf {t : CodeTable} (h : CodeOk t) {leaf : Byte × BitString} (hl : leaf.2.length ≤ Config.maxCodeLen) :
    CodeOk (recordLeaf t leaf) := by
  simp only [Machine.recordLeaf]
  split
  · refine h.codePut _ ?_ ?_ <;> simp only [recordedCode] <;> split
    · simp
    · rename_i hne
      exact List.length_pos_iff.2 hne
    · simp [Config.maxCodeLen]
    · exact hl
  · exact h

theorem codeOk_foldl_recordLeaf {leaves : List (Byte × BitString)} (h : ∀ e ∈ leaves, e.2.length ≤ Config.maxCodeLen) :
    CodeOk (leaves.foldl recordLeaf emptyCode) :=
  List.foldlRecOn leaves recordLeaf codeOk_emptyCode (fun _ ht e he => ht.recordLeaf (h e he))

/-- On a tree the derivation ends, and its codes have 1 to 255 bits (44_code_table.md R211). -/
theorem deriveTable_of_treeOk {nodes : List Node} {root : Option Nat} (h : TreeOk nodes root) :
    ∃ t, deriveTable nodes root = some t ∧ CodeOk t := by
  cases root with
  | none => exact ⟨emptyCode, rfl, codeOk_emptyCode⟩
  | some r =>
    have hroot : walkRoot nodes (some r) [] = some r := walkRoot_nil _ _
    obtain ⟨leaves, hl⟩ := Option.isSome_iff_exists.1 (leafCodes_isSome h Config.maxCodeLen hroot (Nat.zero_add _))
    refine ⟨leaves.foldl recordLeaf emptyCode, by simp only [deriveTable, hl, Option.map_some], ?_⟩
    refine codeOk_foldl_recordLeaf fun e he => ?_
    obtain ⟨m, hm, -⟩ := walkRoot_of_mem_leafCodes _ hroot hl e he
    exact h.pathBounded _ _ hm

/-- On a tree CODE_DERIVE completes and writes CODE alone. -/
theorem ruleCodeDerive_of_treeOk {s : State} (h : TreeOk s.nodes s.root) :
    ∃ t, ruleCodeDerive s = .completed { s with code := t } ∧ CodeOk t := by
  obtain ⟨t, ht, hok⟩ := deriveTable_of_treeOk h
  exact ⟨t, by simp only [ruleCodeDerive, ht], hok⟩

/-- Settles O24: on a tree no node lies deeper than a code may be long, so the traversal ends, and each code it records is the path
of a node, or "0" for the root's empty path. -/
theorem codeDeriveCompletes : Obligations.CodeDeriveCompletes := by
  intro s h
  obtain ⟨t, ht, hok⟩ := ruleCodeDerive_of_treeOk h
  exact ⟨complete { s with code := t }, by rw [exec_eq_finish]; simp only [ruleOf, ht, Effect.finish_completed], rfl, hok⟩

end Sys2Proof.Machine
end

section
/-! SUPPORT. What each command's rule leaves alone (10_state.md R26 to R38, 20_memory.md R80) and which rules raise an error
(60_exceptions.md R303). -/

namespace Sys2Proof.Machine

theorem Effect.EndsIn.mono {e : Effect} {P Q : State → Prop} (h : Effect.EndsIn e P) (hpq : ∀ u, P u → Q u) :
    Effect.EndsIn e Q :=
  ⟨fun t ht => hpq t (h.1 t ht), fun c i t ht => hpq t (h.2 c i t ht)⟩

/-- Sub-commands in order keep what each of them keeps. -/
theorem Effect.EndsIn.andThen {e : Effect} {next : State → Effect} {P : State → Prop} (h : Effect.EndsIn e P)
    (hnext : ∀ u, P u → Effect.EndsIn (next u) P) : Effect.EndsIn (e.andThen next) P :=
  Effect.endsIn_andThen h hnext (fun _ hu => hu)

theorem ruleCodeGet_frame (b : Byte) (s : State) :
    Effect.EndsIn (ruleCodeGet b s) (fun t => ∃ n p r, t = { s with pathLen := n, path := p, result := r }) := by
  simp only [ruleCodeGet]
  split <;> exact Effect.endsIn_completed _ _ ⟨_, _, _, rfl⟩

theorem ruleCodeSet_frame (b : Byte) (s : State) :
    Effect.EndsIn (ruleCodeSet b s) (fun t => ∃ m, t = { s with code := m }) := by
  simp only [ruleCodeSet]
  split
  · exact Effect.endsIn_raised _ _ _ _ ⟨_, rfl⟩
  · exact Effect.endsIn_completed _ _ ⟨_, rfl⟩

theorem ruleTreeSearch_frame (s : State) :
    Effect.EndsIn (ruleTreeSearch s) (fun t => ∃ r, t = { s with result := r }) := by
  simp only [ruleTreeSearch]
  split <;> exact Effect.endsIn_completed _ _ ⟨_, rfl⟩

theorem ruleTreeStep_frame (bit : Bool) (s : State) :
    Effect.EndsIn (ruleTreeStep bit s) (fun t => ∃ c r, t = { s with cursor := c, result := r }) := by
  simp only [ruleTreeStep]
  split
  · exact Effect.endsIn_completed _ _ ⟨_, _, rfl⟩
  · split <;> exact Effect.endsIn_completed _ _ ⟨_, _, rfl⟩

/-- What a command's rule leaves alone: each field but for the commands whose rules write it. -/
structure WritesOnlyItsOwn (i : Instr) (s u : State) : Prop where
  caps : u.caps = s.caps
  phase : u.phase = s.phase
  done : u.done = s.done
  reject : u.reject = s.reject
  errCode : u.errCode = s.errCode
  cmd : u.cmd = s.cmd
  doneIe : u.doneIe = s.doneIe
  errInfo : u.errInfo = s.errInfo
  inLen : u.inLen = s.inLen
  resetPin : u.resetPin = s.resetPin
  delay : u.delay = s.delay
  resets : u.resets = s.resets
  draws : u.draws = s.draws
  host : u.host = s.host
  count : (∀ b, i ≠ .histGet b) → u.countLo = s.countLo ∧ u.countHi = s.countHi
  path : (∀ b, i ≠ .codeGet b) → u.pathLen = s.pathLen ∧ u.path = s.path
  result : (∀ b, i ≠ .codeGet b) → (∀ bit, i ≠ .treeStep bit) → i ≠ .treeSearch → u.result = s.result
  sizes : i ≠ .pack → i ≠ .encode → u.initSize = s.initSize ∧ u.compSize = s.compSize
  output : i ≠ .pack → i ≠ .encode → i ≠ .unpack → i ≠ .decode → u.outLen = s.outLen ∧ u.dataBits = s.dataBits
  tblLen : i ≠ .tableSerialize → i ≠ .encode → u.tblLen = s.tblLen
  hist : i ≠ .histCount → i ≠ .histClear → (∀ b, i ≠ .histSet b) → i ≠ .encode → u.hist = s.hist
  code : i ≠ .codeDerive → i ≠ .codeClear → (∀ b, i ≠ .codeSet b) → i ≠ .encode → u.code = s.code
  tree : i ≠ .treeBuild → i ≠ .treeClear → (∀ b, i ≠ .treeInsert b) → i ≠ .tableParse → i ≠ .encode → i ≠ .decode →
    u.nodes = s.nodes ∧ u.root = s.root ∧ u.symCount = s.symCount ∧
      ((∀ bit, i ≠ .treeStep bit) → i ≠ .treeReset → i ≠ .unpack → u.cursor = s.cursor)

/-- Every rule, whether it completes or raises, leaves alone what it does not name. -/
theorem ruleOf_frame (i : Instr) (s : State) : Effect.EndsIn (ruleOf i s) (WritesOnlyItsOwn i s) := by
  cases i with
  | nop => exact Effect.endsIn_completed _ _ (by constructor <;> simp)
  | histCount => exact (ruleHistCount_frame s).mono (by rintro _ ⟨_, rfl⟩; constructor <;> simp)
  | histClear => exact Effect.endsIn_completed _ _ (by constructor <;> simp)
  | histGet b => exact Effect.endsIn_completed _ _ (by constructor <;> simp)
  | histSet b => exact Effect.endsIn_completed _ _ (by constructor <;> simp)
  | treeBuild => exact Effect.endsIn_completed _ _ (by constructor <;> simp)
  | codeDerive => exact (ruleCodeDerive_frame s).mono (by rintro _ ⟨_, rfl⟩; constructor <;> simp)
  | codeClear => exact Effect.endsIn_completed _ _ (by constructor <;> simp)
  | codeGet b => exact (ruleCodeGet_frame b s).mono (by rintro _ ⟨_, _, _, rfl⟩; constructor <;> simp)
  | codeSet b => exact (ruleCodeSet_frame b s).mono (by rintro _ ⟨_, rfl⟩; constructor <;> simp)
  | tableSerialize => exact (ruleTableSerialize_frame s).mono (by rintro _ ⟨_, _, rfl⟩; constructor <;> simp)
  | pack => exact (rulePack_frame s).mono (by rintro _ ⟨_, _, _, _, _, rfl⟩; constructor <;> simp)
  | encode =>
    exact (ruleEncode_frame s).mono (by rintro _ ⟨_, _, _, _, _, _, _, _, _, _, _, _, rfl⟩; constructor <;> simp)
  | treeClear => exact Effect.endsIn_completed _ _ (by constructor <;> simp)
  | treeInsert b =>
    exact Effect.EndsIn.mono (insertPayload_frame s (pathOperand s) b) (by rintro _ ⟨_, _, _, _, rfl⟩; constructor <;> simp)
  | treeSearch => exact (ruleTreeSearch_frame s).mono (by rintro _ ⟨_, rfl⟩; constructor <;> simp)
  | treeStep bit => exact (ruleTreeStep_frame bit s).mono (by rintro _ ⟨_, _, rfl⟩; constructor <;> simp)
  | treeReset => exact Effect.endsIn_completed _ _ (by constructor <;> simp)
  | tableParse => exact (ruleTableParse_frame s).mono (by rintro _ ⟨_, _, _, _, rfl⟩; constructor <;> simp)
  | unpack => exact (ruleUnpack_frame s).mono (by rintro _ ⟨_, _, _, _, rfl⟩; constructor <;> simp)
  | decode => exact (ruleDecode_frame s).mono (by rintro _ ⟨_, _, _, _, _, _, _, rfl⟩; constructor <;> simp)

/-- The commands to which 60_exceptions.md R303 gives an error. -/
def CanRaise (i : Instr) : Prop :=
  i = .histCount ∨ i = .tableSerialize ∨ (∃ b, i = .codeSet b) ∨ i = .pack ∨ i = .encode ∨ (∃ b, i = .treeInsert b) ∨
    i = .tableParse ∨ i = .unpack ∨ i = .decode

theorem canRaise_of_ruleOf_raised {i : Instr} {s u : State} {c : ErrorCode} {info : Word}
    (h : ruleOf i s = .raised c info u) : CanRaise i := by
  cases i with
  | histCount | tableSerialize | pack | encode | tableParse | unpack | decode | codeSet _ | treeInsert _ => simp [CanRaise]
  | codeDerive => exact absurd h (ruleCodeDerive_not_raised s u c info)
  | codeGet b => exact absurd h (ruleCodeGet_not_raised b s u c info)
  | treeSearch => exact absurd h (ruleTreeSearch_not_raised s u c info)
  | treeStep bit => exact absurd h (ruleTreeStep_not_raised bit s u c info)
  | nop | histClear | histGet _ | histSet _ | treeBuild | codeClear | treeClear | treeReset => cases h


/-- Settles O55: completion and `raise` write the status bits alone, and each rule keeps what it does not name. -/
theorem stateIsWrittenOnlyByItsCommands : Obligations.StateIsWrittenOnlyByItsCommands := by
  intro i s t h
  rw [exec_eq_next_iff] at h
  rcases h with ⟨u, hu, rfl⟩ | ⟨c, info, u, hu, rfl⟩
  · have f := (ruleOf_frame i s).1 u hu
    exact ⟨f.caps, f.cmd, f.doneIe, f.reject, f.inLen, f.resetPin, f.delay, f.resets, f.draws, f.host, rfl, rfl,
      .inl ⟨f.errCode, f.errInfo⟩, f.count, f.path, f.result, f.sizes, f.output, f.tblLen, f.hist, f.code, f.tree⟩
  · have f := (ruleOf_frame i s).2 c info u hu
    exact ⟨f.caps, f.cmd, f.doneIe, f.reject, f.inLen, f.resetPin, f.delay, f.resets, f.draws, f.host, rfl, rfl,
      .inr ⟨Option.some_ne_none c, canRaise_of_ruleOf_raised hu⟩, f.count, f.path, f.result, f.sizes, f.output, f.tblLen,
      f.hist, f.code, f.tree⟩

end Sys2Proof.Machine
end

section
/-! SUPPORT. The register bank as the host sees it (10_state.md R22 to R38) and irq (60_exceptions.md R307). -/

namespace Sys2Proof.Machine

/-! ### STATUS (10_state.md R25) -/

theorem errFlag_eq_isSome (s : State) : errFlag s = s.errCode.isSome := by
  simp only [errFlag]
  cases s.errCode with
  | none => rfl
  | some e => cases e <;> rfl

theorem placeOf_statusAddress (c : Caps) : placeOf c statusAddress 4 = some (.register .status) :=
  placeOf_offset c .status

/-- STATUS reads its value in either phase (20_memory.md R73). -/
theorem hostRead_status {s : State} (h : s.resetPin = false) : hostRead statusAddress 4 s = (s, statusWord s, .okay) := by
  simp [hostRead, h, placeOf_statusAddress, Place.readableWhileBusy, readableWhileBusy, readPlace, readReg]

/-- A write to STATUS acts in either phase (20_memory.md R73). -/
theorem hostWrite_status {s : State} (v : Word) (h : s.resetPin = false) :
    hostWrite statusAddress 4 v s = (writeStatus v s, .okay) := by
  simp [hostWrite, h, placeOf_statusAddress, writePlace, writeReg]

theorem writeStatus_eq (v : Word) (s : State) :
    writeStatus v s =
      { s with done := if v.getLsbD 1 then false else s.done, reject := if v.getLsbD 3 then false else s.reject } := by
  simp only [writeStatus]
  cases v.getLsbD 1 <;> cases v.getLsbD 3 <;> simp

/-- The fields of a word laid out as STATUS is. -/
theorem fields_of_status_layout : ∀ (code : BitVec 4) (reject err done busy : Bool),
    let w : Word := (0 : BitVec 20) ++ code ++ (0 : BitVec 4) ++ BitVec.ofBool reject ++ BitVec.ofBool err ++
      BitVec.ofBool done ++ BitVec.ofBool busy
    w.getLsbD 0 = busy ∧ w.getLsbD 1 = done ∧ w.getLsbD 2 = err ∧ w.getLsbD 3 = reject ∧ w.extractLsb' 4 4 = 0 ∧
      w.extractLsb' 8 4 = code ∧ w.extractLsb' 12 20 = 0 := by
  decide

/-- Settles O10: STATUS is readable and writable in either phase, and its word is its fields side by side. -/
theorem statusReadsAndClears : Obligations.StatusReadsAndClears := by
  intro s v h
  obtain ⟨hbusy, hdone, herr, hreject, hlow, hcode, hhigh⟩ :=
    fields_of_status_layout (errCodeField s.errCode) s.reject (errFlag s) s.done (busyFlag s)
  exact ⟨hostRead_status h, hbusy, hdone, herr.trans (errFlag_eq_isSome s), hreject, hlow, hcode, hhigh, rfl, rfl, rfl, rfl, rfl,
    rfl, rfl, rfl, by rw [hostWrite_status v h, writeStatus_eq]⟩

/-! ### irq (60_exceptions.md R307) -/

theorem armEngine_frame (s : State) :
    armEngine s = { s with delay := (armEngine s).delay, draws := (armEngine s).draws, host := (armEngine s).host } := by
  simp only [armEngine]
  split <;> rfl

/-- A performed command leaves DONE = 1 in IDLE and IRQ_EN as it was. -/
theorem exec_done {i : Instr} {s t : State} (h : exec i s = .next t) :
    t.done = true ∧ t.phase = .idle ∧ t.doneIe = s.doneIe := by
  rw [exec_eq_next_iff] at h
  rcases h with ⟨u, hu, rfl⟩ | ⟨c, info, u, hu, rfl⟩
  · exact ⟨rfl, rfl, ((ruleOf_frame i s).1 u hu).doneIe⟩
  · exact ⟨rfl, rfl, ((ruleOf_frame i s).2 c info u hu).doneIe⟩

/-- Settles O12: completion sets DONE, and each of the four causes clears one of the two bits of irq. -/
theorem completionRaisesIrqWhenEnabled : Obligations.CompletionRaisesIrqWhenEnabled := by
  refine ⟨fun i s t h => ?_, fun s v => ⟨?_, fun hv => ?_, fun hv => ?_, fun hr => ?_⟩⟩
  · obtain ⟨hdone, hphase, hie⟩ := exec_done h
    exact ⟨hdone, hphase, by rw [irq, hdone, hie, Bool.and_true]⟩
  · rw [writeReg, armEngine_frame]
    simp [irq]
  · simp [writeReg, writeStatus, irq, hv]
  · rw [writeReg, irq, hv, Bool.false_and]
  · simp [assertReset, hr, State.afterReset, irq]

/-! ### The register bank (10_state.md R22 to R38) -/

theorem readReg_irqEn (s : State) : readReg .irqEn s = if s.doneIe then 1 else 0 := by
  simp only [readReg]
  cases s.doneIe <;> rfl

/-- A register that holds a node index reads it, or 0xFFFF where it is NIL (10_state.md R38). -/
theorem readReg_node_index {r : Reg} {s : State} {i : Option Nat} (h : readReg r s = (0 : BitVec 16) ++ nodeWord i) :
    (i = none → readReg r s = 0xFFFF) ∧ ∀ n, n < 0xFFFF → i = some n → (readReg r s).toNat = n := by
  refine ⟨fun hi => ?_, fun n hn hi => ?_⟩
  · rw [h, hi]
    rfl
  · rw [h, hi]
    exact (toNat_zero_append (k := 16) _).trans (toNat_nodeWord (by omega))

/-- The fields of RESULT (10_state.md R36). -/
theorem Result.word_fields (r : Result) :
    r.word.getLsbD 0 = r.found ∧ r.word.getLsbD 1 = r.leaf ∧ r.word.extractLsb' 2 6 = 0 ∧
      r.word.extractLsb' 8 8 = r.payload ∧ r.word.extractLsb' 16 16 = nodeWord r.node := by
  have hw := r.toNat_word
  have hp := r.payload.isLt
  have hn := (nodeWord r.node).isLt
  have hl : r.leaf.toNat < 2 := Bool.toNat_lt _
  have hf : r.found.toNat < 2 := Bool.toNat_lt _
  have hbit : ∀ (k : Nat) (b : Bool), r.word.toNat / 2 ^ k % 2 = b.toNat → r.word.getLsbD k = b := by
    intro k b h
    rw [← BitVec.testBit_toNat, Nat.testBit_eq_decide_div_mod_eq, h]
    cases b <;> rfl
  have hfield : ∀ (k n : Nat) (x : BitVec n), r.word.toNat / 2 ^ k % 2 ^ n = x.toNat → r.word.extractLsb' k n = x := by
    intro k n x h
    apply BitVec.eq_of_toNat_eq
    rw [BitVec.extractLsb'_toNat, Nat.shiftRight_eq_div_pow, h]
  refine ⟨hbit 0 _ ?_, hbit 1 _ ?_, hfield 2 6 0 ?_, hfield 8 8 _ ?_, hfield 16 16 _ ?_⟩
  · omega
  · omega
  · show _ = 0
    omega
  · omega
  · omega

/-- The registers of access type RW whose write stores bits (10_state.md R22). -/
def IsReadWrite (r : Reg) : Prop :=
  r = .inLen ∨ r = .tblLen ∨ r = .countLo ∨ r = .countHi ∨ r = .pathLen ∨ r = .irqEn ∨ ∃ k, r = .path k

/-- A word's low bits, masked. -/
theorem toNat_and_mask (v : Word) (n : Nat) (hn : n < 32) : (v &&& BitVec.ofNat 32 (2 ^ n - 1)).toNat = v.toNat % 2 ^ n := by
  have h : 2 ^ n < 2 ^ 32 := Nat.pow_lt_pow_right (by decide) hn
  rw [BitVec.toNat_and, BitVec.toNat_ofNat, Nat.mod_eq_of_lt (by omega), Nat.and_two_pow_sub_one_eq_mod]

/-- What a write to such a register reads back as (10_state.md R23, R27, R35). -/
theorem readReg_writeReg_same {r : Reg} (h : IsReadWrite r) (v : Word) (s : State) :
    readReg r (writeReg r v s) = if r = .pathLen then v &&& 0xFF else if r = .irqEn then v &&& 1 else v := by
  rcases h with rfl | rfl | rfl | rfl | rfl | rfl | ⟨k, rfl⟩
  · rfl
  · rfl
  · rfl
  · rfl
  · apply BitVec.eq_of_toNat_eq
    rw [if_pos rfl]
    refine Eq.trans ?_ (toNat_and_mask v 8 (by decide)).symm
    exact (toNat_zero_append (k := 24) (v.extractLsb' 0 8)).trans (by rw [BitVec.extractLsb'_toNat, Nat.shiftRight_zero])
  · apply BitVec.eq_of_toNat_eq
    rw [if_neg (by decide), if_pos rfl]
    refine Eq.trans ?_ (toNat_and_mask v 1 (by decide)).symm
    exact (toNat_zero_append (k := 31) (BitVec.ofBool (v.getLsbD 0))).trans (by
      rw [BitVec.toNat_ofBool, ← BitVec.testBit_toNat, Nat.toNat_testBit, Nat.pow_zero, Nat.div_one, Nat.pow_one])
  · simp [readReg, writeReg]

/-- Such a write changes no other register. -/
theorem readReg_writeReg_other {r r' : Reg} (h : IsReadWrite r) (hne : r' ≠ r) (v : Word) (s : State) :
    readReg r' (writeReg r v s) = readReg r' s := by
  rcases h with rfl | rfl | rfl | rfl | rfl | rfl | ⟨k, rfl⟩
  · cases r' with
    | inLen => exact absurd rfl hne
    | _ => rfl
  · cases r' with
    | tblLen => exact absurd rfl hne
    | _ => rfl
  · cases r' with
    | countLo => exact absurd rfl hne
    | _ => rfl
  · cases r' with
    | countHi => exact absurd rfl hne
    | _ => rfl
  · cases r' with
    | pathLen => exact absurd rfl hne
    | _ => rfl
  · cases r' with
    | irqEn => exact absurd rfl hne
    | _ => rfl
  · cases r' with
    | path j =>
      have hkj : k.val ≠ j.val := fun hkj => hne (by rw [Fin.ext hkj])
      exact Vector.getElem_set_ne k.isLt j.isLt hkj
    | _ => rfl

/-- Such a write changes nothing but the registers of its access type. -/
theorem writeReg_frame {r : Reg} (h : IsReadWrite r) (v : Word) (s : State) :
    writeReg r v s = { s with
      inLen := (writeReg r v s).inLen, tblLen := (writeReg r v s).tblLen, countLo := (writeReg r v s).countLo,
      countHi := (writeReg r v s).countHi, pathLen := (writeReg r v s).pathLen, path := (writeReg r v s).path,
      doneIe := (writeReg r v s).doneIe } := by
  rcases h with rfl | rfl | rfl | rfl | rfl | rfl | ⟨k, rfl⟩ <;> rfl

/-- The registers of access type RO (10_state.md R22). -/
theorem writeReg_readOnly {r : Reg} (h : r ∈ [Reg.id, .errInfo, .outLen, .initSize, .compSize, .dataBits, .result, .cursor, .root,
    .nodeCount, .symCount, .ibufCap, .obufCap, .tbufCap, .nodeCap]) (v : Word) (s : State) : writeReg r v s = s := by
  fin_cases h <;> rfl

/-- Settles O11: register by register, through what a read and a write of each does while IDLE. -/
theorem registersReadBackAsTheirAccessTypeSays : Obligations.RegistersReadBackAsTheirAccessTypeSays := by
  intro s v hr hi
  obtain ⟨hfound, hleaf, hzero, hpayload, hnode⟩ := s.result.word_fields
  refine ⟨fun r h => ?_, fun r h => ?_, by simp [Reg.offset], fun k => rfl, fun r => hostRead_register r hr hi, ?_, fun k => rfl,
    ?_, fun hn => ?_, hfound, hleaf, hzero, hpayload, fun h => ?_, fun n hn h => ?_⟩
  · have hframe := writeReg_frame h v s
    have hread := hostRead_register (s := writeReg r v s) r (by rw [hframe]; exact hr) (by rw [hframe]; exact hi)
    rw [readReg_writeReg_same h] at hread
    exact ⟨writeReg r v s, hostWrite_register r v hr hi, hread, fun r' hne => readReg_writeReg_other h hne v s, hframe⟩
  · rw [hostWrite_register r v hr hi, writeReg_readOnly h]
  · simp only [List.forall_mem_cons, readReg_irqEn, readReg_pathLen, readReg_symCount]
    simp [readReg, idValue]
  · simp only [List.forall_mem_cons]
    exact ⟨readReg_node_index rfl, readReg_node_index rfl, by simp⟩
  · rw [toNat_readReg_nodeCount]
    omega
  · exact hnode.trans (by rw [h]; rfl)
  · exact (congrArg BitVec.toNat hnode).trans (by rw [h, toNat_nodeWord (by omega)])

end Sys2Proof.Machine
end

section
/-! SUPPORT. A command's rule commutes with every change of what no command reads: REJECT, IRQ_EN, the host and the model's counters
(40_command_protocol.md R124, 10_state.md R45). -/

namespace Sys2Proof.Machine

/-- The effect with each state it ends in changed. -/
def Effect.map (f : State → State) (e : Effect) : Effect :=
  match e with
  | .completed s => .completed (f s)
  | .raised c info s => .raised c info (f s)
  | .stuck x => .stuck x

/-- Sub-commands in order commute with a change of state that the second commutes with. -/
theorem Effect.map_andThen (f : State → State) (e : Effect) {next : State → Effect} (h : ∀ s, next (f s) = (next s).map f) :
    (e.map f).andThen next = (e.andThen next).map f := by
  cases e with
  | completed s => exact h s
  | raised c info s => rfl
  | stuck x => rfl

theorem Effect.map_ite (f : State → State) (c : Prop) [Decidable c] (a b : Effect) :
    (if c then a else b).map f = if c then a.map f else b.map f :=
  apply_ite _ _ _ _

/-- The fields that no command reads or writes (10_state.md R45; log entries 2, 4, 13). -/
structure Surroundings where
  reject : Bool
  doneIe : Bool
  delay  : Nat
  draws  : Nat
  host   : HostSide

/-- The state with these fields set from outside. -/
def State.within (x : Surroundings) (s : State) : State :=
  { s with reject := x.reject, doneIe := x.doneIe, delay := x.delay, draws := x.draws, host := x.host }

section
variable (x : Surroundings) (s : State)

/-! ### What rules read -/

@[simp] theorem within_caps : (s.within x).caps = s.caps := rfl
@[simp] theorem within_inLen : (s.within x).inLen = s.inLen := rfl
@[simp] theorem within_tblLen : (s.within x).tblLen = s.tblLen := rfl
@[simp] theorem within_cursor : (s.within x).cursor = s.cursor := rfl
@[simp] theorem within_root : (s.within x).root = s.root := rfl
@[simp] theorem within_nodes : (s.within x).nodes = s.nodes := rfl
@[simp] theorem within_code : (s.within x).code = s.code := rfl
@[simp] theorem readByte_within (a : Nat) : readByte (s.within x) a = readByte s a := rfl
@[simp] theorem inputBytes_within : inputBytes (s.within x) = inputBytes s := rfl
@[simp] theorem tableBytes_within : tableBytes (s.within x) = tableBytes s := rfl
@[simp] theorem pathOperand_within : pathOperand (s.within x) = pathOperand s := rfl
@[simp] theorem walk_within (p : BitString) : walk (s.within x) p = walk s p := rfl
@[simp] theorem rootPayload_within : rootPayload (s.within x) = rootPayload s := rfl
@[simp] theorem clearTree_within : clearTree (s.within x) = (clearTree s).within x := rfl

/-! ### The rules -/

theorem ruleHistCount_within : ruleHistCount (s.within x) = (ruleHistCount s).map (State.within x) := by
  simp only [ruleHistCount, Effect.map_ite]
  rfl

theorem ruleCodeDerive_within : ruleCodeDerive (s.within x) = (ruleCodeDerive s).map (State.within x) := by
  simp only [ruleCodeDerive, within_nodes, within_root]
  split <;> rfl

theorem ruleCodeGet_within (b : Byte) : ruleCodeGet b (s.within x) = (ruleCodeGet b s).map (State.within x) := by
  simp only [ruleCodeGet, within_code]
  split <;> rfl

theorem ruleCodeSet_within (b : Byte) : ruleCodeSet b (s.within x) = (ruleCodeSet b s).map (State.within x) := by
  simp only [ruleCodeSet, Effect.map_ite]
  rfl

theorem ruleTableSerialize_within :
    ruleTableSerialize (s.within x) = (ruleTableSerialize s).map (State.within x) := by
  simp only [ruleTableSerialize, Effect.map_ite]
  rfl

theorem rulePack_within : rulePack (s.within x) = (rulePack s).map (State.within x) := by
  simp only [rulePack, within_caps, within_inLen, within_code, inputBytes_within, Effect.map_ite]
  refine if_congr Iff.rfl rfl ?_
  split
  · rfl
  · rw [Effect.map_ite]
    rfl

theorem ruleEncode_within : ruleEncode (s.within x) = (ruleEncode s).map (State.within x) := by
  simp only [ruleEncode]
  rw [ruleHistCount_within, Effect.map_andThen _ _ (fun _ => rfl), Effect.map_andThen _ _ (ruleCodeDerive_within x),
    Effect.map_andThen _ _ (ruleTableSerialize_within x), Effect.map_andThen _ _ (rulePack_within x)]

theorem insertPayload_within (p : BitString) (v : Byte) :
    insertPayload (s.within x) p v = (insertPayload s p v).map (State.within x) := by
  simp only [insertPayload, ensureRoot, within_root, clearTree_within]
  cases s.root with
  | none =>
    simp only [within_caps, within_nodes]
    split <;> rfl
  | some r =>
    simp only [within_caps, within_nodes]
    split <;> rfl

theorem insertEntries_within (es : List (Byte × BitString)) (s : State) :
    insertEntries es (s.within x) = (insertEntries es s).map (State.within x) := by
  induction es generalizing s with
  | nil => rfl
  | cons e es ih => simp only [insertEntries, insertPayload_within, Effect.map_andThen _ _ ih]

theorem loadEntries_within (es : List (Byte × BitString)) :
    loadEntries es (s.within x) = (loadEntries es s).map (State.within x) := by
  simp only [loadEntries, clearTree_within, insertEntries_within]
  exact Effect.map_andThen _ _ (fun _ => rfl)

theorem ruleTableParse_within : ruleTableParse (s.within x) = (ruleTableParse s).map (State.within x) := by
  simp only [ruleTableParse, within_caps, within_tblLen, tableBytes_within, Effect.map_ite]
  refine if_congr Iff.rfl rfl ?_
  split
  · rfl
  · rw [Effect.map_ite]
    refine if_congr Iff.rfl ?_ (loadEntries_within x s _)
    split
    · rfl
    · exact loadEntries_within x s _

theorem ruleTreeSearch_within : ruleTreeSearch (s.within x) = (ruleTreeSearch s).map (State.within x) := by
  simp only [ruleTreeSearch, pathOperand_within, walk_within]
  split <;> rfl

theorem ruleTreeStep_within (bit : Bool) : ruleTreeStep bit (s.within x) = (ruleTreeStep bit s).map (State.within x) := by
  simp only [ruleTreeStep, within_cursor, within_nodes]
  split
  · rfl
  · split <;> rfl

theorem decodeStream_within (d : Nat) : decodeStream d (s.within x) = (decodeStream d s).map (State.within x) := by
  simp only [decodeStream, within_caps, within_nodes, within_root, rootPayload_within, inputBytes_within]
  split <;> rfl

theorem ruleUnpack_within : ruleUnpack (s.within x) = (ruleUnpack s).map (State.within x) := by
  simp only [ruleUnpack, within_caps, within_inLen, readByte_within, Effect.map_ite]
  refine if_congr Iff.rfl rfl (if_congr Iff.rfl rfl ?_)
  split
  · rfl
  · exact decodeStream_within x s _

theorem ruleDecode_within : ruleDecode (s.within x) = (ruleDecode s).map (State.within x) := by
  simp only [ruleDecode, ruleTableParse_within, Effect.map_andThen _ _ (ruleUnpack_within x)]

/-- Every command's rule does the same within any surroundings, and leaves them alone. -/
theorem ruleOf_within (i : Instr) : ruleOf i (s.within x) = (ruleOf i s).map (State.within x) := by
  cases i with
  | nop | histClear | histGet _ | histSet _ | treeBuild | codeClear | treeClear | treeReset => rfl
  | histCount => exact ruleHistCount_within x s
  | codeDerive => exact ruleCodeDerive_within x s
  | codeGet b => exact ruleCodeGet_within x s b
  | codeSet b => exact ruleCodeSet_within x s b
  | tableSerialize => exact ruleTableSerialize_within x s
  | pack => exact rulePack_within x s
  | encode => exact ruleEncode_within x s
  | treeInsert b => exact insertPayload_within x s (pathOperand s) b
  | treeSearch => exact ruleTreeSearch_within x s
  | treeStep bit => exact ruleTreeStep_within x s bit
  | tableParse => exact ruleTableParse_within x s
  | unpack => exact ruleUnpack_within x s
  | decode => exact ruleDecode_within x s

/-- So does its perform step. -/
theorem exec_within (i : Instr) :
    exec i (s.within x) =
      match exec i s with
      | .next t => .next (t.within x)
      | .fault f => .fault f
      | .refused r => .refused r := by
  simp only [exec_eq_finish, ruleOf_within]
  cases ruleOf i s <;> rfl

end

/-- Settles O57: the accept sets the phase, DONE, the error record and CMD whatever they were, and the rest of what is changed is
surroundings, with which every rule commutes. -/
theorem commandsReadOnlyTheCodecState : Obligations.CommandsReadOnlyTheCodecState := by
  intro i s w ph dn rj ie e info c d k h
  exact exec_within { reject := rj, doneIe := ie, delay := d, draws := k, host := h } (acceptCommand w s) i

end Sys2Proof.Machine
end

section
/-! SUPPORT. What TABLE_PARSE reads off a text (46_table_parser.md R263, R264): values that differ, each with a code that fits LEN. -/

namespace Sys2Proof.Machine

/-- The entries read so far: no value twice, and no code longer than a code may be. -/
def EntriesOk (es : List (Byte × BitString)) : Prop :=
  (es.map Prod.fst).Nodup ∧ ∀ e ∈ es, e.2.length ≤ Config.maxCodeLen

/-- The bits of the entry in progress, where the parser is in its code. -/
def Scan.bits (sc : Scan) : BitString :=
  match sc with
  | .number _ _ _ => []
  | .code _ _ c => c

theorem EntriesOk.concat {es : List (Byte × BitString)} {v : Nat} {c : BitString} (h : EntriesOk es)
    (hd : isDuplicate es v ≠ true) (hc : c.length ≤ Config.maxCodeLen) : EntriesOk (es ++ [(BitVec.ofNat 8 v, c)]) := by
  obtain ⟨hnodup, hlen⟩ := h
  refine ⟨?_, ?_⟩
  · rw [List.map_append, List.nodup_append']
    refine ⟨hnodup, List.nodup_singleton _, ?_⟩
    intro b hb hb'
    obtain ⟨e, he, rfl⟩ := List.mem_map.1 hb
    refine hd (List.any_eq_true.2 ⟨e, he, ?_⟩)
    simpa using hb'
  · intro e he
    rcases List.mem_append.1 he with he | he
    · exact hlen e he
    · rw [List.mem_singleton.1 he]
      exact hc

/-- The scanner keeps this of the entries it has read. -/
theorem entriesOk_of_scanTable (text : List Byte) :
    ∀ {sc : Scan} {pos : Nat} {es out : List (Byte × BitString)}, EntriesOk es → sc.bits.length ≤ Config.maxCodeLen →
      scanTable sc pos es text = .entries out → EntriesOk out := by
  induction text with
  | nil =>
    intro sc pos es out hes hc h
    cases sc with
    | number start v nd => simp [scanTable] at h
    | code start v c =>
      simp only [scanTable] at h
      split at h
      · cases h
      · rename_i hd
        cases h
        exact hes.concat hd hc
  | cons ch rest ih =>
    intro sc pos es out hes hc h
    cases sc with
    | number start v nd =>
      simp only [scanTable] at h
      split at h
      · split at h
        · cases h
        · exact ih (sc := .number start _ _) hes (Nat.zero_le _) h
      · split at h
        · cases h
        · split at h
          · cases h
          · exact ih (sc := .code start v []) hes (Nat.zero_le _) h
    | code start v c =>
      simp only [scanTable] at h
      split at h
      · split at h
        · cases h
        · rename_i hfull
          refine ih (sc := .code start v _) hes ?_ h
          have hc : c.length ≤ Config.maxCodeLen := hc
          simp only [Scan.bits, List.length_append, List.length_singleton]
          omega
      · split at h
        · cases h
        · rename_i hd
          split at h
          · cases h
          · exact ih (sc := .number (pos + 1) 0 0) (hes.concat hd hc) (Nat.zero_le _) h

theorem entriesOk_of_parseTable {text : List Byte} {es : List (Byte × BitString)} (h : parseTable text = .entries es) :
    EntriesOk es := by
  have hnil : EntriesOk [] := ⟨List.nodup_nil, by simp⟩
  simp only [parseTable] at h
  split at h
  · cases h
    exact hnil
  · exact entriesOk_of_scanTable text hnil (Nat.zero_le _) h

/-- There are 256 byte values, so an accepted table has at most 256 entries (46_table_parser.md R266). -/
theorem EntriesOk.length_le {es : List (Byte × BitString)} (h : EntriesOk es) : es.length ≤ 256 := by
  have := (List.subperm_of_subset h.1 (fun b _ => mem_allSymbols b)).length_le
  simpa [allSymbols] using this

/-- Reading an empty code as "0" keeps the codes short and the values as they were. -/
theorem EntriesOk.readEmptyCode {es : List (Byte × BitString)} (h : EntriesOk es) : EntriesOk (es.map readEmptyCode) := by
  have hfst : ∀ e : Byte × BitString, (Machine.readEmptyCode e).1 = e.1 := by
    intro e
    simp only [Machine.readEmptyCode]
    split <;> rfl
  refine ⟨?_, ?_⟩
  · rw [List.map_map, show Prod.fst ∘ Machine.readEmptyCode = (Prod.fst : Byte × BitString → Byte) from funext hfst]
    exact h.1
  · intro e he
    obtain ⟨e', he', rfl⟩ := List.mem_map.1 he
    simp only [Machine.readEmptyCode]
    split
    · simp [Config.maxCodeLen]
    · exact h.2 e' he'

end Sys2Proof.Machine
end

section
/-! SUPPORT. What every command's rule keeps: the part of `Inv` that speaks of what commands write. -/

namespace Sys2Proof.Machine

/-- The part of `Inv` that speaks of the capacities and of what commands write. -/
structure StoreOk (caps : Caps) (mem : Memory) (code : CodeTable) (nodes : List Node) (root cursor : Option Nat)
    (symCount : BitVec 9) : Prop where
  capsLegal : caps.Legal
  memory : Memory.wf mem ∧ ∀ c ∈ mem, inBuffers caps c.1 1 = true
  code : CodeOk code
  tree : TreeOk nodes root
  cursor : CursorOk nodes cursor
  nodesFit : nodes.length ≤ caps.nodeCap
  symbols : symCount.toNat ≤ 256

/-- `StoreOk` of a state's fields; a change of any other field keeps it by definition. -/
abbrev CodecOk (s : State) : Prop :=
  StoreOk s.caps s.mem s.code s.nodes s.root s.cursor s.symCount

theorem inv_iff (s : State) : Inv s ↔ CodecOk s ∧ EngineOk s :=
  ⟨fun h => ⟨⟨h.capsLegal, h.memory, h.code, h.tree, h.cursor, h.nodesFit, h.symbols⟩, h.engine⟩,
    fun ⟨h, e⟩ => ⟨h.capsLegal, h.memory, e, h.code, h.tree, h.cursor, h.nodesFit, h.symbols⟩⟩

/-! ### Memory, the tree and the cursor -/

theorem StoreOk.putBytes {caps : Caps} {mem : Memory} {code : CodeTable} {nodes : List Node} {root cursor : Option Nat}
    {symCount : BitVec 9} (h : StoreOk caps mem code nodes root cursor symCount) {a : Nat} {vs : List Byte}
    (hin : ∀ i, i < vs.length → inBuffers caps (a + i) 1 = true) :
    StoreOk caps (Memory.putBytes mem a vs) code nodes root cursor symCount := by
  obtain ⟨hwf, hmem⟩ := h.memory
  refine { h with memory := ⟨Memory.putBytes_wf a vs hwf, fun c hc => ?_⟩ }
  rcases Memory.mem_putBytes hc with ⟨hlow, hhigh⟩ | hc
  · have := hin (c.1 - a) (by omega)
    rwa [Nat.add_sub_cancel' hlow] at this
  · exact hmem c hc

theorem CursorOk.mono {nodes nodes' : List Node} {cursor : Option Nat} (h : CursorOk nodes cursor)
    (hle : nodes.length ≤ nodes'.length) : CursorOk nodes' cursor :=
  fun n hn => Nat.lt_of_lt_of_le (h n hn) hle

theorem CodecOk.clearTree {s : State} (h : CodecOk s) : CodecOk (clearTree s) := by
  obtain ⟨-, -, -, hcap⟩ := h.capsLegal
  exact { h with
    tree := treeOk_clearTree s
    cursor := (treeOk_clearTree s).rootExists
    nodesFit := by simp only [Machine.clearTree, List.length_singleton]; omega
    symbols := Nat.zero_le _ }

/-- The unpacking loop stands at an existing node wherever it ends. -/
theorem cursorOk_unpackBits {cap : Nat} {nodes : List Node} {root : Option Nat} {deg : Option Byte} (h : TreeOk nodes root)
    (bits : BitString) : ∀ {i : Nat} {out : List Byte} {cur : Option Nat}, CursorOk nodes cur →
      CursorOk nodes (unpackBits cap nodes root deg i out cur bits).cur := by
  induction bits with
  | nil => intro i out cur hcur; exact hcur
  | cons bit rest ih =>
    intro i out cur hcur
    simp only [unpackBits]
    split
    · split
      · exact hcur
      · split
        · exact hcur
        · exact ih hcur
    · split
      · exact hcur
      · rename_i c hc
        have hchild : CursorOk nodes (some c) := by
          obtain ⟨n, hn, hnc⟩ := Option.bind_eq_some_iff.1 hc
          intro m hm
          rw [← Option.some_inj.1 hm]
          exact h.childExists n (hcur n hn) bit c hnc
        split
        · exact ih hchild
        · split
          · exact hchild
          · exact ih h.rootExists

/-! ### The rules -/

theorem ruleCodeDerive_keeps {s : State} (h : CodecOk s) : Effect.EndsIn (ruleCodeDerive s) CodecOk := by
  obtain ⟨t, ht, hok⟩ := ruleCodeDerive_of_treeOk h.tree
  rw [ht]
  exact Effect.endsIn_completed _ _ { h with code := hok }

theorem ruleHistCount_keeps {s : State} (h : CodecOk s) : Effect.EndsIn (ruleHistCount s) CodecOk :=
  (ruleHistCount_frame s).mono (by rintro _ ⟨_, rfl⟩; exact h)

/-- A built tree is a tree, and its nodes and symbols fit (43_tree_builder.md R197). -/
theorem ruleTreeBuild_keeps {s : State} (h : CodecOk s) : Effect.EndsIn (ruleTreeBuild s) CodecOk := by
  obtain ⟨-, -, -, hcap⟩ := h.capsLegal
  have hlen := length_buildTree s.hist
  have hseeds := length_seedLeaves_le s.hist
  exact Effect.endsIn_completed _ _ { h with
    tree := treeOk_buildTree s.hist
    cursor := (treeOk_buildTree s.hist).rootExists
    nodesFit := by show (buildTree s.hist).1.length ≤ s.caps.nodeCap; omega
    symbols := Nat.le_trans (BitVec.toNat_ofNat _ _ ▸ Nat.mod_le _ _) hseeds }

theorem ruleCodeSet_keeps {s : State} (h : CodecOk s) (b : Byte) : Effect.EndsIn (ruleCodeSet b s) CodecOk := by
  simp only [ruleCodeSet]
  split
  · exact Effect.endsIn_raised _ _ _ _ h
  · rename_i hne
    have hpos : 1 ≤ (pathOperand s).length := by
      rw [length_pathOperand]
      exact Nat.pos_of_ne_zero fun h0 => hne (BitVec.eq_of_toNat_eq h0)
    exact Effect.endsIn_completed _ _ { h with code := h.code.codePut b hpos (length_pathOperand_le s) }

/-- The table text is stored in TBUF alone (44_code_table.md R225). -/
theorem ruleTableSerialize_keeps {s : State} (h : CodecOk s) : Effect.EndsIn (ruleTableSerialize s) CodecOk := by
  simp only [ruleTableSerialize]
  split
  · exact Effect.endsIn_raised _ _ _ _ h
  · refine Effect.endsIn_completed _ _ (h.putBytes fun i hi => (inBuffers_iff _ _ _).2 ?_)
    simp only [tbufBase]
    omega

/-- The packed bytes are stored in OBUF alone (45_bit_packer.md R246). -/
theorem rulePack_keeps {s : State} (h : CodecOk s) : Effect.EndsIn (rulePack s) CodecOk := by
  simp only [rulePack]
  split
  · exact Effect.endsIn_raised _ _ _ _ h
  · split
    · exact Effect.endsIn_raised _ _ _ _ h
    · split
      · exact Effect.endsIn_raised _ _ _ _ h
      · refine Effect.endsIn_completed _ _ (h.putBytes fun i hi => (inBuffers_iff _ _ _).2 ?_)
        rw [length_packBits_paddedBits] at hi
        simp only [padLength, obufBase] at *
        omega

theorem ruleEncode_keeps {s : State} (h : CodecOk s) : Effect.EndsIn (ruleEncode s) CodecOk :=
  ((((ruleHistCount_keeps h).andThen fun _ => ruleTreeBuild_keeps).andThen fun _ => ruleCodeDerive_keeps).andThen
    fun _ => ruleTableSerialize_keeps).andThen fun _ => rulePack_keeps

/-- After the implicit clear ROOT holds the node the insertion starts from (41_tree.md R145). -/
theorem ensureRoot_keeps {s : State} (h : CodecOk s) :
    CodecOk (ensureRoot s).1 ∧ (ensureRoot s).1.root = some (ensureRoot s).2 := by
  simp only [ensureRoot]
  split
  · rename_i r hr
    exact ⟨h, hr⟩
  · exact ⟨h.clearTree, rfl⟩

/-- An insertion at a path that fits LEN keeps the tree, whether it finds room or not (41_tree.md R143, R149). -/
theorem insertPayload_keeps {s : State} (h : CodecOk s) {p : BitString} (hp : p.length ≤ Config.maxCodeLen) (v : Byte) :
    Effect.EndsIn (insertPayload s p v) CodecOk := by
  obtain ⟨h1, hroot⟩ := ensureRoot_keeps h
  simp only [insertPayload]
  generalize ensureRoot s = sr at h1 hroot
  obtain ⟨s1, r⟩ := sr
  obtain ⟨htree, hgrow, hfit, -⟩ :=
    insertPath_spec (cap := s1.caps.nodeCap) p h1.tree (q := []) (n := r) (by rw [walkRoot_nil, hroot]) hp h1.nodesFit
  generalize insertPath s1.caps.nodeCap s1.nodes r p = res at htree hgrow hfit
  obtain ⟨nodes, _ | n⟩ := res
  · exact Effect.endsIn_raised _ _ _ _ { h1 with tree := htree, cursor := h1.cursor.mono hgrow, nodesFit := hfit }
  · exact Effect.endsIn_completed _ _ { h1 with
      tree := htree.setPayload n v
      cursor := h1.cursor.mono (by rw [setPayload_length]; exact hgrow)
      nodesFit := by rw [setPayload_length]; exact hfit }

theorem insertEntries_keeps {es : List (Byte × BitString)} (hes : ∀ e ∈ es, e.2.length ≤ Config.maxCodeLen) :
    ∀ {s : State}, CodecOk s → Effect.EndsIn (insertEntries es s) CodecOk := by
  induction es with
  | nil => intro s h; exact Effect.endsIn_completed _ _ h
  | cons e es ih =>
    intro s h
    obtain ⟨he, hes⟩ := List.forall_mem_cons.1 hes
    exact (insertPayload_keeps h he e.1).andThen fun _ => ih hes

theorem loadEntries_keeps {s : State} (h : CodecOk s) {es : List (Byte × BitString)} (hes : EntriesOk es) :
    Effect.EndsIn (loadEntries es s) CodecOk := by
  refine (insertEntries_keeps hes.2 h.clearTree).andThen fun u hu => ?_
  exact Effect.endsIn_completed _ _ { hu with
    cursor := hu.tree.rootExists
    symbols := Nat.le_trans (BitVec.toNat_ofNat _ _ ▸ Nat.mod_le _ _) hes.length_le }

theorem ruleTableParse_keeps {s : State} (h : CodecOk s) : Effect.EndsIn (ruleTableParse s) CodecOk := by
  simp only [ruleTableParse]
  split
  · exact Effect.endsIn_raised _ _ _ _ h
  · split
    · exact Effect.endsIn_raised _ _ _ _ h
    · rename_i es hparse
      have hes := entriesOk_of_parseTable hparse
      split
      · split
        · exact Effect.endsIn_raised _ _ _ _ h
        · exact loadEntries_keeps h hes
      · exact loadEntries_keeps h hes.readEmptyCode

theorem ruleTreeStep_keeps {s : State} (h : CodecOk s) (bit : Bool) : Effect.EndsIn (ruleTreeStep bit s) CodecOk := by
  simp only [ruleTreeStep]
  split
  · exact Effect.endsIn_completed _ _ h
  · rename_i n hn
    split
    · exact Effect.endsIn_completed _ _ h
    · rename_i c hc
      refine Effect.endsIn_completed _ _ { h with cursor := fun m hm => ?_ }
      rw [← Option.some_inj.1 hm]
      exact h.tree.childExists n (h.cursor n hn) bit c hc

/-- The bytes put out are stored in OBUF alone, and CURSOR is where the loop ended (47_bit_unpacker.md R288). -/
theorem decodeStream_keeps {s : State} (h : CodecOk s) (d : Nat) : Effect.EndsIn (decodeStream d s) CodecOk := by
  have hout := (unpackBits_out (cap := s.caps.obufCap) (nodes := s.nodes) (root := s.root) (deg := rootPayload s)
    ((streamBits (inputBytes s)).take d) (i := 0) (out := []) (cur := s.root) (Nat.zero_le _)).2
  have hcur := cursorOk_unpackBits (cap := s.caps.obufCap) (deg := rootPayload s) h.tree
    ((streamBits (inputBytes s)).take d) (i := 0) (out := []) h.tree.rootExists
  simp only [decodeStream]
  generalize unpackBits s.caps.obufCap s.nodes s.root (rootPayload s) 0 [] s.root ((streamBits (inputBytes s)).take d) = r
    at hout hcur
  have hstore : StoreOk s.caps (Memory.putBytes s.mem obufBase r.out) s.code s.nodes s.root r.cur s.symCount := by
    refine { h.putBytes fun i hi => (inBuffers_iff _ _ _).2 ?_ with cursor := hcur }
    simp only [obufBase]
    omega
  split
  · exact Effect.endsIn_raised _ _ _ _ hstore
  · exact Effect.endsIn_completed _ _ hstore

theorem ruleUnpack_keeps {s : State} (h : CodecOk s) : Effect.EndsIn (ruleUnpack s) CodecOk := by
  simp only [ruleUnpack]
  split
  · exact Effect.endsIn_raised _ _ _ _ h
  · split
    · exact Effect.endsIn_raised _ _ _ _ h
    · split
      · exact Effect.endsIn_raised _ _ _ _ h
      · exact decodeStream_keeps h _

/-- Every command's rule keeps the store, whether it completes or raises an error. -/
theorem ruleOf_keeps (i : Instr) {s : State} (h : CodecOk s) : Effect.EndsIn (ruleOf i s) CodecOk := by
  cases i with
  | nop | histClear | histGet _ | histSet _ => exact Effect.endsIn_completed _ _ h
  | codeClear => exact Effect.endsIn_completed _ _ { h with code := codeOk_emptyCode }
  | treeClear => exact Effect.endsIn_completed _ _ h.clearTree
  | treeReset => exact Effect.endsIn_completed _ _ { h with cursor := h.tree.rootExists }
  | histCount => exact ruleHistCount_keeps h
  | treeBuild => exact ruleTreeBuild_keeps h
  | codeDerive => exact ruleCodeDerive_keeps h
  | codeGet b => exact (ruleCodeGet_frame b s).mono (by rintro _ ⟨_, _, _, rfl⟩; exact h)
  | codeSet b => exact ruleCodeSet_keeps h b
  | tableSerialize => exact ruleTableSerialize_keeps h
  | pack => exact rulePack_keeps h
  | encode => exact ruleEncode_keeps h
  | treeInsert b => exact insertPayload_keeps h (length_pathOperand_le s) b
  | treeSearch => exact (ruleTreeSearch_frame s).mono (by rintro _ ⟨_, rfl⟩; exact h)
  | treeStep bit => exact ruleTreeStep_keeps h bit
  | tableParse => exact ruleTableParse_keeps h
  | unpack => exact ruleUnpack_keeps h
  | decode => exact (ruleTableParse_keeps h).andThen fun _ => ruleUnpack_keeps

end Sys2Proof.Machine
end

section
/-! SUPPORT. Every step keeps `Inv`: the engine's perform step through its rule, the host's turn access by access. -/

namespace Sys2Proof.Machine

/-! ### The engine -/

/-- A performed command keeps the invariant: its rule keeps the store and starts from a clear error record, and it ends IDLE. -/
theorem Inv.exec {s t : State} (h : Inv s) (i : Instr) (ht : exec i s = .next t) : Inv t := by
  obtain ⟨hcodec, -, hrecord, -⟩ := (inv_iff s).1 h
  rw [exec_eq_next_iff] at ht
  rcases ht with ⟨u, hu, rfl⟩ | ⟨c, info, u, hu, rfl⟩
  · have f := (ruleOf_frame i s).1 u hu
    refine (inv_iff _).2 ⟨(ruleOf_keeps i hcodec).1 u hu, by simp, fun he => ?_, fun _ => rfl⟩
    exact f.errInfo.trans (hrecord (f.errCode.symm.trans he))
  · exact (inv_iff _).2 ⟨(ruleOf_keeps i hcodec).2 c info u hu, by simp, by simp, fun _ => rfl⟩

theorem Inv.performCommand {s t : State} (h : Inv s) (ht : performCommand s = .next t) : Inv t := by
  rcases performCommand_eq s with ⟨i, -, hi⟩ | ⟨why, -, hi⟩
  · exact h.exec i (hi.symm.trans ht)
  · have hraise : raise .illegalCommand s.cmd s = t := by simpa [hi] using ht
    rw [← hraise]
    exact (inv_iff _).2 ⟨((inv_iff s).1 h).1, by simp, by simp, fun _ => rfl⟩

/-! ### The host's accesses -/

/-- A change of what the invariant does not speak of keeps it. -/
theorem Inv.congr {s t : State} (h : Inv s) (hcodec : CodecOk s → CodecOk t) (hengine : EngineOk s → EngineOk t) : Inv t := by
  obtain ⟨h1, h2⟩ := (inv_iff s).1 h
  exact (inv_iff t).2 ⟨hcodec h1, hengine h2⟩

theorem Inv.hostRead {s : State} (h : Inv s) (a : Word) (n : Nat) : Inv (hostRead a n s).1 := by
  rcases hostRead_state a n s with hs | hs <;> rw [hs]
  · exact h
  · exact h.congr id id

theorem Inv.writeStatus {s : State} (h : Inv s) (v : Word) : Inv (writeStatus v s) := by
  refine h.congr id fun ⟨hbusy, hrecord, hreset⟩ => ⟨fun hp => ?_, hrecord, hreset⟩
  obtain ⟨hdone, herr⟩ := hbusy hp
  exact ⟨by simp only [Machine.writeStatus, hdone, Bool.false_and], herr⟩

/-- An accept starts from a clear record (40_command_protocol.md R121). -/
theorem Inv.accept {s : State} (h : Inv s) (hr : s.resetPin = false) (w : Word) : Inv (armEngine (acceptCommand w s)) := by
  rw [armEngine_frame]
  refine h.congr id fun _ => ⟨fun _ => ⟨rfl, rfl⟩, fun _ => rfl, fun hp => ?_⟩
  exact absurd (hr.symm.trans hp) (by decide)

theorem Inv.writeReg {s : State} (h : Inv s) (hr : s.resetPin = false) (r : Reg) (v : Word) : Inv (writeReg r v s) := by
  cases r with
  | status => exact h.writeStatus v
  | cmd => exact h.accept hr v
  | irqEn | inLen | tblLen | countLo | countHi | pathLen | path _ => exact h.congr id id
  | id | errInfo | outLen | initSize | compSize | dataBits | result | cursor | root | nodeCount | symCount | ibufCap | obufCap
  | tbufCap | nodeCap => exact h

/-- A buffer access stores bytes of its window alone. -/
theorem Inv.writeBuffer {s : State} (h : Inv s) {a : Word} {n b : Nat} (hp : placeOf s.caps a n = some (.buffer b)) (v : Word) :
    Inv (writeBytes s b (storedBytes v n)) := by
  obtain ⟨-, hn, hin⟩ := placeOf_buffer hp
  exact h.congr (fun hc => hc.putBytes fun i hi => inBuffers_byte hin (by rwa [length_storedBytes v n hn] at hi)) id

theorem Inv.hostWrite {s : State} (h : Inv s) (a : Word) (n : Nat) (v : Word) : Inv (hostWrite a n v s).1 := by
  rcases hostWrite_state a n v s with hs | ⟨-, hs⟩ | ⟨p, hr, hp, -, hs⟩ <;> rw [hs]
  · exact h
  · exact h.congr id id
  · cases p with
    | register r => exact h.writeReg hr r v
    | buffer b => exact h.writeBuffer hp v

/-! ### Reset -/

/-- The reset state meets the invariant, whatever the legal capacities (70_reset_and_hazards.md R331, R332). -/
theorem inv_afterReset {caps : Caps} (hc : caps.Legal) (pin : Bool) (resets draws : Nat) (host : HostSide) :
    Inv (State.afterReset caps pin resets draws host) where
  capsLegal := hc
  memory := ⟨List.Pairwise.nil, by simp [State.afterReset]⟩
  engine := ⟨by simp [State.afterReset], fun _ => rfl, fun _ => rfl⟩
  code := codeOk_emptyCode
  tree := treeOk_empty
  cursor := treeOk_empty.rootExists
  nodesFit := Nat.zero_le _
  symbols := Nat.zero_le _

theorem Inv.assertReset {s : State} (h : Inv s) : Inv (assertReset s) := by
  simp only [Machine.assertReset]
  split
  · exact h
  · exact inv_afterReset h.capsLegal _ _ _ _

theorem Inv.releaseReset {s : State} (h : Inv s) : Inv (releaseReset s) :=
  h.congr id fun ⟨hbusy, hrecord, _⟩ => ⟨hbusy, hrecord, fun hp => absurd hp (by simp [Machine.releaseReset])⟩

/-! ### The host's turn -/

/-- The invariant does not speak of the host. -/
theorem Inv.withHost {s : State} (h : Inv s) (host : HostSide) : Inv { s with host := host } :=
  h.congr id id

theorem Inv.runHostOp {s : State} (h : Inv s) (op : HostOp) : Inv (runHostOp op s) := by
  cases op with
  | read a n => exact ((h.hostRead a n).withHost _).withHost _
  | write a n v => exact ((h.hostWrite a n v).withHost _).withHost _
  | waitDone =>
    simp only [Machine.runHostOp]
    split
    · exact ((h.hostRead statusAddress 4).withHost _).withHost _
    · exact (h.hostRead statusAddress 4).withHost _
  | ifField hi lo value target =>
    simp only [Machine.runHostOp]
    split <;> exact h.withHost _
  | goto target => exact h.withHost _
  | assertReset => exact h.assertReset.withHost _
  | releaseReset => exact h.releaseReset.withHost _

theorem Inv.hostTurn {s : State} (h : Inv s) : Inv (hostTurn s) := by
  simp only [Machine.hostTurn]
  split
  · exact h
  · exact h.runHostOp _

/-- Settles O58: a step is the host's turn, one of whose delay turns has passed at most, or the perform step. -/
theorem everyStepKeepsTheInvariant : Obligations.EveryStepKeepsTheInvariant := by
  intro s t h ht
  rcases step_eq s with ⟨hs, -⟩ | ⟨d, -, -, -, hs⟩ | ⟨-, -, -, hs⟩ <;> rw [hs] at ht
  · cases ht
    exact h.hostTurn
  · cases ht
    exact Inv.hostTurn (h.congr id id)
  · exact h.performCommand ht

end Sys2Proof.Machine
end

section
/-! SUPPORT. What an access to each kind of address does (20_memory.md R63 to R73), in either phase. -/

namespace Sys2Proof.Machine

/-! ### Which accesses are BUSERR (20_memory.md R68 to R70) -/

theorem regAt_eq_none_iff (a : Nat) : regAt a = none ↔ ∀ r : Reg, r.offset ≠ a := by
  constructor
  · rintro h r rfl
    simp [regAt_offset] at h
  · exact fun h => List.find?_eq_none.2 fun r _ => by simpa using h r

/-- An access at `a` neither names a register nor lies within a buffer's window (20_memory.md R63). -/
def IsUnmapped (c : Caps) (a n : Nat) : Prop :=
  (∀ r : Reg, r.offset ≠ a) ∧ ¬ (0x01000000 ≤ a ∧ a + n ≤ 0x01000000 + c.ibufCap) ∧
    ¬ (0x02000000 ≤ a ∧ a + n ≤ 0x02000000 + c.obufCap) ∧ ¬ (0x03000000 ≤ a ∧ a + n ≤ 0x03000000 + c.tbufCap)

/-- What the rules call BUSERR: a wrong width, a misaligned access, a 1-byte access to the register range, or an unmapped one. -/
def IsBusError (c : Caps) (a n : Nat) : Prop :=
  (n ≠ 1 ∧ n ≠ 4) ∨ (n = 4 ∧ a % 4 ≠ 0) ∨ (n = 1 ∧ a < 0x1000) ∨ IsUnmapped c a n

theorem isUnmapped_iff (c : Caps) (a n : Nat) : IsUnmapped c a n ↔ regAt a = none ∧ inBuffers c a n = false := by
  rw [IsUnmapped, regAt_eq_none_iff, ← Bool.not_eq_true, inBuffers_iff, not_or, not_or]

theorem placeOf_word_eq_none_iff (c : Caps) (a : Word) :
    placeOf c a 4 = none ↔ a.toNat % 4 ≠ 0 ∨ (regAt a.toNat = none ∧ inBuffers c a.toNat 4 = false) := by
  by_cases ha : a.toNat % 4 = 0
  · cases hr : regAt a.toNat <;> simp [placeOf, ha, hr]
  · simp [placeOf, ha]

theorem placeOf_byte_eq_none_iff (c : Caps) (a : Word) : placeOf c a 1 = none ↔ inBuffers c a.toNat 1 = false := by
  simp [placeOf]

/-- The address map answers no place exactly for the accesses that the rules call BUSERR. -/
theorem placeOf_eq_none_iff (c : Caps) (a : Word) (n : Nat) : placeOf c a n = none ↔ IsBusError c a.toNat n := by
  rw [IsBusError, isUnmapped_iff]
  by_cases h4 : n = 4
  · subst h4
    simp [placeOf_word_eq_none_iff]
  by_cases h1 : n = 1
  · subst h1
    have hlow : a.toNat < 0x1000 → inBuffers c a.toNat 1 = false := fun hl => by
      rw [← Bool.not_eq_true, inBuffers_iff]
      omega
    rw [placeOf_byte_eq_none_iff]
    by_cases hl : a.toNat < 0x1000
    · simp [hlow hl, hl]
    · simp [regAt_of_le (Nat.le_of_not_lt hl), hl]
  · simp [placeOf, h1, h4]

/-! ### One rule per kind of access -/

section
variable {s : State} {a : Word} {n : Nat} {p : Place}

theorem hostRead_busErr (hr : s.resetPin = false) (hp : placeOf s.caps a n = none) : hostRead a n s = (s, 0, .busErr) := by
  simp [hostRead, hr, hp]

theorem hostWrite_busErr (hr : s.resetPin = false) (hp : placeOf s.caps a n = none) (v : Word) :
    hostWrite a n v s = (s, .busErr) := by
  simp [hostWrite, hr, hp]

/-- A read while IDLE, or of a place that R73 names, gives the place's value and does nothing. -/
theorem hostRead_value (hr : s.resetPin = false) (hp : placeOf s.caps a n = some p)
    (h : s.phase = .idle ∨ p.readableWhileBusy = true) : hostRead a n s = (s, readPlace p n s, .okay) := by
  rcases h with h | h <;> simp [hostRead, hr, hp, busyFlag, h]

/-- Any other read while BUSY draws a free value (20_memory.md R73, log entry 4). -/
theorem hostRead_drawn (hr : s.resetPin = false) (hp : placeOf s.caps a n = some p) (hb : s.phase = .busy)
    (h : p.readableWhileBusy = false) :
    hostRead a n s = ({ s with draws := s.draws + 1 }, Config.busyRead s.draws, .okay) := by
  simp [hostRead, hr, hp, busyFlag, hb, h]

/-- A write while IDLE, or to STATUS, acts on its place. -/
theorem hostWrite_performed (hr : s.resetPin = false) (hp : placeOf s.caps a n = some p)
    (h : s.phase = .idle ∨ p = .register .status) (v : Word) : hostWrite a n v s = (writePlace p n v s, .okay) := by
  rcases h with h | h <;> simp [hostWrite, hr, hp, busyFlag, h]

/-- Any other write while BUSY is dropped with REJECT (20_memory.md R73). -/
theorem hostWrite_dropped (hr : s.resetPin = false) (hp : placeOf s.caps a n = some p) (hb : s.phase = .busy)
    (h : p ≠ .register .status) (v : Word) : hostWrite a n v s = ({ s with reject := true }, .okay) := by
  simp [hostWrite, hr, hp, busyFlag, hb, h]

theorem hostRead_response_okay (hr : s.resetPin = false) (hp : placeOf s.caps a n = some p) :
    (hostRead a n s).2.2 = .okay := by
  cases hb : s.phase with
  | idle => rw [hostRead_value hr hp (.inl hb)]
  | busy =>
    cases h : p.readableWhileBusy with
    | true => rw [hostRead_value hr hp (.inr h)]
    | false => rw [hostRead_drawn hr hp hb h]

theorem hostWrite_response_okay (hr : s.resetPin = false) (hp : placeOf s.caps a n = some p) (v : Word) :
    (hostWrite a n v s).2 = .okay := by
  cases hb : s.phase with
  | idle => rw [hostWrite_performed hr hp (.inl hb)]
  | busy =>
    by_cases h : p = .register .status
    · rw [hostWrite_performed hr hp (.inr h)]
    · rw [hostWrite_dropped hr hp hb h]

end

/-- While reset is asserted nothing is answered (70_reset_and_hazards.md R330). -/
theorem hostRead_unanswered {s : State} (h : s.resetPin = true) (a : Word) (n : Nat) :
    hostRead a n s = (s, s.host.value, .unanswered) :=
  if_pos h

theorem hostWrite_unanswered {s : State} (h : s.resetPin = true) (a : Word) (n : Nat) (v : Word) :
    hostWrite a n v s = (s, .unanswered) :=
  if_pos h

/-- The places that read their value while BUSY are the registers R73 names. -/
theorem readableWhileBusy_iff (p : Place) :
    p.readableWhileBusy = true ↔
      ∃ r ∈ [Reg.status, Reg.id, Reg.irqEn, Reg.ibufCap, Reg.obufCap, Reg.tbufCap, Reg.nodeCap], p = .register r := by
  cases p with
  | buffer a => simp [Place.readableWhileBusy]
  | register r => cases r <;> simp [Place.readableWhileBusy, readableWhileBusy]

/-! ### The statements about BUSERR and BUSY -/

/-- Settles O7: while BUSY an access has one of three rules, by its place alone. -/
theorem busyAccessesAreDroppedOrDrawn : Obligations.BusyAccessesAreDroppedOrDrawn := by
  intro s a n p hr hb hp
  refine ⟨fun v h => hostWrite_dropped hr hp hb h v, fun r hmem h => ?_, fun h => ?_, fun w => ?_⟩
  · subst h
    exact hostRead_value hr hp (.inr ((readableWhileBusy_iff _).2 ⟨r, hmem, rfl⟩))
  · refine hostRead_drawn hr hp hb (Bool.eq_false_iff.2 fun hread => ?_)
    obtain ⟨r, hmem, he⟩ := (readableWhileBusy_iff p).1 hread
    exact h r hmem he
  · exact hostWrite_dropped hr (placeOf_offset s.caps .cmd) hb (by simp) w

/-- Settles O8: the address map has no place exactly for the accesses the rules name, and every place is answered OKAY. -/
theorem busErrorsChangeNothing : Obligations.BusErrorsChangeNothing := by
  intro s a n v hr
  have hmap := placeOf_eq_none_iff s.caps a n
  refine ⟨fun h => ?_, fun h => ?_⟩
  · have hp := hmap.2 h
    exact ⟨hostRead_busErr hr hp, hostWrite_busErr hr hp v⟩
  · obtain ⟨p, hp⟩ := Option.ne_none_iff_exists'.1 (mt hmap.1 h)
    exact ⟨hostRead_response_okay hr hp, hostWrite_response_okay hr hp v⟩

/-! ### Buffer bytes (20_memory.md R66) -/

theorem readByte_writeBytes_inside {s : State} (h : Memory.wf s.mem) (a : Nat) (vs : List Byte) {i : Nat} (hi : i < vs.length) :
    readByte (writeBytes s a vs) (a + i) = vs[i] := by
  rw [readByte_writeBytes s a vs _ h, if_pos (by omega)]
  simp [hi]

/-- A word is its four bytes, the lowest in bits [7:0]. -/
theorem append_extract_bytes (v : Word) :
    v.extractLsb' 24 8 ++ v.extractLsb' 16 8 ++ v.extractLsb' 8 8 ++ v.extractLsb' 0 8 = v := by
  apply BitVec.eq_of_getLsbD_eq
  intro k hk
  simp only [BitVec.getLsbD_append, BitVec.getLsbD_extractLsb']
  grind

/-- A byte with 24 zero bits above it is the byte zero-extended. -/
theorem zero_append_byte (b : Byte) : (0 : BitVec 24) ++ b = b.setWidth 32 :=
  BitVec.eq_of_toNat_eq ((toNat_zero_append (k := 24) b).trans (by
    rw [BitVec.toNat_setWidth, Nat.mod_eq_of_lt (Nat.lt_of_lt_of_le b.isLt (by decide))]))

/-- A 4-byte write reads back byte by byte. -/
theorem readByte_writeBytes_word {s : State} (h : Memory.wf s.mem) (a : Nat) (v : Word) :
    let t := writeBytes s a (storedBytes v 4)
    readByte t a = v.extractLsb' 0 8 ∧ readByte t (a + 1) = v.extractLsb' 8 8 ∧ readByte t (a + 2) = v.extractLsb' 16 8 ∧
      readByte t (a + 3) = v.extractLsb' 24 8 := by
  have hbyte := fun i (hi : i < 4) => readByte_writeBytes_inside h a (storedBytes v 4) hi
  exact ⟨hbyte 0 (by decide), hbyte 1 (by decide), hbyte 2 (by decide), hbyte 3 (by decide)⟩

/-- A 4-byte write reads back as the word. -/
theorem readBuffer_writeBytes_word {s : State} (h : Memory.wf s.mem) (a : Nat) (v : Word) :
    readBuffer (writeBytes s a (storedBytes v 4)) a 4 = v := by
  obtain ⟨h0, h1, h2, h3⟩ := readByte_writeBytes_word h a v
  rw [readBuffer, if_neg (by decide), h0, h1, h2, h3, append_extract_bytes]

/-- Settles O9: an access in a window reaches the buffer at its own address, and a write stores the word's bytes there from the
lowest upward. -/
theorem bufferAccessesAreLittleEndian : Obligations.BufferAccessesAreLittleEndian := by
  intro s a v hwf hr hi within
  refine ⟨fun hin ha => ?_, fun hin => ?_⟩
  · have hp := placeOf_of_inBuffers ((inBuffers_iff s.caps a.toNat 4).2 hin) (.inr ⟨rfl, ha⟩)
    obtain ⟨h0, h1, h2, h3⟩ := readByte_writeBytes_word hwf a.toNat v
    refine ⟨hostRead_value hr hp (.inl hi), writeBytes s a.toNat (storedBytes v 4), hostWrite_performed hr hp (.inl hi) v, rfl,
      h0, h1, h2, h3, ?_, fun x hx => readByte_writeBytes_outside s _ _ x hwf hx⟩
    rw [hostRead_value (s := writeBytes s a.toNat (storedBytes v 4)) hr hp (.inl hi), readPlace,
      readBuffer_writeBytes_word hwf]
  · have hp := placeOf_of_inBuffers ((inBuffers_iff s.caps a.toNat 1).2 hin) (.inl rfl)
    have hread : readPlace (.buffer a.toNat) 1 s = (readByte s a.toNat).setWidth 32 := zero_append_byte _
    refine ⟨hread ▸ hostRead_value hr hp (.inl hi), writeBytes s a.toNat (storedBytes v 1),
      hostWrite_performed hr hp (.inl hi) v, rfl,
      readByte_writeBytes_inside hwf a.toNat (storedBytes v 1) (i := 0) Nat.zero_lt_one, fun x hx => ?_⟩
    refine readByte_writeBytes_outside s _ _ x hwf ?_
    rw [length_storedBytes v 1 (.inl rfl)]
    omega

/-! ### The reset event (70_reset_and_hazards.md R330, R332) -/

/-- Settles O14: the state after the event is the reset state with the same capacities and host, and it holds the input. -/
theorem resetEventDiscardsEverything : Obligations.ResetEventDiscardsEverything := by
  intro s h
  have ht : assertReset s = State.afterReset s.caps true (s.resets + 1) s.draws s.host := by simp [assertReset, h]
  have hpin : (assertReset s).resetPin = true := by rw [ht]; rfl
  refine ⟨assertReset s, rfl, hpin, ?_, ?_, ?_, ?_, ?_, readByte_assertReset h, ?_, ?_, ?_, hostRead_unanswered hpin,
    hostWrite_unanswered hpin, if_pos hpin, rfl⟩ <;> rw [ht]
  · rfl
  · rfl
  · rfl
  · exact histAt_zeroHist
  · exact codeAt_emptyCode
  · rfl
  · rfl
  · rfl

end Sys2Proof.Machine
end

section
/-! SUPPORT. Which buffer bytes each command's rule stores (20_memory.md R64, R80). -/

namespace Sys2Proof.Machine

/-! ### Storing within a region -/

/-- A byte of OBUF[0, OUT_LEN). -/
def InOutput (s : State) (a : Nat) : Prop :=
  obufBase ≤ a ∧ a < obufBase + s.outLen.toNat

/-- A byte of TBUF[0, TBL_LEN). -/
def InTable (s : State) (a : Nat) : Prop :=
  tbufBase ≤ a ∧ a < tbufBase + s.tblLen.toNat

/-- `u` comes from `s` by storing buffer bytes of a region alone, which the registers of `u` bound. The form of memory and the
capacities are kept, so that a next rule can start from `u`. -/
structure StoresWithin (region : State → Nat → Prop) (s u : State) : Prop where
  caps : u.caps = s.caps
  wf : Memory.wf u.mem
  outside : ∀ a, ¬ region u a → readByte u a = readByte s a

/-- The empty region: nothing is stored. -/
abbrev StoresNothing (s u : State) : Prop :=
  StoresWithin (fun _ _ => False) s u

section
variable {s u t : State} {region region' : State → Nat → Prop}

theorem StoresWithin.mono (h : StoresWithin region s u) (hsub : ∀ a, region u a → region' u a) :
    StoresWithin region' s u :=
  { h with outside := fun a ha => h.outside a (mt (hsub a) ha) }

/-- A rule that leaves memory alone stores within every region. -/
theorem StoresWithin.of_mem_eq (hwf : Memory.wf s.mem) (hcaps : u.caps = s.caps) (hmem : u.mem = s.mem)
    (hresets : u.resets = s.resets) : StoresWithin region s u where
  caps := hcaps
  wf := hmem ▸ hwf
  outside a _ := readByte_congr hmem hresets a

/-- A rule that stores bytes stores within every region that holds their addresses. -/
theorem StoresWithin.of_putBytes {base : Nat} {vs : List Byte} (hwf : Memory.wf s.mem) (hcaps : u.caps = s.caps)
    (hmem : u.mem = Memory.putBytes s.mem base vs) (hresets : u.resets = s.resets)
    (hin : ∀ a, base ≤ a → a < base + vs.length → region u a) : StoresWithin region s u where
  caps := hcaps
  wf := hmem ▸ Memory.putBytes_wf base vs hwf
  outside a ha := by
    have hout : a < base ∨ base + vs.length ≤ a := by
      by_contra hc
      exact ha (hin a (by omega) (by omega))
    calc
      readByte u a = readByte (writeBytes s base vs) a := readByte_congr (s := writeBytes s base vs) hmem hresets a
      _ = readByte s a := readByte_writeBytes_outside s base vs a hwf hout

/-- Two rules in order store within both regions, where the second leaves the first's bounds alone. -/
theorem StoresWithin.trans (h : StoresWithin region s u) (h' : StoresWithin region' u t)
    (hkeep : ∀ a, region u a → region t a) : StoresWithin (fun x a => region x a ∨ region' x a) s t where
  caps := h'.caps.trans h.caps
  wf := h'.wf
  outside a ha := by
    rw [h'.outside a fun hr => ha (.inr hr), h.outside a fun hr => ha (.inl (hkeep a hr))]

/-- After a rule that stores nothing, what the next one stores is all that is stored. -/
theorem StoresNothing.trans (h : StoresNothing s u) (h' : StoresWithin region u t) : StoresWithin region s t :=
  (StoresWithin.trans h h' fun _ => id).mono fun _ ha => ha.resolve_left id

end

/-- An effect ends with both of two properties that it ends with. -/
theorem Effect.EndsIn.and {e : Effect} {P Q : State → Prop} (hP : Effect.EndsIn e P) (hQ : Effect.EndsIn e Q) :
    Effect.EndsIn e (fun u => P u ∧ Q u) :=
  ⟨fun t ht => ⟨hP.1 t ht, hQ.1 t ht⟩, fun c i t ht => ⟨hP.2 c i t ht, hQ.2 c i t ht⟩⟩

/-- A length that fits a buffer fits its register. -/
theorem toNat_ofNat_of_le_cap {n cap : Nat} (h : n ≤ cap) (hcap : cap ≤ 2 ^ 24) : (BitVec.ofNat 32 n).toNat = n := by
  rw [BitVec.toNat_ofNat]
  omega

/-! ### The rules that store -/

section
variable {s : State}

/-- The table text is stored in TBUF[0, TBL_LEN) (44_code_table.md R218, R225). -/
theorem ruleTableSerialize_stores (hc : s.caps.Legal) (hwf : Memory.wf s.mem) :
    Effect.EndsIn (ruleTableSerialize s) (StoresWithin InTable s) := by
  obtain ⟨-, -, ⟨-, hcap⟩, -⟩ := hc
  simp only [ruleTableSerialize]
  split
  · exact Effect.endsIn_raised _ _ _ _ (.of_mem_eq hwf rfl rfl rfl)
  · rename_i hfit
    refine Effect.endsIn_completed _ _ (.of_putBytes hwf rfl rfl rfl fun a hlow hhigh => ⟨hlow, ?_⟩)
    rwa [toNat_ofNat_of_le_cap (Nat.le_of_not_lt hfit) hcap]

/-- The packed bytes are stored in OBUF[0, OUT_LEN) (45_bit_packer.md R246). -/
theorem rulePack_stores (hc : s.caps.Legal) (hwf : Memory.wf s.mem) :
    Effect.EndsIn (rulePack s) (StoresWithin InOutput s) := by
  obtain ⟨-, ⟨-, hcap⟩, -, -⟩ := hc
  simp only [rulePack]
  split
  · exact Effect.endsIn_raised _ _ _ _ (.of_mem_eq hwf rfl rfl rfl)
  · split
    · exact Effect.endsIn_raised _ _ _ _ (.of_mem_eq hwf rfl rfl rfl)
    · split
      · exact Effect.endsIn_raised _ _ _ _ (.of_mem_eq hwf rfl rfl rfl)
      · rename_i hfit
        refine Effect.endsIn_completed _ _ (.of_putBytes hwf rfl rfl rfl fun a hlow hhigh => ⟨hlow, ?_⟩)
        rw [length_packBits_paddedBits] at hhigh
        rw [toNat_ofNat_of_le_cap (Nat.le_of_not_lt hfit) hcap, padLength]
        omega

/-- The bytes put out are stored in OBUF[0, OUT_LEN), whether the stream ends well or not (47_bit_unpacker.md R288). -/
theorem decodeStream_stores (hc : s.caps.Legal) (hwf : Memory.wf s.mem) (d : Nat) :
    Effect.EndsIn (decodeStream d s) (StoresWithin InOutput s) := by
  obtain ⟨-, ⟨-, hcap⟩, -, -⟩ := hc
  have hout := (unpackBits_out (cap := s.caps.obufCap) (nodes := s.nodes) (root := s.root) (deg := rootPayload s)
    ((streamBits (inputBytes s)).take d) (i := 0) (out := []) (cur := s.root) (Nat.zero_le _)).2
  simp only [decodeStream]
  generalize unpackBits s.caps.obufCap s.nodes s.root (rootPayload s) 0 [] s.root ((streamBits (inputBytes s)).take d) = r
    at hout
  have hlen : ∀ a, a < obufBase + r.out.length → a < obufBase + (BitVec.ofNat 32 r.out.length).toNat := fun a ha => by
    rwa [toNat_ofNat_of_le_cap hout hcap]
  split
  · exact Effect.endsIn_raised _ _ _ _ (.of_putBytes hwf rfl rfl rfl fun a hlow hhigh => ⟨hlow, hlen a hhigh⟩)
  · exact Effect.endsIn_completed _ _ (.of_putBytes hwf rfl rfl rfl fun a hlow hhigh => ⟨hlow, hlen a hhigh⟩)

theorem ruleUnpack_stores (hc : s.caps.Legal) (hwf : Memory.wf s.mem) :
    Effect.EndsIn (ruleUnpack s) (StoresWithin InOutput s) := by
  simp only [ruleUnpack]
  split
  · exact Effect.endsIn_raised _ _ _ _ (.of_mem_eq hwf rfl rfl rfl)
  · split
    · exact Effect.endsIn_raised _ _ _ _ (.of_mem_eq hwf rfl rfl rfl)
    · split
      · exact Effect.endsIn_raised _ _ _ _ (.of_mem_eq hwf rfl rfl rfl)
      · exact decodeStream_stores hc hwf _

/-! ### The other rules -/

theorem ruleHistCount_storesNothing (hwf : Memory.wf s.mem) : Effect.EndsIn (ruleHistCount s) (StoresNothing s) :=
  (ruleHistCount_frame s).mono (by rintro _ ⟨_, rfl⟩; exact .of_mem_eq hwf rfl rfl rfl)

theorem ruleTreeBuild_storesNothing (hwf : Memory.wf s.mem) : Effect.EndsIn (ruleTreeBuild s) (StoresNothing s) :=
  Effect.endsIn_completed _ _ (.of_mem_eq hwf rfl rfl rfl)

theorem ruleCodeDerive_storesNothing (hwf : Memory.wf s.mem) : Effect.EndsIn (ruleCodeDerive s) (StoresNothing s) :=
  (ruleCodeDerive_frame s).mono (by rintro _ ⟨_, rfl⟩; exact .of_mem_eq hwf rfl rfl rfl)

theorem ruleTableParse_storesNothing (hwf : Memory.wf s.mem) : Effect.EndsIn (ruleTableParse s) (StoresNothing s) :=
  (ruleTableParse_frame s).mono (by rintro _ ⟨_, _, _, _, rfl⟩; exact .of_mem_eq hwf rfl rfl rfl)

/-! ### The sequences -/

/-- The three sub-commands of ENCODE before TABLE_SERIALIZE store nothing (45_bit_packer.md R249). -/
theorem countBuildDerive_storesNothing (hwf : Memory.wf s.mem) :
    Effect.EndsIn (((ruleHistCount s).andThen ruleTreeBuild).andThen ruleCodeDerive) (StoresNothing s) :=
  ((ruleHistCount_storesNothing hwf).andThen fun _ hu =>
      (ruleTreeBuild_storesNothing hu.wf).mono fun _ => StoresNothing.trans hu).andThen fun _ hu =>
    (ruleCodeDerive_storesNothing hu.wf).mono fun _ => StoresNothing.trans hu

/-- ENCODE stores the table text, then the packed bytes; PACK leaves TBL_LEN as it was. -/
theorem ruleEncode_stores (hc : s.caps.Legal) (hwf : Memory.wf s.mem) :
    Effect.EndsIn (ruleEncode s) (StoresWithin (fun u a => InTable u a ∨ InOutput u a) s) := by
  have htable : Effect.EndsIn
      ((((ruleHistCount s).andThen ruleTreeBuild).andThen ruleCodeDerive).andThen ruleTableSerialize)
      (StoresWithin InTable s) :=
    Effect.endsIn_andThen (countBuildDerive_storesNothing hwf)
      (fun u hu => (ruleTableSerialize_stores (hu.caps ▸ hc) hu.wf).mono fun _ => StoresNothing.trans hu)
      (fun u hu => hu.mono fun _ => False.elim)
  refine Effect.endsIn_andThen htable (fun u hu => ?_) (fun u hu => hu.mono fun _ => .inl)
  refine ((rulePack_stores (hu.caps ▸ hc) hu.wf).and (rulePack_frame u)).mono ?_
  rintro t ⟨hpack, _, _, _, _, _, rfl⟩
  exact hu.trans hpack fun _ => id

/-- DECODE stores what UNPACK stores. -/
theorem ruleDecode_stores (hc : s.caps.Legal) (hwf : Memory.wf s.mem) :
    Effect.EndsIn (ruleDecode s) (StoresWithin InOutput s) :=
  Effect.endsIn_andThen (ruleTableParse_storesNothing hwf)
    (fun _ hu => (ruleUnpack_stores (hu.caps ▸ hc) hu.wf).mono fun _ => StoresNothing.trans hu)
    (fun _ hu => hu.mono fun _ => False.elim)

/-! ### Every command -/

/-- The bytes a command may store (20_memory.md R80). -/
def storedRegion (i : Instr) (u : State) (a : Nat) : Prop :=
  match i with
  | .tableSerialize => InTable u a
  | .pack | .unpack | .decode => InOutput u a
  | .encode => InTable u a ∨ InOutput u a
  | .nop | .histCount | .histClear | .histGet _ | .histSet _ | .treeBuild | .codeDerive | .codeClear | .codeGet _ | .codeSet _
  | .treeClear | .treeInsert _ | .treeSearch | .treeStep _ | .treeReset | .tableParse => False

/-- Every command's rule, whether it completes or raises an error, stores within its region alone. -/
theorem ruleOf_stores (i : Instr) (hc : s.caps.Legal) (hwf : Memory.wf s.mem) :
    Effect.EndsIn (ruleOf i s) (StoresWithin (storedRegion i) s) := by
  cases i with
  | nop | histClear | histGet _ | histSet _ | codeClear | treeClear | treeReset =>
    exact Effect.endsIn_completed _ _ (.of_mem_eq hwf rfl rfl rfl)
  | histCount => exact ruleHistCount_storesNothing hwf
  | treeBuild => exact ruleTreeBuild_storesNothing hwf
  | codeDerive => exact ruleCodeDerive_storesNothing hwf
  | tableParse => exact ruleTableParse_storesNothing hwf
  | codeGet b => exact (ruleCodeGet_frame b s).mono (by rintro _ ⟨_, _, _, rfl⟩; exact .of_mem_eq hwf rfl rfl rfl)
  | codeSet b => exact (ruleCodeSet_frame b s).mono (by rintro _ ⟨_, rfl⟩; exact .of_mem_eq hwf rfl rfl rfl)
  | treeInsert b =>
    exact Effect.EndsIn.mono (insertPayload_frame s (pathOperand s) b)
      (by rintro _ ⟨_, _, _, _, rfl⟩; exact .of_mem_eq hwf rfl rfl rfl)
  | treeSearch => exact (ruleTreeSearch_frame s).mono (by rintro _ ⟨_, rfl⟩; exact .of_mem_eq hwf rfl rfl rfl)
  | treeStep bit => exact (ruleTreeStep_frame bit s).mono (by rintro _ ⟨_, _, rfl⟩; exact .of_mem_eq hwf rfl rfl rfl)
  | tableSerialize => exact ruleTableSerialize_stores hc hwf
  | pack => exact rulePack_stores hc hwf
  | unpack => exact ruleUnpack_stores hc hwf
  | encode => exact ruleEncode_stores hc hwf
  | decode => exact ruleDecode_stores hc hwf

/-- The region in the statement's words: the commands that store to OBUF, and those that store to TBUF. -/
theorem storedRegion_iff (i : Instr) (u : State) (a : Nat) :
    storedRegion i u a ↔
      ((i = .pack ∨ i = .encode ∨ i = .unpack ∨ i = .decode) ∧ InOutput u a) ∨
        ((i = .tableSerialize ∨ i = .encode) ∧ InTable u a) := by
  cases i <;> simp [storedRegion, or_comm]

end

/-- Settles O56: completion and `raise` store nothing, and each rule stores within its region. -/
theorem buffersAreWrittenOnlyWhereTheRuleSays : Obligations.BuffersAreWrittenOnlyWhereTheRuleSays := by
  intro i s t hc hwf ht a hout htbl
  have hstores := ruleOf_stores i hc hwf
  have hregion : ¬ storedRegion i t a := by
    rw [storedRegion_iff]
    rintro (⟨hi, hlow, hhigh⟩ | ⟨hi, hlow, hhigh⟩)
    · have := hout hi
      simp only [obufBase] at hlow hhigh
      omega
    · have := htbl hi
      simp only [tbufBase] at hlow hhigh
      omega
  rw [exec_eq_next_iff] at ht
  rcases ht with ⟨u, hu, rfl⟩ | ⟨c, info, u, hu, rfl⟩
  · exact (hstores.1 u hu).outside a hregion
  · exact (hstores.2 c info u hu).outside a hregion

end Sys2Proof.Machine
end

section
/-! SUPPORT. The decoder and the encoder (30_encoding.md R91 to R98): the decoder's answer in each of the three formats, and how its
tables agree with the encoder and with the opcode map. -/

namespace Sys2Proof

/-! ### The operation codes by format -/

/-- How the decoder's tables tell an operation code's format, and what the opcode map says of it (30_encoding.md R92, R95). -/
inductive OpcodeFormat (o : BitVec 8) : Prop
  | n (i : Instr) (row : formatNTable.lookup o = some i) (fmt : opcodeMap.lookup o = some .n)
  | b (op : Byte → Instr) (notN : formatNTable.lookup o = none) (row : formatBTable.lookup o = some op)
      (fmt : opcodeMap.lookup o = some .b)
  | s (isStep : o = 0x53) (fmt : opcodeMap.lookup o = some .s)
  | unassigned (notN : formatNTable.lookup o = none) (notB : formatBTable.lookup o = none) (notS : o ≠ 0x53)
      (fmt : opcodeMap.lookup o = none)

theorem mem_of_lookup_eq_some {β : Type} {l : List (BitVec 8 × β)} {o : BitVec 8} {x : β} (h : l.lookup o = some x) :
    (o, x) ∈ l := by
  obtain ⟨l₁, l₂, rfl, -⟩ := List.lookup_eq_some_iff.1 h
  simp

theorem opcodeMap_of_mem_formatNTable : ∀ p ∈ formatNTable, opcodeMap.lookup p.1 = some .n := by decide

theorem opcodeMap_of_mem_formatBTable : ∀ p ∈ formatBTable, opcodeMap.lookup p.1 = some .b := by
  simp [formatBTable, opcodeMap, List.lookup]

/-- The opcode map holds no operation code beside those of the decoder's tables and TREE_STEP's. -/
theorem opcodeMap_covered :
    ∀ p ∈ opcodeMap, formatNTable.lookup p.1 ≠ none ∨ (formatBTable.lookup p.1).isSome ∨ p.1 = 0x53 := by decide

/-- Every operation code is of a format or unassigned, and the tables and the opcode map agree which. -/
theorem opcodeFormat (o : BitVec 8) : OpcodeFormat o := by
  cases hn : formatNTable.lookup o with
  | some i => exact .n i hn (opcodeMap_of_mem_formatNTable _ (mem_of_lookup_eq_some hn))
  | none =>
    cases hb : formatBTable.lookup o with
    | some op => exact .b op hn hb (opcodeMap_of_mem_formatBTable _ (mem_of_lookup_eq_some hb))
    | none =>
      by_cases hs : o = 0x53
      · exact .s hs (by rw [hs]; decide)
      · refine .unassigned hn hb hs (Option.eq_none_iff_forall_ne_some.2 fun f hf => ?_)
        rcases opcodeMap_covered _ (mem_of_lookup_eq_some hf) with h | h | h
        · exact h hn
        · simp [hb] at h
        · exact hs h

/-! ### What the decoder answers -/

section
variable {w : Word}

theorem decode_of_rsvd_ne_zero (h : (CommandFields.ofWord w).rsvd ≠ 0) : decode w = .illegal .reservedNotZero :=
  if_pos h

theorem decode_of_formatN {i : Instr} (hr : (CommandFields.ofWord w).rsvd = 0)
    (h : formatNTable.lookup (CommandFields.ofWord w).opc = some i) :
    decode w = if (CommandFields.ofWord w).imm8 = 0 then .command i else .illegal .immediateNotZero := by
  simp [decode, hr, h]

theorem decode_of_formatB {op : Byte → Instr} (hr : (CommandFields.ofWord w).rsvd = 0)
    (hn : formatNTable.lookup (CommandFields.ofWord w).opc = none)
    (h : formatBTable.lookup (CommandFields.ofWord w).opc = some op) :
    decode w = .command (op (CommandFields.ofWord w).imm8) := by
  simp [decode, hr, hn, h]

theorem decode_of_formatS (hr : (CommandFields.ofWord w).rsvd = 0) (h : (CommandFields.ofWord w).opc = 0x53) :
    decode w = if (CommandFields.ofWord w).imm8.extractLsb' 1 7 = 0
      then .command (.treeStep ((CommandFields.ofWord w).imm8.getLsbD 0)) else .illegal .stepBitsNotZero := by
  simp [decode, hr, h, formatNTable, formatBTable, List.lookup]

theorem decode_of_unassigned (hr : (CommandFields.ofWord w).rsvd = 0)
    (hn : formatNTable.lookup (CommandFields.ofWord w).opc = none)
    (hb : formatBTable.lookup (CommandFields.ofWord w).opc = none) (hs : (CommandFields.ofWord w).opc ≠ 0x53) :
    decode w = .illegal .opcodeUnassigned := by
  simp only [decode, hr, hn, hb, hs, ne_eq, not_true_eq_false, if_false]

end

/-! ### The round trip -/

/-- The fields of a command's word (30_encoding.md R91). -/
def fieldsOf (i : Instr) : CommandFields :=
  { opc := opcodeOf i, rsvd := 0, imm8 := immediateOf i }

theorem encode_of_ofWord_eq_fieldsOf {w : Word} {i : Instr} (h : CommandFields.ofWord w = fieldsOf i) : encode i = w := by
  rw [← append_ofWord w, h]
  rfl

theorem fields_of_mem_formatNTable : ∀ p ∈ formatNTable, fieldsOf p.2 = ⟨p.1, 0, 0⟩ := by decide

theorem fields_of_mem_formatBTable : ∀ p ∈ formatBTable, ∀ b, fieldsOf (p.2 b) = ⟨p.1, 0, b⟩ := by
  simp [formatBTable, fieldsOf, opcodeOf, immediateOf]

/-- A byte whose bits 7 to 1 are 0 is its bit 0. -/
theorem immediateOf_treeStep_getLsbD {imm : BitVec 8} (h : imm.extractLsb' 1 7 = 0) :
    immediateOf (.treeStep (imm.getLsbD 0)) = imm := by
  revert imm
  decide

theorem decode_encode (i : Instr) : decode (encode i) = .command i := by
  simp only [decode, ofWord_encode]
  cases i with
  | treeStep bit => cases bit <;> rfl
  | _ => rfl

/-- A word that decodes to a command has that command's fields. -/
theorem ofWord_of_decode_eq_command {w : Word} {i : Instr} (h : decode w = .command i) :
    CommandFields.ofWord w = fieldsOf i := by
  by_cases hr : (CommandFields.ofWord w).rsvd = 0
  case neg => simp [decode_of_rsvd_ne_zero hr] at h
  cases opcodeFormat (CommandFields.ofWord w).opc with
  | n j row _ =>
    rw [decode_of_formatN hr row] at h
    split at h
    case isFalse => cases h
    rename_i himm
    cases h
    rw [fields_of_mem_formatNTable _ (mem_of_lookup_eq_some row), ← hr, ← himm]
  | b op notN row _ =>
    rw [decode_of_formatB hr notN row] at h
    cases h
    rw [fields_of_mem_formatBTable _ (mem_of_lookup_eq_some row), ← hr]
  | s isStep _ =>
    rw [decode_of_formatS hr isStep] at h
    split at h
    case isFalse => cases h
    rename_i himm
    cases h
    rw [fieldsOf, immediateOf_treeStep_getLsbD himm, ← hr]
    exact congrArg (CommandFields.mk · _ _) isStep
  | unassigned notN notB notS _ => simp [decode_of_unassigned hr notN notB notS] at h

/-- Settles O2: the decoded word has the command's fields, and a word is its fields; the way back is `decode_encode`. -/
theorem decodeAndEncodeAgree : Obligations.DecodeAndEncodeAgree := by
  intro w i
  constructor
  · intro h
    exact encode_of_ofWord_eq_fieldsOf (ofWord_of_decode_eq_command h)
  · rintro rfl
    exact decode_encode i

/-! ### Illegal words -/

theorem exists_illegal_ite_iff {p : Prop} [Decidable p] {i : Instr} {reason : IllegalWord} :
    (∃ why, (if p then Decoded.command i else .illegal reason) = .illegal why) ↔ ¬ p := by
  split <;> simp [*]

/-- The step bits that must be 0, in the word and in its IMM8 field. -/
theorem extractLsb'_stepBits (w : Word) : w.extractLsb' 1 7 = (CommandFields.ofWord w).imm8.extractLsb' 1 7 := by
  ext k hk
  simp [CommandFields.ofWord]

/-- The illegal words by their fields (30_encoding.md R96). -/
theorem exists_decode_eq_illegal_iff (w : Word) :
    (∃ why, decode w = .illegal why) ↔
      (opcodeMap.lookup (CommandFields.ofWord w).opc = none ∨ (CommandFields.ofWord w).rsvd ≠ 0 ∨
        (opcodeMap.lookup (CommandFields.ofWord w).opc = some .n ∧ (CommandFields.ofWord w).imm8 ≠ 0) ∨
        (opcodeMap.lookup (CommandFields.ofWord w).opc = some .s ∧ (CommandFields.ofWord w).imm8.extractLsb' 1 7 ≠ 0)) := by
  by_cases hr : (CommandFields.ofWord w).rsvd = 0
  case neg => exact iff_of_true ⟨_, decode_of_rsvd_ne_zero hr⟩ (.inr (.inl hr))
  cases opcodeFormat (CommandFields.ofWord w).opc with
  | n i row fmt =>
    rw [decode_of_formatN hr row, exists_illegal_ite_iff, fmt]
    simp [hr]
  | b op notN row fmt =>
    rw [decode_of_formatB hr notN row, fmt]
    simp [hr]
  | s isStep fmt =>
    rw [decode_of_formatS hr isStep, exists_illegal_ite_iff, fmt]
    simp [hr]
  | unassigned notN notB notS fmt => exact iff_of_true ⟨_, decode_of_unassigned hr notN notB notS⟩ (.inl fmt)

/-- Settles O3, by the format of the word's operation code. -/
theorem illegalWordsAreThoseOfTheRule : Obligations.IllegalWordsAreThoseOfTheRule := by
  intro w
  rw [extractLsb'_stepBits]
  exact exists_decode_eq_illegal_iff w

/-! ### Written-out words -/

/-- Settles O1: each legal word is the encoding of its command, and the illegal ones are evaluated. -/
theorem writtenOutWordsDecode : Obligations.WrittenOutWordsDecode := by
  refine ⟨decode_encode .nop, decode_encode (.histGet 0x61), decode_encode (.treeInsert 0x62), decode_encode (.treeStep true),
    decode_encode (.treeStep false), decode_encode .encode, decode_encode .treeBuild, decode_encode .tableSerialize,
    decode_encode .pack, decode_encode .tableParse, decode_encode .decode, ?_⟩
  decide

end Sys2Proof
end

section
/-! SUPPORT. Every command's rule ends on a tree that keeps the invariant, so a step of the machine never stops
(40_command_protocol.md R123, R130, 60_exceptions.md R300). -/

namespace Sys2Proof.Machine

/-! ### Effects that end -/

/-- The effect ends its command, by completing or by an error, so that the machine goes on. -/
def Effect.Ends (e : Effect) : Prop :=
  ∃ t, e.finish = .next t

theorem Effect.ends_completed (s : State) : (Effect.completed s).Ends :=
  ⟨complete s, rfl⟩

theorem Effect.ends_raised (c : ErrorCode) (info : Word) (s : State) : (Effect.raised c info s).Ends :=
  ⟨raise c info s, rfl⟩

/-- Sub-commands in order end where the first ends, and the second ends after each state in which the first completes. -/
theorem Effect.Ends.andThen {e : Effect} {next : State → Effect} (h : e.Ends)
    (hnext : ∀ u, e = .completed u → (next u).Ends) : (e.andThen next).Ends := by
  cases e with
  | completed u => exact hnext u rfl
  | raised c info u => exact h
  | stuck f => exact h

/-! ### The rules that end whatever the tree is -/

section
variable (s : State)

theorem ruleHistCount_ends : (ruleHistCount s).Ends := by
  simp only [ruleHistCount]
  split
  · exact Effect.ends_raised _ _ _
  · exact Effect.ends_completed _

theorem ruleCodeGet_ends (b : Byte) : (ruleCodeGet b s).Ends := by
  simp only [ruleCodeGet]
  split <;> exact Effect.ends_completed _

theorem ruleCodeSet_ends (b : Byte) : (ruleCodeSet b s).Ends := by
  simp only [ruleCodeSet]
  split
  · exact Effect.ends_raised _ _ _
  · exact Effect.ends_completed _

theorem ruleTableSerialize_ends : (ruleTableSerialize s).Ends := by
  simp only [ruleTableSerialize]
  split
  · exact Effect.ends_raised _ _ _
  · exact Effect.ends_completed _

theorem rulePack_ends : (rulePack s).Ends := by
  simp only [rulePack]
  split
  · exact Effect.ends_raised _ _ _
  · split
    · exact Effect.ends_raised _ _ _
    · split
      · exact Effect.ends_raised _ _ _
      · exact Effect.ends_completed _

theorem insertPayload_ends (p : BitString) (v : Byte) : (insertPayload s p v).Ends := by
  simp only [insertPayload]
  split
  · exact Effect.ends_completed _
  · exact Effect.ends_raised _ _ _

theorem insertEntries_ends (es : List (Byte × BitString)) (s : State) : (insertEntries es s).Ends := by
  induction es generalizing s with
  | nil => exact Effect.ends_completed s
  | cons e es ih => exact (insertPayload_ends s e.2 e.1).andThen fun u _ => ih u

theorem loadEntries_ends (es : List (Byte × BitString)) : (loadEntries es s).Ends :=
  (insertEntries_ends es (clearTree s)).andThen fun _ _ => Effect.ends_completed _

theorem ruleTableParse_ends : (ruleTableParse s).Ends := by
  simp only [ruleTableParse]
  split
  · exact Effect.ends_raised _ _ _
  · split
    · exact Effect.ends_raised _ _ _
    · split
      · split
        · exact Effect.ends_raised _ _ _
        · exact loadEntries_ends s _
      · exact loadEntries_ends s _

theorem ruleTreeSearch_ends : (ruleTreeSearch s).Ends := by
  simp only [ruleTreeSearch]
  split <;> exact Effect.ends_completed _

theorem ruleTreeStep_ends (bit : Bool) : (ruleTreeStep bit s).Ends := by
  simp only [ruleTreeStep]
  split
  · exact Effect.ends_completed _
  · split <;> exact Effect.ends_completed _

theorem decodeStream_ends (d : Nat) : (decodeStream d s).Ends := by
  simp only [decodeStream]
  split
  · exact Effect.ends_raised _ _ _
  · exact Effect.ends_completed _

theorem ruleUnpack_ends : (ruleUnpack s).Ends := by
  simp only [ruleUnpack]
  split
  · exact Effect.ends_raised _ _ _
  · split
    · exact Effect.ends_raised _ _ _
    · split
      · exact Effect.ends_raised _ _ _
      · exact decodeStream_ends s _

theorem ruleDecode_ends : (ruleDecode s).Ends :=
  (ruleTableParse_ends s).andThen fun u _ => ruleUnpack_ends u

end

/-! ### The rules that derive codes -/

/-- The traversal ends on a tree (44_code_table.md R211). -/
theorem ruleCodeDerive_ends {s : State} (h : TreeOk s.nodes s.root) : (ruleCodeDerive s).Ends := by
  obtain ⟨t, ht, -⟩ := ruleCodeDerive_of_treeOk h
  rw [ht]
  exact Effect.ends_completed _

/-- ENCODE derives its codes from the tree it has just built, which is one whatever the state was. -/
theorem ruleEncode_ends (s : State) : (ruleEncode s).Ends := by
  have hbuilt : ∀ u, (ruleHistCount s).andThen ruleTreeBuild = .completed u → TreeOk u.nodes u.root := by
    intro u hu
    obtain ⟨v, -, hv⟩ := (Effect.andThen_eq_completed_iff _ _ _).1 hu
    cases hv
    exact treeOk_buildTree v.hist
  have hcodes : (((ruleHistCount s).andThen ruleTreeBuild).andThen ruleCodeDerive).Ends :=
    ((ruleHistCount_ends s).andThen fun _ _ => Effect.ends_completed _).andThen fun u hu => ruleCodeDerive_ends (hbuilt u hu)
  exact (hcodes.andThen fun u _ => ruleTableSerialize_ends u).andThen fun u _ => rulePack_ends u

/-! ### Every command -/

theorem ruleOf_ends (i : Instr) {s : State} (h : TreeOk s.nodes s.root) : (ruleOf i s).Ends := by
  cases i with
  | nop | histClear | histGet _ | histSet _ | treeBuild | codeClear | treeClear | treeReset => exact Effect.ends_completed _
  | histCount => exact ruleHistCount_ends s
  | codeDerive => exact ruleCodeDerive_ends h
  | codeGet b => exact ruleCodeGet_ends s b
  | codeSet b => exact ruleCodeSet_ends s b
  | tableSerialize => exact ruleTableSerialize_ends s
  | pack => exact rulePack_ends s
  | encode => exact ruleEncode_ends s
  | treeInsert b => exact insertPayload_ends s (pathOperand s) b
  | treeSearch => exact ruleTreeSearch_ends s
  | treeStep bit => exact ruleTreeStep_ends s bit
  | tableParse => exact ruleTableParse_ends s
  | unpack => exact ruleUnpack_ends s
  | decode => exact ruleDecode_ends s

/-- On a tree the engine's perform step goes on, whatever the word in CMD. -/
theorem performCommand_next_of_treeOk {s : State} (h : TreeOk s.nodes s.root) : ∃ t, performCommand s = .next t := by
  rcases performCommand_eq s with ⟨i, -, hs⟩ | ⟨why, -, hs⟩
  · rw [hs, exec_eq_finish]
    exact ruleOf_ends i h
  · exact ⟨_, hs⟩

/-- Settles O60: a host turn always goes on, and the invariant's tree lets every command's rule end. -/
theorem theMachineNeverStops : Obligations.TheMachineNeverStops := by
  intro s h
  rcases step_eq s with ⟨hs, -⟩ | ⟨d, -, -, -, hs⟩ | ⟨-, -, -, hs⟩
  · exact ⟨_, hs⟩
  · exact ⟨_, hs⟩
  · rw [hs]
    exact performCommand_next_of_treeOk h.tree

end Sys2Proof.Machine
end

section
/-! SUPPORT. The command protocol (40_command_protocol.md R120 to R127): DECODE's sequence, whose turn it is, what one host operation
is (30_encoding.md R100), the perform step of an illegal word and of NOP, and the accept of a CMD write. -/

namespace Sys2Proof.Machine

/-! ### DECODE's sequence (R127) -/

@[simp] theorem readByte_complete (s : State) (a : Nat) : readByte (complete s) a = readByte s a := rfl
@[simp] theorem inputBytes_complete (s : State) : inputBytes (complete s) = inputBytes s := rfl
@[simp] theorem rootPayload_complete (s : State) : rootPayload (complete s) = rootPayload s := rfl

theorem decodeStream_complete (d : Nat) (s : State) : decodeStream d (complete s) = (decodeStream d s).map complete := by
  simp only [decodeStream, complete_caps, complete_nodes, complete_root, rootPayload_complete, inputBytes_complete]
  split <;> rfl

/-- UNPACK reads neither DONE nor the phase. -/
theorem ruleUnpack_complete (s : State) : ruleUnpack (complete s) = (ruleUnpack s).map complete := by
  simp only [ruleUnpack, complete_caps, complete_inLen, readByte_complete, Effect.map_ite]
  refine if_congr Iff.rfl rfl (if_congr Iff.rfl rfl ?_)
  split
  · rfl
  · exact decodeStream_complete _ s

/-- Completing twice is completing once. -/
theorem Effect.finish_map_complete (e : Effect) : (e.map complete).finish = e.finish := by
  cases e <;> rfl

/-- Settles O49: TABLE_PARSE ends with the record it found or with its own error, and its completion changes nothing UNPACK reads. -/
theorem decodeRunsItsSequence : Obligations.DecodeRunsItsSequence := by
  intro s t hs ht
  have hdecode : exec .decode s = ((ruleOf .tableParse s).andThen ruleUnpack).finish := rfl
  rw [exec_eq_next_iff] at ht
  rcases ht with ⟨u, hu, rfl⟩ | ⟨c, info, u, hu, rfl⟩
  · have hrecord : (complete u).errCode = none := ((ruleOf_frame .tableParse s).1 u hu).errCode.trans hs
    refine ⟨fun herr => absurd hrecord herr, fun _ => ?_⟩
    calc exec .decode s = (ruleUnpack u).finish := by rw [hdecode, hu, Effect.andThen_completed]
      _ = (ruleUnpack (complete u)).finish := by rw [ruleUnpack_complete, Effect.finish_map_complete]
      _ = exec .unpack (complete u) := rfl
  · refine ⟨fun _ => ?_, fun herr => absurd herr (by simp)⟩
    rw [hdecode, hu, Effect.andThen_raised, Effect.finish_raised]

/-! ### Whose turn it is (R120, R123, R130) -/

section
variable {s : State}

theorem step_eq_performCommand (hr : s.resetPin = false) (hb : s.phase = .busy) (hd : s.delay = 0) :
    step s = performCommand s := by
  simp [step, machineTurn, hr, hb, hd]

theorem step_of_delay {d : Nat} (hr : s.resetPin = false) (hb : s.phase = .busy) (hd : s.delay = d + 1) :
    step s = .next (hostTurn { s with delay := d }) := by
  simp [step, machineTurn, hr, hb, hd]

theorem step_eq_hostTurn (h : s.phase = .idle ∨ s.resetPin = true) : step s = .next (hostTurn s) := by
  rcases h with h | h <;> simp [step, machineTurn, h]

theorem performCommand_of_command {i : Instr} (h : decode s.cmd = .command i) : performCommand s = exec i s := by
  rw [performCommand, h]

theorem performCommand_of_illegal {why : IllegalWord} (h : decode s.cmd = .illegal why) :
    performCommand s = performIllegal s.cmd s := by
  rw [performCommand, h]

/-- A word of 32 bits is its own number. -/
theorem tableWord_toNat (w : Word) : tableWord 32 w.toNat = w := by
  rw [tableWord, Nat.mod_eq_of_lt w.isLt, BitVec.ofNat_toNat, BitVec.setWidth_eq]

theorem withFetchWord_cmd (s : State) (w : Word) : (s.withFetchWord 32 w.toNat).cmd = w :=
  tableWord_toNat w

/-- A word placed for the next step is performed in it. -/
theorem step_withFetchWord {w : Word} {i : Instr} (h : decode w = .command i) :
    step (s.withFetchWord 32 w.toNat) = exec i (s.withFetchWord 32 w.toNat) := by
  rw [step_eq_performCommand rfl rfl rfl, performCommand_of_command ((withFetchWord_cmd s w).symm ▸ h)]

end

/-! ### The host's turn (30_encoding.md R100) -/

theorem assertReset_host (s : State) : (assertReset s).host = s.host := by
  simp only [assertReset]
  split <;> rfl

section
variable {s : State}

theorem hostTurn_of_none (h : s.host.prog[s.host.pc]? = none) : hostTurn s = s := by
  rw [hostTurn, h]

theorem hostTurn_of_some {op : HostOp} (h : s.host.prog[s.host.pc]? = some op) : hostTurn s = runHostOp op s := by
  rw [hostTurn, h]

end

section
variable (s : State)

theorem runHostOp_read (a : Word) (n : Nat) :
    runHostOp (.read a n) s = { (hostRead a n s).1 with
      host := { s.host with
        pc := s.host.pc + 1, value := (hostRead a n s).2.1, response := some (hostRead a n s).2.2 } } := by
  simp only [runHostOp, advanceHost, keepAnswer, hostRead_host]

theorem runHostOp_write (a : Word) (n : Nat) (v : Word) :
    runHostOp (.write a n v) s = { (hostWrite a n v s).1 with
      host := { (hostWrite a n v s).1.host with pc := s.host.pc + 1, response := some (hostWrite a n v s).2 } } := by
  have hpc : (hostWrite a n v s).1.host.pc = s.host.pc := by rw [hostWrite_host]
  simp only [runHostOp, advanceHost, keepAnswer, hpc]

/-- `wait` goes on once an answered read of STATUS has bit 0 clear. -/
theorem runHostOp_waitDone :
    runHostOp .waitDone s = { (hostRead statusAddress 4 s).1 with
      host := { s.host with
        pc := if (hostRead statusAddress 4 s).2.2 = .okay ∧ (hostRead statusAddress 4 s).2.1.getLsbD 0 = false then
            s.host.pc + 1 else s.host.pc,
        value := (hostRead statusAddress 4 s).2.1, response := some (hostRead statusAddress 4 s).2.2 } } := by
  simp only [runHostOp, advanceHost, keepAnswer, hostRead_host]
  split <;> rfl

theorem runHostOp_ifField (hi lo v target : Nat) :
    runHostOp (.ifField hi lo v target) s = { s with
      host := { s.host with
        pc := if s.host.value.toNat / 2 ^ lo % 2 ^ (hi + 1 - lo) = v then target else s.host.pc + 1 } } := by
  by_cases h : s.host.value.toNat / 2 ^ lo % 2 ^ (hi + 1 - lo) = v <;>
    simp only [runHostOp, fieldOf, advanceHost, h, if_true, if_false]

theorem runHostOp_assertReset :
    runHostOp .assertReset s = { assertReset s with host := { s.host with pc := s.host.pc + 1 } } := by
  simp only [runHostOp, advanceHost, assertReset_host]

end

/-- Settles O4: the turns by phase, delay and reset input, and the host's move by the kind of its next operation. -/
theorem stepPerformsTheDecodedCommand : Obligations.StepPerformsTheDecodedCommand := by
  intro s
  refine ⟨fun i hr hb hd hi => ?_, fun why hr hb hd hw => ?_, fun w i h => ?_, fun d => step_of_delay, step_eq_hostTurn,
    hostTurn_of_none, fun a n h => ?_, fun a n v h => ?_, fun h => ?_, fun hi lo v target h => ?_, fun target h => ?_,
    fun h => ?_, fun h => ?_⟩
  · rw [step_eq_performCommand hr hb hd, performCommand_of_command hi]
  · have hperform := performCommand_of_illegal hw
    exact ⟨(step_eq_performCommand hr hb hd).trans hperform, hperform⟩
  · exact ⟨step_withFetchWord h, withFetchWord_cmd s w⟩
  · rw [hostTurn_of_some h, runHostOp_read]
  · exact ⟨by rw [hostTurn_of_some h, runHostOp_write], hostWrite_host a n v s⟩
  · rw [hostTurn_of_some h, runHostOp_waitDone]
  · rw [hostTurn_of_some h, runHostOp_ifField]
  · exact hostTurn_of_some h
  · rw [hostTurn_of_some h, runHostOp_assertReset]
  · exact hostTurn_of_some h

/-! ### Illegal words (R126) and NOP (R125) -/

/-- Settles O5: the perform step of an illegal word is `raise`. -/
theorem illegalWordRaisesIllegalCommand : Obligations.IllegalWordRaisesIllegalCommand := by
  refine ⟨fun s why h => ?_, ⟨.immediateNotZero, by decide⟩, ⟨.stepBitsNotZero, by decide⟩⟩
  exact ⟨raise .illegalCommand s.cmd s, performCommand_of_illegal h, rfl, rfl, rfl, rfl, rfl, rfl⟩

/-- NOP is the one command with OPC 0x00 (30_encoding.md R95). -/
theorem opcodeOf_eq_zero_iff (i : Instr) : opcodeOf i = 0x00 ↔ i = .nop := by
  cases i <;> simp [opcodeOf]

/-- Settles O15: NOP's rule does nothing, and a legal word with OPC 0x00 is NOP's own. -/
theorem nopCompletes : Obligations.NopCompletes := by
  refine ⟨by decide, fun w hopc hw => ?_, fun s => rfl, fun s => rfl⟩
  cases hd : decode w with
  | illegal why => exact ⟨why, rfl⟩
  | command i =>
    have hfields := ofWord_of_decode_eq_command hd
    have hi : i = .nop := (opcodeOf_eq_zero_iff i).1 ((congrArg CommandFields.opc hfields).symm.trans hopc)
    subst hi
    exact absurd ((encode_of_ofWord_eq_fieldsOf hfields).symm.trans (by decide)) hw

/-! ### The accept (R121) -/

/-- Arming the engine takes a pinned delay or draws one (R130, log entry 2). -/
theorem armEngine_eq (s : State) :
    ∃ d k ds, armEngine s = { s with delay := d, draws := k, host := { s.host with pinned := ds } } := by
  simp only [armEngine]
  split <;> exact ⟨_, _, _, rfl⟩

/-- Settles O6: CMD's address is mapped to CMD, whose write while IDLE is the accept and arms the engine. -/
theorem cmdWriteWhileIdleIsAccepted : Obligations.CmdWriteWhileIdleIsAccepted := by
  intro s w hr hi
  have hwrite : hostWrite cmdAddress 4 w s = (armEngine (acceptCommand w s), .okay) := hostWrite_register .cmd w hr hi
  obtain ⟨d, k, ds, harm⟩ := armEngine_eq (acceptCommand w s)
  rw [harm] at hwrite
  exact ⟨_, hwrite, rfl, rfl, rfl, rfl, rfl, rfl, rfl, rfl, rfl⟩

end Sys2Proof.Machine
end

section
/-! SUPPORT. The tree store commands that make no node (41_tree.md R144, R146 to R148) and what RESULT reads after them. -/

namespace Sys2Proof.Machine

/-! ### RESULT (41_tree.md R140) -/

theorem Result.word_notFound : Result.notFound.word = 0xFFFF0000 := by decide

theorem readReg_result_of_notFound {t : State} (h : t.result = Result.notFound) : readReg .result t = 0xFFFF0000 := by
  rw [readReg, h, Result.word_notFound]

/-- A node index, a payload and eight low bits, laid beside each other in one word. -/
theorem toNat_fields_or (n : Nat) (b : Byte) (low : Word) (hlow : low.toNat < 2 ^ 8) :
    (BitVec.ofNat 32 n <<< 16 ||| (b.setWidth 32 <<< 8 ||| low)).toNat =
      n % 2 ^ 16 * 2 ^ 16 + (b.toNat * 2 ^ 8 + low.toNat) := by
  have hb : b.toNat < 2 ^ 8 := b.isLt
  have hnode : (BitVec.ofNat 32 n <<< 16).toNat = (n % 2 ^ 16) <<< 16 := by
    rw [BitVec.toNat_shiftLeft, BitVec.toNat_ofNat, Nat.shiftLeft_eq, Nat.shiftLeft_eq]
    omega
  have hpay : (b.setWidth 32 <<< 8).toNat = b.toNat <<< 8 := by
    rw [BitVec.toNat_shiftLeft, BitVec.toNat_setWidth, Nat.shiftLeft_eq, Nat.shiftLeft_eq]
    omega
  rw [BitVec.toNat_or, BitVec.toNat_or, hnode, hpay, ← Nat.shiftLeft_add_eq_or_of_lt hlow,
    ← Nat.shiftLeft_add_eq_or_of_lt (by rw [Nat.shiftLeft_eq]; omega), Nat.shiftLeft_eq, Nat.shiftLeft_eq]

/-- `found(n)` as RESULT reads it. -/
theorem readReg_result_of_found {t : State} {nodes : List Node} {n : Nat} (h : t.result = foundResult nodes n) :
    readReg .result t =
      (BitVec.ofNat 32 n <<< 16) ||| (((nodeAt nodes n).payload.getD 0).setWidth 32 <<< 8) |||
        (if (nodeAt nodes n).payload.isSome then 2 else 0) ||| 1 := by
  apply BitVec.eq_of_toNat_eq
  have hlow : ∀ l : Bool, ((if l then 2 else 0 : Word) ||| 1).toNat = l.toNat * 2 + 1 := by decide
  have hl : (nodeAt nodes n).payload.isSome.toNat < 2 := Bool.toNat_lt _
  rw [readReg, h, Result.toNat_word, BitVec.or_assoc, BitVec.or_assoc, toNat_fields_or _ _ _ (by rw [hlow]; omega), hlow]
  simp only [foundResult, nodeWord, BitVec.toNat_ofNat, Bool.toNat_true, Nat.add_assoc]

/-! ### The commands -/

/-- Settles O35: the completed clear. -/
theorem treeClearMakesAFreshTree : Obligations.TreeClearMakesAFreshTree :=
  have hone : (0 : BitVec 16) ++ BitVec.ofNat 16 1 = (1 : BitVec 32) := by decide
  have hzero : (0 : BitVec 16) ++ nodeWord (some 0) = (0 : BitVec 32) := by decide
  fun s => ⟨complete (clearTree s), rfl, rfl, hone, hzero, hzero, readReg_symCount⟩

/-- Settles O38: by whether the walk finds a node. -/
theorem treeSearchReportsTheNode : Obligations.TreeSearchReportsTheNode := by
  intro s
  rw [exec_eq_finish]
  simp only [ruleOf, ruleTreeSearch]
  cases walk s (pathOperand s) with
  | none => exact ⟨_, rfl, rfl, fun _ => readReg_result_of_notFound rfl, by simp⟩
  | some n =>
    refine ⟨_, rfl, rfl, by simp, fun m hm => ?_⟩
    cases hm
    exact readReg_result_of_found rfl

theorem ruleTreeStep_of_cursor_none {s : State} (h : s.cursor = none) (bit : Bool) :
    ruleTreeStep bit s = .completed { s with result := Result.notFound } := by
  simp only [ruleTreeStep, h]

theorem ruleTreeStep_of_child_none {s : State} {n : Nat} {bit : Bool} (h : s.cursor = some n)
    (hc : child s.nodes n bit = none) : ruleTreeStep bit s = .completed { s with result := Result.notFound } := by
  simp only [ruleTreeStep, h, hc]

theorem ruleTreeStep_of_child {s : State} {n c : Nat} {bit : Bool} (h : s.cursor = some n)
    (hc : child s.nodes n bit = some c) :
    ruleTreeStep bit s = .completed { s with cursor := some c, result := foundResult s.nodes c } := by
  simp only [ruleTreeStep, h, hc]

/-- Settles O39: by whether CURSOR and its child are there. -/
theorem treeStepMovesTheCursor : Obligations.TreeStepMovesTheCursor := by
  intro s bit
  simp only [exec_eq_finish, ruleOf]
  change ∃ t, _ ∧ _ ∧ _ ∧ (∀ n, _ → child s.nodes n bit = none → _) ∧ (∀ n c, _ → child s.nodes n bit = some c → _)
  cases hcur : s.cursor with
  | none =>
    rw [ruleTreeStep_of_cursor_none hcur]
    exact ⟨_, rfl, rfl, fun _ => ⟨hcur, readReg_result_of_notFound rfl⟩, by simp, by simp⟩
  | some n =>
    cases hc : child s.nodes n bit with
    | none =>
      rw [ruleTreeStep_of_child_none hcur hc]
      refine ⟨_, rfl, rfl, by simp, fun m hm _ => ⟨hcur.trans hm, readReg_result_of_notFound rfl⟩, fun m c hm hmc => ?_⟩
      cases hm
      cases hc.symm.trans hmc
    | some c =>
      rw [ruleTreeStep_of_child hcur hc]
      refine ⟨_, rfl, rfl, by simp, fun m hm hmc => ?_, fun m c' hm hmc => ?_⟩
      · cases hm
        cases hc.symm.trans hmc
      · cases hm
        cases hc.symm.trans hmc
        exact ⟨rfl, readReg_result_of_found rfl⟩

/-- Settles O40: CURSOR = NIL is a step's first case. -/
theorem treeResetReturnsTheCursor : Obligations.TreeResetReturnsTheCursor := by
  refine fun s => ⟨rfl, fun hroot bit t u ht hu => ?_⟩
  cases ht
  rw [exec_eq_finish, ruleOf, ruleTreeStep_of_cursor_none hroot] at hu
  cases hu
  exact ⟨readReg_result_of_notFound rfl, hroot⟩

end Sys2Proof.Machine
end

section
/-! SUPPORT. What an insertion comes to (41_tree.md R143, R145): how many nodes it makes, and the arena it leaves. -/

namespace Sys2Proof.Machine

/-! ### The missing nodes -/

/-- How many of the first `j` prefixes of a path lead to no node. -/
def missingBelow (nodes : List Node) (root : Option Nat) (p : BitString) (j : Nat) : Nat :=
  (List.range j).countP (fun k => walkRoot nodes root (p.take k) = none)

/-- How many nodes are missing along a path and at its end (41_tree.md R145). -/
def missingNodes (nodes : List Node) (root : Option Nat) (p : BitString) : Nat :=
  missingBelow nodes root p (p.length + 1)

theorem countP_walk_eq_missingBelow (s : State) (p : BitString) (j : Nat) :
    (List.range j).countP (fun k => walk s (p.take k) = none) = missingBelow s.nodes s.root p j := by
  simp only [walk_eq_walkRoot, missingBelow]

theorem missingBelow_succ (nodes : List Node) (r : Nat) (p : BitString) (j : Nat) :
    missingBelow nodes (some r) p (j + 1) =
      (List.range j).countP (fun k => walkRoot nodes (some r) (p.take (k + 1)) = none) := by
  simp only [missingBelow, List.range_succ_eq_map, List.countP_cons, List.countP_map, List.take_zero, walkRoot_nil]
  rfl

/-- Without a root every node is missing. -/
theorem missingBelow_of_no_root (nodes : List Node) (p : BitString) (j : Nat) : missingBelow nodes none p j = j := by
  simp [missingBelow, walkRoot]

theorem missingNodes_nil (nodes : List Node) (r : Nat) : missingNodes nodes (some r) [] = 0 := by
  simp [missingNodes, missingBelow]

/-- Below a node without children every node is missing. -/
theorem missingBelow_of_leaf {nodes : List Node} {r : Nat} (h : ∀ b, child nodes r b = none) (p : BitString) {j : Nat}
    (hj : j ≤ p.length) : missingBelow nodes (some r) p (j + 1) = j := by
  rw [missingBelow_succ]
  refine (List.countP_eq_length.2 fun k hk => ?_).trans List.length_range
  cases p with
  | nil =>
    simp only [List.length_nil, List.mem_range] at hj hk
    omega
  | cons b p => simp [walkRoot, walkFrom, h]

theorem missingNodes_of_child {nodes : List Node} {r c : Nat} {b : Bool} (h : child nodes r b = some c) (p : BitString) :
    missingNodes nodes (some r) (b :: p) = missingNodes nodes (some c) p := by
  rw [missingNodes, List.length_cons, missingBelow_succ, missingNodes, missingBelow]
  refine List.countP_congr fun k _ => ?_
  simp only [decide_eq_true_eq]
  simp [walkRoot, walkFrom, h]

theorem missingNodes_of_no_child {nodes : List Node} {r : Nat} {b : Bool} (h : child nodes r b = none) (p : BitString) :
    missingNodes nodes (some r) (b :: p) = p.length + 1 := by
  rw [missingNodes, List.length_cons, missingBelow_succ]
  refine (List.countP_eq_length.2 fun k hk => ?_).trans List.length_range
  simp [walkRoot, walkFrom, h]

/-- The insertion loop makes the missing nodes as far as there is room, and finds the path's end exactly where there is room
for all of them. -/
theorem insertPath_length {cap : Nat} (p : BitString) :
    ∀ {nodes : List Node} {r : Nat}, (∀ n, n < nodes.length → ∀ b c, child nodes n b = some c → c < nodes.length) →
      r < nodes.length → nodes.length ≤ cap →
      (insertPath cap nodes r p).1.length = min cap (nodes.length + missingNodes nodes (some r) p) ∧
        ((insertPath cap nodes r p).2 = none ↔ cap < nodes.length + missingNodes nodes (some r) p) := by
  induction p with
  | nil =>
    intro nodes r hclosed hr hcap
    simp only [insertPath, missingNodes_nil]
    exact ⟨by omega, by simp; omega⟩
  | cons b p ih =>
    intro nodes r hclosed hr hcap
    simp only [insertPath]
    cases hc : child nodes r b with
    | some c =>
      simp only [missingNodes_of_child hc]
      exact ih hclosed (hclosed r hr b c hc) hcap
    | none =>
      simp only [missingNodes_of_no_child hc]
      by_cases hfull : nodes.length = cap
      · rw [if_pos hfull]
        exact ⟨by simp only; omega, by simp; omega⟩
      · rw [if_neg hfull]
        have hlen : (linkChild (nodes ++ [emptyNode]) r b nodes.length).length = nodes.length + 1 := by simp
        have hleaf : missingNodes (linkChild (nodes ++ [emptyNode]) r b nodes.length) (some nodes.length) p = p.length :=
          missingBelow_of_leaf (child_link_new hr b) p (Nat.le_refl _)
        have hclosed' : ∀ n, n < nodes.length + 1 → ∀ x c,
            child (linkChild (nodes ++ [emptyNode]) r b nodes.length) n x = some c → c < nodes.length + 1 := by
          intro n hn x c hnc
          rcases Nat.lt_succ_iff_lt_or_eq.1 hn with hold | rfl
          · rw [child_link hold] at hnc
            split at hnc
            · cases hnc
              omega
            · exact Nat.lt_succ_of_lt (hclosed n hold x c hnc)
          · rw [child_link_new hr] at hnc
            cases hnc
        have := ih (r := nodes.length) (by rw [hlen]; exact hclosed') (by omega) (by omega)
        rw [hlen, hleaf] at this
        rwa [show nodes.length + (p.length + 1) = nodes.length + 1 + p.length by omega]

/-! ### The arena after the loop -/

/-- What the loop for a path keeps and makes: every old node with its path and weight, and new nodes for prefixes of the path,
numbered in path order from NODE_COUNT, with weight 0 (41_tree.md R143). -/
structure Grown (nodes nodes' : List Node) (root : Option Nat) (p : BitString) : Prop where
  tree : TreeOk nodes' root
  oldWalk : ∀ q m, walkRoot nodes root q = some m → walkRoot nodes' root q = some m
  oldPayload : ∀ m, m < nodes.length → (nodeAt nodes' m).payload = (nodeAt nodes m).payload
  oldWeight : ∀ m, m < nodes.length → (nodeAt nodes' m).weight = (nodeAt nodes m).weight
  newPath : ∀ q m, walkRoot nodes' root q = some m → walkRoot nodes root q = none → q <+: p
  newIndex : ∀ q m, walkRoot nodes' root q = some m → walkRoot nodes root q = none →
    m = nodes.length + missingBelow nodes root p q.length
  newPayload : ∀ q m, walkRoot nodes' root q = some m → walkRoot nodes root q = none → (nodeAt nodes' m).payload = none
  newWeight : ∀ q m, walkRoot nodes' root q = some m → walkRoot nodes root q = none → (nodeAt nodes' m).weight = 0

theorem grown_insertPath {cap r : Nat} {nodes : List Node} (h : TreeOk nodes (some r)) {p : BitString}
    (hp : p.length ≤ Config.maxCodeLen) (hcap : nodes.length ≤ cap) :
    Grown nodes (insertPath cap nodes r p).1 (some r) p := by
  obtain ⟨htree, -, -, -, -, hold, hnew, hpay⟩ := insertPath_spec (cap := cap) p h (q := []) (n := r) rfl hp hcap
  obtain ⟨hnum, hweight⟩ := insertPath_numbering (cap := cap) p h (q := []) (n := r) rfl hp hcap
  exact ⟨htree, hold, hpay, hweight, fun q m h1 h2 => (hnew q m h1 h2).1, fun q m h1 h2 => (hnum q m h1 h2).1,
    fun q m h1 h2 => (hnew q m h1 h2).2.2, fun q m h1 h2 => (hnum q m h1 h2).2⟩

/-- The arena after an insertion that found room: the missing nodes are there, and the node at the path carries the payload. -/
structure Inserted (nodes nodes' : List Node) (root : Option Nat) (p : BitString) (v : Byte) : Prop where
  tree : TreeOk nodes' root
  length : nodes'.length = nodes.length + missingNodes nodes root p
  atPath : ∃ n, walkRoot nodes' root p = some n ∧ (nodeAt nodes' n).payload = some v
  old : ∀ q m, walkRoot nodes root q = some m → walkRoot nodes' root q = some m ∧
    (nodeAt nodes' m).weight = (nodeAt nodes m).weight ∧ (q ≠ p → (nodeAt nodes' m).payload = (nodeAt nodes m).payload)
  new : ∀ q m, walkRoot nodes' root q = some m → walkRoot nodes root q = none →
    q <+: p ∧ m = nodes.length + missingBelow nodes root p q.length ∧ (nodeAt nodes' m).weight = 0 ∧
      (q ≠ p → (nodeAt nodes' m).payload = none)

/-- A walk after an insertion was there before, or leads to a new node. -/
theorem Inserted.walk_old_or_new {nodes nodes' : List Node} {root : Option Nat} {p : BitString} {v : Byte}
    (h : Inserted nodes nodes' root p v) {q : BitString} {n : Nat} (hq : walkRoot nodes' root q = some n) :
    walkRoot nodes root q = some n ∨ walkRoot nodes root q = none := by
  cases hold : walkRoot nodes root q with
  | none => exact .inr rfl
  | some m => exact .inl ((h.old q m hold).1.symm.trans hq)

/-- After an insertion nothing is missing but what was missing off the path. -/
theorem Inserted.walk_eq_none_iff {nodes nodes' : List Node} {root : Option Nat} {p : BitString} {v : Byte}
    (h : Inserted nodes nodes' root p v) (q : BitString) :
    walkRoot nodes' root q = none ↔ walkRoot nodes root q = none ∧ ¬ q <+: p := by
  obtain ⟨n, hn, -⟩ := h.atPath
  constructor
  · refine fun hnone => ⟨Option.eq_none_iff_forall_ne_some.2 fun m hm => ?_, ?_⟩
    · cases hnone.symm.trans (h.old q m hm).1
    · rintro ⟨rest, rfl⟩
      obtain ⟨m, hm, -⟩ := walkRoot_prefix hn
      cases hnone.symm.trans hm
  · rintro ⟨hold, hoff⟩
    exact Option.eq_none_iff_forall_ne_some.2 fun m hm => hoff (h.new q m hm hold).1

theorem weight_setPayload {nodes : List Node} {m : Nat} (h : m < nodes.length) (n : Nat) (v : Byte) :
    (nodeAt (setPayload nodes n v) m).weight = (nodeAt nodes m).weight := by
  rw [setPayload, nodeAt_modify h]
  split <;> rfl

theorem payload_setPayload_ne {nodes : List Node} {m n : Nat} (h : m < nodes.length) (hne : m ≠ n) (v : Byte) :
    (nodeAt (setPayload nodes n v) m).payload = (nodeAt nodes m).payload := by
  rw [payload_setPayload h, if_neg hne]

/-- Setting the payload at the path's end is the rest of an insertion. -/
theorem Grown.setPayload {nodes nodes' : List Node} {root : Option Nat} {p : BitString} (h : Grown nodes nodes' root p)
    (htree : TreeOk nodes root) (hlen : nodes'.length = nodes.length + missingNodes nodes root p) {n : Nat}
    (hn : walkRoot nodes' root p = some n) (v : Byte) : Inserted nodes (setPayload nodes' n v) root p v := by
  have hne : ∀ {q m}, walkRoot nodes' root q = some m → q ≠ p → m ≠ n := fun hq hqp hmn =>
    hqp (h.tree.path_unique hq (hmn ▸ hn))
  refine ⟨h.tree.setPayload n v, by rw [setPayload_length, hlen], ⟨n, ?_, ?_⟩, fun q m hq => ?_, fun q m hq hold => ?_⟩
  · rw [walkRoot_setPayload, hn]
  · rw [payload_setPayload (h.tree.walk_lt hn), if_pos rfl]
  · have hlt := htree.walk_lt hq
    have hq' := h.oldWalk q m hq
    have hlt' := h.tree.walk_lt hq'
    refine ⟨by rw [walkRoot_setPayload, hq'], by rw [weight_setPayload hlt', h.oldWeight m hlt], fun hqp => ?_⟩
    rw [payload_setPayload_ne hlt' (hne hq' hqp), h.oldPayload m hlt]
  · rw [walkRoot_setPayload] at hq
    have hlt' := h.tree.walk_lt hq
    refine ⟨h.newPath q m hq hold, h.newIndex q m hq hold, by rw [weight_setPayload hlt', h.newWeight q m hq hold],
      fun hqp => ?_⟩
    rw [payload_setPayload_ne hlt' (hne hq hqp), h.newPayload q m hq hold]

/-! ### The insertion -/

theorem ensureRoot_of_root {s : State} {r : Nat} (hroot : s.root = some r) : ensureRoot s = (s, r) := by
  simp only [ensureRoot, hroot]

theorem ensureRoot_of_no_root {s : State} (hroot : s.root = none) : ensureRoot s = (clearTree s, 0) := by
  simp only [ensureRoot, hroot]

/-- Without a root an insertion begins with the implicit clear (41_tree.md R145). -/
theorem insertPayload_of_no_root {s : State} (hroot : s.root = none) (p : BitString) (v : Byte) :
    insertPayload s p v = insertPayload (clearTree s) p v := by
  rw [insertPayload, ensureRoot_of_no_root hroot, insertPayload, ensureRoot_of_root (clearTree_root s)]

theorem insertPayload_of_end {s : State} {r n : Nat} {p : BitString} {nodes : List Node} (hroot : s.root = some r)
    (h : insertPath s.caps.nodeCap s.nodes r p = (nodes, some n)) (v : Byte) :
    insertPayload s p v = .completed { s with nodes := setPayload nodes n v } := by
  simp only [insertPayload, ensureRoot_of_root hroot, h]

theorem insertPayload_of_full {s : State} {r : Nat} {p : BitString} {nodes : List Node} (hroot : s.root = some r)
    (h : insertPath s.caps.nodeCap s.nodes r p = (nodes, none)) (v : Byte) :
    insertPayload s p v = .raised .nodeCapacity 0 { s with nodes := nodes } := by
  simp only [insertPayload, ensureRoot_of_root hroot, h]

/-- With room for the missing nodes an insertion completes. -/
theorem insertPayload_of_room {s : State} (hroot : s.root ≠ none) (h : TreeOk s.nodes s.root) {p : BitString}
    (hp : p.length ≤ Config.maxCodeLen) (hroom : s.nodes.length + missingNodes s.nodes s.root p ≤ s.caps.nodeCap) (v : Byte) :
    ∃ nodes, insertPayload s p v = .completed { s with nodes := nodes } ∧ Inserted s.nodes nodes s.root p v := by
  obtain ⟨r, hr⟩ := Option.ne_none_iff_exists'.1 hroot
  rw [hr] at h hroom
  have hcap : s.nodes.length ≤ s.caps.nodeCap := by omega
  have hgrown := grown_insertPath h hp hcap
  obtain ⟨hlen, hfull⟩ := insertPath_length p h.childExists (h.rootExists r rfl) hcap
  obtain ⟨-, -, -, hend, -⟩ := insertPath_spec (cap := s.caps.nodeCap) p h (q := []) (n := r) rfl hp hcap
  generalize hres : insertPath s.caps.nodeCap s.nodes r p = res at hgrown hlen hfull hend
  obtain ⟨nodes, _ | n⟩ := res
  · exact absurd (hfull.1 rfl) (by omega)
  · exact ⟨_, insertPayload_of_end hr hres v, hr ▸ hgrown.setPayload h (hlen.trans (Nat.min_eq_right hroom)) (hend n rfl) v⟩

/-- Without room for them it raises NODE_CAPACITY, and leaves the nodes it made (41_tree.md R143). -/
theorem insertPayload_of_no_room {s : State} (hroot : s.root ≠ none) (h : TreeOk s.nodes s.root) {p : BitString}
    (hp : p.length ≤ Config.maxCodeLen) (hcap : s.nodes.length ≤ s.caps.nodeCap)
    (hfew : s.caps.nodeCap < s.nodes.length + missingNodes s.nodes s.root p) (v : Byte) :
    ∃ nodes, insertPayload s p v = .raised .nodeCapacity 0 { s with nodes := nodes } ∧
      nodes.length = s.caps.nodeCap ∧ Grown s.nodes nodes s.root p := by
  obtain ⟨r, hr⟩ := Option.ne_none_iff_exists'.1 hroot
  rw [hr] at h hfew
  have hgrown := grown_insertPath h hp hcap
  obtain ⟨hlen, hfull⟩ := insertPath_length p h.childExists (h.rootExists r rfl) hcap
  generalize hres : insertPath s.caps.nodeCap s.nodes r p = res at hgrown hlen hfull
  obtain ⟨nodes, _ | n⟩ := res
  · exact ⟨nodes, insertPayload_of_full hr hres v, hlen.trans (Nat.min_eq_left hfew.le), hr ▸ hgrown⟩
  · exact absurd (hfull.2 hfew) (by simp)

/-! ### TREE_INSERT -/

/-- Settles O37: the loop ends without the path's end, so that nothing is set. -/
theorem treeInsertAtCapacity : Obligations.TreeInsertAtCapacity := by
  intro s b p htree hroot hp hcap hfew
  have hlen : p.length ≤ Config.maxCodeLen := hp ▸ length_pathOperand_le s
  rw [countP_walk_eq_missingBelow] at hfew
  obtain ⟨nodes, heq, hfull, hgrown⟩ := insertPayload_of_no_room hroot htree hlen hcap hfew b
  rw [exec_eq_finish, ruleOf, ← hp, heq]
  refine ⟨_, rfl, rfl, hfull, hgrown.tree, fun q m hq => ?_, fun q m hq hold => ?_⟩
  · rw [walk_eq_walkRoot] at hq ⊢
    have hlt := htree.walk_lt hq
    exact ⟨hgrown.oldWalk q m hq, hgrown.oldPayload m hlt, hgrown.oldWeight m hlt⟩
  · rw [walk_eq_walkRoot] at hq hold
    rw [countP_walk_eq_missingBelow]
    exact ⟨hgrown.newPath q m hq hold, hgrown.newIndex q m hq hold, hgrown.newPayload q m hq hold,
      hgrown.newWeight q m hq hold⟩

theorem missingBelow_clearTree (s : State) (p : BitString) {j : Nat} (hj : j ≤ p.length) :
    missingBelow (clearTree s).nodes (some 0) p (j + 1) = j :=
  missingBelow_of_leaf (fun b => by cases b <;> rfl) p hj

/-- In a fresh tree only the empty path leads to a node. -/
theorem walkRoot_clearTree (s : State) (q : BitString) :
    walkRoot (clearTree s).nodes (clearTree s).root q = if q = [] then some 0 else none := by
  cases q with
  | nil => rfl
  | cons b q => cases b <;> rfl

/-- An insertion into the fresh tree of the implicit clear, seen from the empty arena before it. -/
theorem Inserted.of_clearTree {s : State} {nodes : List Node} {p : BitString} {v : Byte}
    (h : Inserted (clearTree s).nodes nodes (some 0) p v) :
    nodes.length = p.length + 1 ∧
      ∀ q m, walkRoot nodes (some 0) q = some m →
        q <+: p ∧ m = q.length ∧ (nodeAt nodes m).weight = 0 ∧ (q ≠ p → (nodeAt nodes m).payload = none) := by
  refine ⟨?_, fun q m hq => ?_⟩
  · rw [h.length, missingNodes, missingBelow_clearTree s p (Nat.le_refl _), clearTree_nodes, List.length_singleton,
      Nat.add_comm]
  · have hold := walkRoot_clearTree s q
    cases q with
    | nil =>
      obtain ⟨-, hw, hpay⟩ := h.old [] 0 rfl
      cases hq
      exact ⟨List.nil_prefix, rfl, hw, hpay⟩
    | cons b q =>
      obtain ⟨hpre, hm, hw, hpay⟩ := h.new _ m hq hold
      refine ⟨hpre, ?_, hw, hpay⟩
      have hle : q.length ≤ p.length := Nat.le_of_succ_le hpre.length_le
      rw [List.length_cons, missingBelow_clearTree s p hle, clearTree_nodes, List.length_singleton, Nat.add_comm] at hm
      exact hm

/-- Settles O36: with a root by what an insertion with room leaves, without one by the same from the implicit clear. -/
theorem treeInsertPlacesThePayload : Obligations.TreeInsertPlacesThePayload := by
  intro s b p missing htree hp hmissing hroom
  have hlen : p.length ≤ Config.maxCodeLen := hp ▸ length_pathOperand_le s
  rw [countP_walk_eq_missingBelow] at hmissing
  simp only [countP_walk_eq_missingBelow]
  simp only [walk_eq_walkRoot, exec_eq_finish, ruleOf, ← hp]
  by_cases hroot : s.root = none
  · rw [insertPayload_of_no_root hroot]
    rw [hroot, missingBelow_of_no_root] at hmissing
    have hnodes := htree.emptyWithoutRoot hroot
    have hfresh : (clearTree s).nodes.length + missingNodes (clearTree s).nodes (clearTree s).root p ≤ s.caps.nodeCap := by
      rw [hmissing, hnodes, List.length_nil] at hroom
      rw [clearTree_root, missingNodes, missingBelow_clearTree s p (Nat.le_refl _), clearTree_nodes, List.length_singleton]
      omega
    obtain ⟨nodes, heq, hins⟩ := insertPayload_of_room (by simp) (treeOk_clearTree s) hlen hfresh b
    obtain ⟨hcount, hnew⟩ := hins.of_clearTree
    rw [heq]
    refine ⟨_, rfl, rfl, by simp [hroot], fun _ => ⟨rfl, rfl, rfl⟩, ?_, hins.atPath, ?_, fun q m hq _ => ?_, hins.tree⟩
    · simp [hcount, hnodes, hmissing]
    · simp [hroot, walkRoot]
    · obtain ⟨hpre, hm, hrest⟩ := hnew q m hq
      refine ⟨hpre, ?_, hrest⟩
      simp [hroot, hnodes, missingBelow_of_no_root, hm]
  · subst hmissing
    obtain ⟨nodes, heq, hins⟩ := insertPayload_of_room hroot htree hlen hroom b
    rw [heq]
    exact ⟨_, rfl, rfl, fun _ => ⟨rfl, rfl, rfl⟩, fun h => absurd h hroot, hins.length, hins.atPath, hins.old, hins.new,
      hins.tree⟩

end Sys2Proof.Machine
end

section
/-! SUPPORT. The tree that TABLE_PARSE loads (46_table_parser.md R260, R265, R266): its paths in the order in which the entries need
them, and what each insertion adds to it. -/

namespace Sys2Proof.Machine

/-! ### Distinct elements -/

theorem length_dedup_concat {α : Type} [DecidableEq α] (l : List α) (x : α) :
    (l ++ [x]).dedup.length = l.dedup.length + if x ∈ l then 0 else 1 := by
  rw [(List.perm_append_singleton x l).dedup.length_eq]
  by_cases h : x ∈ l
  · rw [List.dedup_cons_of_mem h, if_pos h, Nat.add_zero]
  · rw [List.dedup_cons_of_notMem h, if_neg h, List.length_cons]

/-- Appending different elements adds those that were not there. -/
theorem length_dedup_append {α : Type} [DecidableEq α] (l new : List α) (hnew : new.Nodup) :
    (l ++ new).dedup.length = l.dedup.length + new.countP (fun x => x ∉ l) := by
  induction new using List.reverseRecOn with
  | nil => simp
  | append_singleton new x ih =>
    obtain ⟨hnodup, -, hx⟩ := List.nodup_append.1 hnew
    have hx : x ∉ new := fun h => hx x h x (List.mem_singleton_self x) rfl
    rw [← List.append_assoc, length_dedup_concat, ih hnodup, List.countP_append, List.countP_singleton]
    by_cases h : x ∈ l <;> simp [h, hx, Nat.add_assoc]

/-- How many different paths come before the first `q`. -/
def firstPlace (l : List BitString) (q : BitString) : Nat :=
  ((l.take (l.idxOf q)).dedup).length

theorem firstPlace_append_of_mem {l : List BitString} {q : BitString} (h : q ∈ l) (new : List BitString) :
    firstPlace (l ++ new) q = firstPlace l q := by
  rw [firstPlace, List.idxOf_append_of_mem h, List.take_append_of_le_length List.idxOf_le_length, firstPlace]

theorem firstPlace_append_of_notMem {l : List BitString} {q : BitString} (h : q ∉ l) (new : List BitString) :
    firstPlace (l ++ new) q = (l ++ new.take (new.idxOf q)).dedup.length := by
  rw [firstPlace, List.idxOf_append_of_notMem h, List.take_length_add_append]

/-! ### The paths that entries need (41_tree.md R143) -/

/-- The paths of the nodes below the root that a code needs, in the order of the walk. -/
def neededBy (c : BitString) : List BitString :=
  (List.range c.length).map (fun k => c.take (k + 1))

/-- The paths of the nodes that a table needs: the root's, then each entry's. -/
def neededPaths (codes : List (Byte × BitString)) : List BitString :=
  [] :: codes.flatMap (fun e => neededBy e.2)

@[simp] theorem length_neededBy (c : BitString) : (neededBy c).length = c.length := by simp [neededBy]

theorem take_neededBy (c : BitString) {j : Nat} (hj : j ≤ c.length) :
    (neededBy c).take j = (List.range j).map (fun k => c.take (k + 1)) := by
  rw [neededBy, ← List.map_take, List.take_range, Nat.min_eq_left hj]

theorem nodup_neededBy (c : BitString) : (neededBy c).Nodup := by
  refine List.Nodup.map_on (fun i hi j hj hij => ?_) List.nodup_range
  have := congrArg List.length hij
  simp only [List.mem_range, List.length_take] at hi hj this
  omega

theorem mem_neededBy {c q : BitString} : q ∈ neededBy c ↔ q ≠ [] ∧ q <+: c := by
  simp only [neededBy, List.mem_map, List.mem_range]
  constructor
  · rintro ⟨k, hk, rfl⟩
    exact ⟨by cases c <;> simp at hk ⊢, List.take_prefix _ _⟩
  · rintro ⟨hne, hpre⟩
    have hpos := List.length_pos_iff.2 hne
    have hle := hpre.length_le
    refine ⟨q.length - 1, by omega, ?_⟩
    rw [Nat.sub_add_cancel hpos]
    exact (List.prefix_iff_eq_take.1 hpre).symm

/-- The prefixes of a code are needed in the order of their lengths. -/
theorem idxOf_neededBy {c q : BitString} (hne : q ≠ []) (hpre : q <+: c) : (neededBy c).idxOf q = q.length - 1 := by
  have hpos := List.length_pos_iff.2 hne
  have hle := hpre.length_le
  have hlt : q.length - 1 < (neededBy c).length := by rw [length_neededBy]; omega
  have hget : (neededBy c)[q.length - 1] = q := by
    simp only [neededBy, List.getElem_map, List.getElem_range, Nat.sub_add_cancel hpos]
    exact (List.prefix_iff_eq_take.1 hpre).symm
  have := (nodup_neededBy c).idxOf_getElem (q.length - 1) hlt
  rwa [hget] at this

theorem neededPaths_concat (codes : List (Byte × BitString)) (v : Byte) (c : BitString) :
    neededPaths (codes ++ [(v, c)]) = neededPaths codes ++ neededBy c := by
  simp [neededPaths]

theorem nil_mem_neededPaths (codes : List (Byte × BitString)) : [] ∈ neededPaths codes := List.mem_cons_self

theorem mem_neededPaths {codes : List (Byte × BitString)} {q : BitString} :
    q ∈ neededPaths codes ↔ q = [] ∨ ∃ e ∈ codes, q <+: e.2 := by
  simp only [neededPaths, List.mem_cons, List.mem_flatMap, mem_neededBy]
  constructor
  · rintro (h | ⟨e, he, -, hpre⟩)
    · exact .inl h
    · exact .inr ⟨e, he, hpre⟩
  · rintro (h | ⟨e, he, hpre⟩)
    · exact .inl h
    · exact (Classical.em (q = [])).imp_right fun hne => ⟨e, he, hne, hpre⟩

theorem code_mem_neededPaths {codes : List (Byte × BitString)} {e : Byte × BitString} (he : e ∈ codes) :
    e.2 ∈ neededPaths codes :=
  mem_neededPaths.2 (.inr ⟨e, he, List.prefix_rfl⟩)

/-- A table's nodes are at most 1 + 255 per entry (46_table_parser.md R266). -/
theorem length_dedup_neededPaths_le {codes : List (Byte × BitString)} (h : ∀ e ∈ codes, e.2.length ≤ Config.maxCodeLen) :
    (neededPaths codes).dedup.length ≤ 1 + codes.length * 255 := by
  refine (List.dedup_sublist _).length_le.trans ?_
  rw [neededPaths, List.length_cons, List.length_flatMap, Nat.add_comm]
  have := List.sum_le_card_nsmul (codes.map fun e => (neededBy e.2).length) 255 (by
    rintro _ hlen
    obtain ⟨e, he, rfl⟩ := List.mem_map.1 hlen
    exact length_neededBy e.2 ▸ h e he)
  simpa using this

/-! ### The payloads -/

/-- The value of the last entry with a code (46_table_parser.md R265). -/
def lastValue (codes : List (Byte × BitString)) (q : BitString) : Option Byte :=
  (codes.reverse.find? (fun e => e.2 = q)).map Prod.fst

theorem lastValue_concat (codes : List (Byte × BitString)) (v : Byte) (c q : BitString) :
    lastValue (codes ++ [(v, c)]) q = if c = q then some v else lastValue codes q := by
  simp only [lastValue, List.reverse_append, List.reverse_singleton, List.singleton_append, List.find?_cons]
  by_cases h : c = q <;> simp [h]

theorem exists_of_lastValue_ne_none {codes : List (Byte × BitString)} {q : BitString} (h : lastValue codes q ≠ none) :
    ∃ e ∈ codes, e.2 = q := by
  obtain ⟨v, hv⟩ := Option.ne_none_iff_exists'.1 h
  obtain ⟨e, he, -⟩ := Option.map_eq_some_iff.1 hv
  exact ⟨e, List.mem_reverse.1 (List.mem_of_find?_eq_some he), by simpa using List.find?_some he⟩

theorem lastValue_eq_none {codes : List (Byte × BitString)} {q : BitString} (h : q ∉ neededPaths codes) :
    lastValue codes q = none := by
  by_contra hval
  obtain ⟨e, he, rfl⟩ := exists_of_lastValue_ne_none hval
  exact h (code_mem_neededPaths he)

/-! ### The loaded tree -/

/-- The arena after the entries `codes`: a tree with root 0 whose paths are those needed, numbered in the order of need, each with
the value of the last entry with that code, and weight 0. -/
structure Loaded (codes : List (Byte × BitString)) (nodes : List Node) : Prop where
  tree : TreeOk nodes (some 0)
  walks : ∀ q, walkRoot nodes (some 0) q = none ↔ q ∉ neededPaths codes
  numbered : ∀ q n, walkRoot nodes (some 0) q = some n → n = firstPlace (neededPaths codes) q
  payload : ∀ q n, walkRoot nodes (some 0) q = some n → (nodeAt nodes n).payload = lastValue codes q
  weight : ∀ q n, walkRoot nodes (some 0) q = some n → (nodeAt nodes n).weight = 0
  count : nodes.length = (neededPaths codes).dedup.length

theorem loaded_clearTree (s : State) : Loaded [] (clearTree s).nodes := by
  have hwalk : ∀ q n, walkRoot (clearTree s).nodes (some 0) q = some n → q = [] ∧ n = 0 := by
    intro q n h
    have h' := (walkRoot_clearTree s q).symm.trans h
    split at h'
    · cases h'
      exact ⟨‹_›, rfl⟩
    · cases h'
  refine ⟨treeOk_clearTree s, fun q => ?_, fun q n h => ?_, fun q n h => ?_, fun q n h => ?_, rfl⟩
  · rw [show walkRoot (clearTree s).nodes (some 0) q = _ from walkRoot_clearTree s q]
    simp [neededPaths]
  all_goals
    obtain ⟨rfl, rfl⟩ := hwalk q n h
    rfl

/-- A walk that is there leads along a needed path. -/
theorem Loaded.mem_of_walk {codes : List (Byte × BitString)} {nodes : List Node} (h : Loaded codes nodes) {q : BitString}
    {n : Nat} (hq : walkRoot nodes (some 0) q = some n) : q ∈ neededPaths codes := by
  by_contra hmem
  rw [(h.walks q).2 hmem] at hq
  cases hq

theorem Loaded.exists_walk {codes : List (Byte × BitString)} {nodes : List Node} (h : Loaded codes nodes) {q : BitString}
    (hq : q ∈ neededPaths codes) : ∃ n, walkRoot nodes (some 0) q = some n :=
  Option.ne_none_iff_exists'.1 fun hnone => (h.walks q).1 hnone hq

/-- The nodes missing along the first steps of a code are the paths that it is the first to need. -/
theorem Loaded.length_dedup_take {codes : List (Byte × BitString)} {nodes : List Node} (h : Loaded codes nodes) (c : BitString)
    {j : Nat} (hj : j ≤ c.length) :
    (neededPaths codes ++ (neededBy c).take j).dedup.length = nodes.length + missingBelow nodes (some 0) c (j + 1) := by
  rw [length_dedup_append _ _ ((nodup_neededBy c).sublist (List.take_sublist _ _)), h.count, missingBelow_succ,
    take_neededBy c hj, List.countP_map]
  congr 1
  refine List.countP_congr fun k _ => ?_
  simp only [Function.comp, decide_eq_true_eq]
  exact (h.walks _).symm

theorem Loaded.length_add_missingNodes {codes : List (Byte × BitString)} {nodes : List Node} (h : Loaded codes nodes) (v : Byte)
    (c : BitString) :
    nodes.length + missingNodes nodes (some 0) c = (neededPaths (codes ++ [(v, c)])).dedup.length := by
  rw [missingNodes, ← h.length_dedup_take c (Nat.le_refl _), neededPaths_concat,
    List.take_of_length_le (length_neededBy c).le]

/-- A new node's index (41_tree.md R143) is its path's place in the order of need. -/
theorem Loaded.firstPlace_of_new {codes : List (Byte × BitString)} {nodes : List Node} (h : Loaded codes nodes) {c q : BitString}
    (hpre : q <+: c) (hnew : q ∉ neededPaths codes) (v : Byte) :
    firstPlace (neededPaths (codes ++ [(v, c)])) q = nodes.length + missingBelow nodes (some 0) c q.length := by
  have hne : q ≠ [] := fun hnil => hnew (hnil ▸ nil_mem_neededPaths codes)
  have hpos := List.length_pos_iff.2 hne
  have hle := hpre.length_le
  rw [neededPaths_concat, firstPlace_append_of_notMem hnew, idxOf_neededBy hne hpre, h.length_dedup_take c (by omega),
    Nat.sub_add_cancel hpos]

section
variable {codes : List (Byte × BitString)} {nodes nodes' : List Node} {v : Byte} {c : BitString}

theorem Loaded.walks_insert (h : Loaded codes nodes) (hins : Inserted nodes nodes' (some 0) c v) (q : BitString) :
    walkRoot nodes' (some 0) q = none ↔ q ∉ neededPaths (codes ++ [(v, c)]) := by
  rw [hins.walk_eq_none_iff, h.walks, neededPaths_concat, List.mem_append, not_or, mem_neededBy]
  refine and_congr_right fun hnew => not_congr ⟨fun hpre => ⟨?_, hpre⟩, And.right⟩
  rintro rfl
  exact hnew (nil_mem_neededPaths codes)

theorem Loaded.numbered_insert (h : Loaded codes nodes) (hins : Inserted nodes nodes' (some 0) c v) {q : BitString} {n : Nat}
    (hq : walkRoot nodes' (some 0) q = some n) : n = firstPlace (neededPaths (codes ++ [(v, c)])) q := by
  rcases hins.walk_old_or_new hq with hold | hold
  · rw [neededPaths_concat, firstPlace_append_of_mem (h.mem_of_walk hold)]
    exact h.numbered q n hold
  · obtain ⟨hpre, hn, -⟩ := hins.new q n hq hold
    rw [h.firstPlace_of_new hpre ((h.walks q).1 hold), hn]

theorem Loaded.payload_insert (h : Loaded codes nodes) (hins : Inserted nodes nodes' (some 0) c v) {q : BitString} {n : Nat}
    (hq : walkRoot nodes' (some 0) q = some n) : (nodeAt nodes' n).payload = lastValue (codes ++ [(v, c)]) q := by
  rw [lastValue_concat]
  by_cases hqc : c = q
  · obtain ⟨m, hm, hpay⟩ := hins.atPath
    subst hqc
    cases hm.symm.trans hq
    rw [if_pos rfl, hpay]
  · rw [if_neg hqc]
    rcases hins.walk_old_or_new hq with hold | hold
    · obtain ⟨-, -, hkeep⟩ := hins.old q n hold
      rw [hkeep (Ne.symm hqc), h.payload q n hold]
    · obtain ⟨-, -, -, hnone⟩ := hins.new q n hq hold
      rw [hnone (Ne.symm hqc), lastValue_eq_none ((h.walks q).1 hold)]

theorem Loaded.weight_insert (h : Loaded codes nodes) (hins : Inserted nodes nodes' (some 0) c v) {q : BitString} {n : Nat}
    (hq : walkRoot nodes' (some 0) q = some n) : (nodeAt nodes' n).weight = 0 := by
  rcases hins.walk_old_or_new hq with hold | hold
  · obtain ⟨-, hkeep, -⟩ := hins.old q n hold
    rw [hkeep, h.weight q n hold]
  · obtain ⟨-, -, hzero, -⟩ := hins.new q n hq hold
    exact hzero

/-- An insertion with room loads its entry. -/
theorem Loaded.insert (h : Loaded codes nodes) (hins : Inserted nodes nodes' (some 0) c v) :
    Loaded (codes ++ [(v, c)]) nodes' :=
  ⟨hins.tree, h.walks_insert hins, fun _ _ => h.numbered_insert hins, fun _ _ => h.payload_insert hins,
    fun _ _ => h.weight_insert hins, hins.length.trans (h.length_add_missingNodes v c)⟩

end

/-- The entries of a table with at most 256 of them all find room (46_table_parser.md R266), one after the other. -/
theorem insertEntries_loads (es : List (Byte × BitString)) :
    ∀ {codes : List (Byte × BitString)} {s : State}, s.root = some 0 → 65281 ≤ s.caps.nodeCap → Loaded codes s.nodes →
      (∀ e ∈ codes ++ es, e.2.length ≤ Config.maxCodeLen) → (codes ++ es).length ≤ 256 →
      ∃ nodes, insertEntries es s = .completed { s with nodes := nodes } ∧ Loaded (codes ++ es) nodes := by
  induction es with
  | nil =>
    intro codes s hroot hcap h hlen hfew
    exact ⟨s.nodes, rfl, by rwa [List.append_nil]⟩
  | cons e es ih =>
    intro codes s hroot hcap h hlen hfew
    obtain ⟨v, c⟩ := e
    rw [show codes ++ (v, c) :: es = (codes ++ [(v, c)]) ++ es by simp] at hlen hfew ⊢
    have hroom : s.nodes.length + missingNodes s.nodes s.root c ≤ s.caps.nodeCap := by
      rw [hroot, h.length_add_missingNodes v]
      have := length_dedup_neededPaths_le fun e he => hlen e (List.mem_append_left es he)
      rw [List.length_append] at hfew
      omega
    obtain ⟨nodes, heq, hins⟩ := insertPayload_of_room (by simp [hroot]) (hroot.symm ▸ h.tree)
      (hlen (v, c) (by simp)) hroom v
    rw [hroot] at hins
    obtain ⟨nodes', heq', h'⟩ := ih (s := { s with nodes := nodes }) hroot hcap (h.insert hins) hlen hfew
    exact ⟨nodes', by rw [insertEntries, heq, Effect.andThen_completed, heq'], h'⟩

/-! ### TABLE_PARSE -/

theorem map_readEmptyCode_of_no_empty {es : List (Byte × BitString)} (h : ∀ e ∈ es, e.2 ≠ []) : es.map readEmptyCode = es := by
  refine (List.map_congr_left fun e he => ?_).trans (List.map_id es)
  rw [readEmptyCode, if_neg (h e he), id]

theorem firstEmptyCode_eq_none {es : List (Byte × BitString)} (h : ∀ e ∈ es, e.2 ≠ []) : firstEmptyCode es = none := by
  rw [firstEmptyCode, List.findIdx?_eq_none_iff]
  simpa using h

/-- An accepted table without a forbidden empty code is loaded (46_table_parser.md R260, R264). -/
theorem ruleTableParse_of_entries {s : State} {es : List (Byte × BitString)} (htbl : s.tblLen.toNat ≤ s.caps.tbufCap)
    (hparse : parseTable (tableBytes s) = .entries es) (hempty : 2 ≤ es.length → ∀ e ∈ es, e.2 ≠ []) :
    ruleTableParse s = loadEntries (es.map readEmptyCode) s := by
  rw [ruleTableParse, if_neg (by omega), hparse]
  by_cases h : 2 ≤ es.length
  · simp only [if_pos h, firstEmptyCode_eq_none (hempty h), map_readEmptyCode_of_no_empty (hempty h)]
  · simp only [if_neg h]

/-- Settles O42: what the loop over the entries loads, read through `needed`. -/
theorem tableParseLoadsTheEntries : Obligations.TableParseLoadsTheEntries := by
  intro s es codes hcaps htbl hparse hempty hcodes needed
  obtain ⟨-, -, -, hcap, -⟩ := hcaps
  have hes := entriesOk_of_parseTable hparse
  have hread : codes = es.map readEmptyCode := hcodes
  have hlength : codes.length = es.length := by rw [hread, List.length_map]
  have hfew : codes.length ≤ 256 := hlength ▸ hes.length_le
  obtain ⟨nodes, heq, h⟩ := insertEntries_loads codes (codes := []) (s := clearTree s) rfl hcap (loaded_clearTree s)
    (hread ▸ hes.readEmptyCode.2) hfew
  rw [exec_eq_finish, ruleOf, ruleTableParse_of_entries htbl hparse hempty, ← hread, loadEntries, heq]
  refine ⟨_, rfl, rfl, ?_, h.tree, fun v c hfind => ?_, fun q n hq => ?_, h.count⟩
  · show (BitVec.ofNat 9 codes.length).toNat = es.length
    rw [BitVec.toNat_ofNat, hlength, Nat.mod_eq_of_lt (by omega)]
  · obtain ⟨n, hn⟩ := h.exists_walk (code_mem_neededPaths (List.mem_reverse.1 (List.mem_of_find?_eq_some hfind)))
    refine ⟨n, hn, (h.payload c n hn).trans ?_⟩
    rw [List.nil_append, lastValue, hfind, Option.map_some]
  · rw [walk_eq_walkRoot] at hq
    refine ⟨mem_neededPaths.1 (h.mem_of_walk hq), fun hpay => ?_, h.numbered q n hq, h.weight q n hq⟩
    exact exists_of_lastValue_ne_none (h.payload q n hq ▸ hpay)

end Sys2Proof.Machine
end

section
/-! SUPPORT. The histogram commands (42_histogram.md): when a count is exact, and COUNT as one 64-bit number. -/

namespace Sys2Proof.Machine

/-! ### HIST_COUNT and the clearing commands (R171 to R173, 44_code_table.md R215) -/

/-- No count of fewer than 2^64 bytes wraps (R172). -/
theorem toNat_histAt_countBytes {bytes : List Byte} (h : bytes.length < 2 ^ 64) (b : Byte) :
    (histAt (countBytes bytes) b).toNat = bytes.count b := by
  rw [histAt_countBytes, BitVec.toNat_ofNat, Nat.mod_eq_of_lt (List.count_le_length.trans_lt h)]

theorem length_inputBytes_lt (s : State) : (inputBytes s).length < 2 ^ 64 := by
  rw [length_inputBytes]
  exact s.inLen.isLt.trans (by decide)

theorem ruleHistCount_of_le {s : State} (h : s.inLen.toNat ≤ s.caps.ibufCap) :
    ruleHistCount s = .completed { s with hist := countBytes (inputBytes s) } :=
  if_neg (Nat.not_lt.2 h)

theorem ruleHistCount_of_lt {s : State} (h : s.caps.ibufCap < s.inLen.toNat) :
    ruleHistCount s = .raised .ioFailure ibufInfo s :=
  if_pos h

/-- Settles O16: by whether IN_LEN is within IBUF; a count is exact since IN_LEN is a 32-bit register. -/
theorem histCountCountsTheInput : Obligations.HistCountCountsTheInput := by
  refine fun s _ => ⟨fun hle => ?_, fun hlt => ?_⟩
  · rw [exec_eq_finish, ruleOf, ruleHistCount_of_le hle]
    exact ⟨_, rfl, rfl, toNat_histAt_countBytes (length_inputBytes_lt s)⟩
  · rw [exec_eq_finish, ruleOf, ruleHistCount_of_lt hlt]
    rfl

/-- Settles O17: the completed clears of HIST and of CODE. -/
theorem clearCommandsEmptyTheirMemory : Obligations.ClearCommandsEmptyTheirMemory :=
  fun _ => ⟨⟨_, rfl, rfl, histAt_zeroHist⟩, ⟨_, rfl, rfl, codeAt_emptyCode⟩⟩

/-! ### COUNT (10_state.md R34) and HIST_GET and HIST_SET (R174, R175) -/

theorem toNat_countOperand (s : State) : (countOperand s).toNat = s.countHi.toNat * 2 ^ 32 + s.countLo.toNat := by
  rw [countOperand, BitVec.toNat_append, ← Nat.shiftLeft_add_eq_or_of_lt s.countLo.isLt, Nat.shiftLeft_eq]

/-- What HIST_GET puts in COUNT_HI and COUNT_LO is the whole count again when read as COUNT. -/
theorem countOperand_of_halves {t : State} {c : BitVec 64} (hlo : t.countLo = c.extractLsb' 0 32)
    (hhi : t.countHi = c.extractLsb' 32 32) : countOperand t = c := by
  rw [countOperand, hlo, hhi, BitVec.extractLsb'_append_extractLsb'_eq_extractLsb' (by rfl)]
  exact BitVec.extractLsb'_eq_self

/-- Settles O18: HIST_GET's halves make up the count, and HIST_SET puts COUNT in one entry. -/
theorem histGetAndSetMoveOneCount : Obligations.HistGetAndSetMoveOneCount := by
  refine fun s b => ⟨⟨_, rfl, rfl, rfl, rfl, ?_⟩, ⟨_, rfl, rfl, ?_, fun b' hb' => ?_⟩⟩
  · rw [← toNat_countOperand]
    exact congrArg BitVec.toNat (countOperand_of_halves rfl rfl)
  · show (histAt (histPut s.hist b (countOperand s)) b).toNat = _
    rw [histAt_histPut, if_pos rfl, toNat_countOperand]
  · exact (histAt_histPut ..).trans (if_neg hb')

end Sys2Proof.Machine
end

section
/-! SUPPORT. What TREE_BUILD makes of a histogram (43_tree_builder.md R190 to R197): its leaves, the order of the queue, and for every
node after the leaves the two that its merge took. -/

namespace Sys2Proof.Machine

/-! ### The leaves (R191) -/

/-- The symbols with a nonzero count, in ascending byte value (43_tree_builder.md R191). -/
def symbolsOf (h : Histogram) : List Byte :=
  allSymbols.filter (fun b => histAt h b ≠ 0)

/-- The leaf of a symbol (43_tree_builder.md R191). -/
def symbolLeaf (h : Histogram) (b : Byte) : Node :=
  { payload := some b, left := none, right := none, weight := (histAt h b).setWidth 72 }

/-- The sum of all counts (43_tree_builder.md R192). -/
def totalCount (h : Histogram) : Nat :=
  (allSymbols.map (fun b => (histAt h b).toNat)).sum

theorem mem_symbolsOf {h : Histogram} {b : Byte} : b ∈ symbolsOf h ↔ histAt h b ≠ 0 := by
  simp [symbolsOf, mem_allSymbols]

theorem seedLeaves_eq_map (h : Histogram) : seedLeaves h = (symbolsOf h).map (symbolLeaf h) := by
  rw [symbolsOf, ← List.filterMap_eq_filter, List.map_filterMap, seedLeaves]
  refine List.filterMap_congr fun b _ => ?_
  by_cases hb : histAt h b = 0#64 <;> simp [Option.guard, hb, symbolLeaf]

theorem length_seedLeaves (h : Histogram) : (seedLeaves h).length = (symbolsOf h).length := by
  rw [seedLeaves_eq_map, List.length_map]

theorem length_seedLeaves_eq_countP (h : Histogram) :
    (seedLeaves h).length = allSymbols.countP (fun b => histAt h b ≠ 0) := by
  rw [length_seedLeaves, symbolsOf, ← List.countP_eq_length_filter]

/-- A 64-bit count fits the 72 bits of a weight. -/
theorem toNat_weight_symbolLeaf (h : Histogram) (b : Byte) : (symbolLeaf h b).weight.toNat = (histAt h b).toNat := by
  rw [symbolLeaf, BitVec.toNat_setWidth, Nat.mod_eq_of_lt (Nat.lt_trans (histAt h b).isLt (by decide))]

theorem sum_filter_nonzero (f : Byte → BitVec 64) (l : List Byte) :
    ((l.filter (fun b => f b ≠ 0)).map (fun b => (f b).toNat)).sum = (l.map (fun b => (f b).toNat)).sum := by
  induction l with
  | nil => rfl
  | cons b l ih =>
    by_cases hb : f b = 0
    · rw [List.filter_cons_of_neg (by simpa using hb), ih, List.map_cons, List.sum_cons, hb]
      exact (Nat.zero_add _).symm
    · rw [List.filter_cons_of_pos (by simpa using hb), List.map_cons, List.map_cons, List.sum_cons, List.sum_cons, ih]

/-- The leaves' weights add up to the sum of all counts: a symbol without a leaf has count 0. -/
theorem sum_weight_seedLeaves (h : Histogram) : ((seedLeaves h).map (fun x => x.weight.toNat)).sum = totalCount h := by
  rw [seedLeaves_eq_map, List.map_map]
  simp only [Function.comp_def, toNat_weight_symbolLeaf]
  exact sum_filter_nonzero (histAt h) allSymbols

/-- The sum of all counts fits 72 bits (43_tree_builder.md R192). -/
theorem totalCount_le (h : Histogram) : totalCount h ≤ 256 * (2 ^ 64 - 1) := by
  have hle := List.sum_le_card_nsmul (allSymbols.map (fun b => (histAt h b).toNat)) (2 ^ 64 - 1) (by
    intro x hx
    obtain ⟨b, -, rfl⟩ := List.mem_map.1 hx
    have := (histAt h b).isLt
    omega)
  simpa only [totalCount, allSymbols, List.length_map, List.length_range, smul_eq_mul] using hle

theorem nodeAt_eq_getElem {nodes : List Node} {i : Nat} (hi : i < nodes.length) : nodeAt nodes i = nodes[i] :=
  List.getD_eq_getElem _ _ hi

/-- In an arena that starts with the leaves, leaf i is the i-th symbol's. -/
theorem nodeAt_of_leavesFirst {h : Histogram} {nodes : List Node} (hp : seedLeaves h <+: nodes) {i : Nat} {b : Byte}
    (hb : (symbolsOf h)[i]? = some b) : nodeAt nodes i = symbolLeaf h b := by
  have hi : (seedLeaves h)[i]? = some (symbolLeaf h b) := by rw [seedLeaves_eq_map, List.getElem?_map, hb, Option.map_some]
  obtain ⟨rest, rfl⟩ := hp
  rw [nodeAt, List.getD_eq_getElem?_getD, List.getElem?_append_left (List.getElem?_eq_some_iff.1 hi).1, hi, Option.getD_some]

theorem exists_symbolLeaf_of_lt {h : Histogram} {nodes : List Node} (hp : seedLeaves h <+: nodes) {i : Nat}
    (hi : i < (seedLeaves h).length) : ∃ b, histAt h b ≠ 0 ∧ nodeAt nodes i = symbolLeaf h b := by
  rw [length_seedLeaves] at hi
  exact ⟨_, mem_symbolsOf.1 (List.getElem_mem hi), nodeAt_of_leavesFirst hp (List.getElem?_eq_getElem hi)⟩

/-! ### The order of the queue (R193) -/

theorem keyLe_iff {nodes : List Node} {x y : Nat} : keyLe nodes x y = true ↔
    (nodeAt nodes x).weight.toNat < (nodeAt nodes y).weight.toNat ∨
      ((nodeAt nodes x).weight = (nodeAt nodes y).weight ∧ x ≤ y) := by
  simp [keyLe]

theorem keyLe_refl (nodes : List Node) (x : Nat) : keyLe nodes x x = true :=
  keyLe_iff.2 (.inr ⟨rfl, Nat.le_refl x⟩)

theorem keyLe_total {nodes : List Node} {x y : Nat} (h : ¬ keyLe nodes x y = true) : keyLe nodes y x = true := by
  rw [keyLe_iff, ← BitVec.toNat_inj] at *
  omega

theorem keyLe_trans {nodes : List Node} {x y z : Nat} (hxy : keyLe nodes x y = true) (hyz : keyLe nodes y z = true) :
    keyLe nodes x z = true := by
  rw [keyLe_iff, ← BitVec.toNat_inj] at *
  omega

/-- `minkey(Q)` is a lowest element of the queue. -/
theorem keyLe_minKey {nodes : List Node} {q : List Nat} {x : Nat} (h : minKey nodes q = some x) :
    ∀ y ∈ q, keyLe nodes x y = true := by
  induction q generalizing x with
  | nil => simp
  | cons z q ih =>
    rw [List.forall_mem_cons]
    simp only [minKey] at h
    split at h
    · rename_i hnone
      rw [← Option.some_inj.1 h, (minKey_eq_none_iff nodes q).1 hnone]
      exact ⟨keyLe_refl nodes z, by simp⟩
    · rename_i m hm
      split at h
      · rename_i hle
        rw [← Option.some_inj.1 h]
        exact ⟨keyLe_refl nodes z, fun y hy => keyLe_trans hle (ih hm y hy)⟩
      · rename_i hnle
        rw [← Option.some_inj.1 h]
        exact ⟨keyLe_total hnle, ih hm⟩

/-- Strictly earlier in the order of the queue (43_tree_builder.md R193). -/
def ComesBefore (nodes : List Node) (x y : Nat) : Prop :=
  (nodeAt nodes x).weight.toNat < (nodeAt nodes y).weight.toNat ∨
    ((nodeAt nodes x).weight = (nodeAt nodes y).weight ∧ x < y)

theorem comesBefore_of_keyLe {nodes : List Node} {x y : Nat} (h : keyLe nodes x y = true) (hne : y ≠ x) :
    ComesBefore nodes x y :=
  (keyLe_iff.1 h).imp_right fun ⟨hw, hle⟩ => ⟨hw, Nat.lt_of_le_of_ne hle hne.symm⟩

/-! ### What a merge takes (R194) -/

/-- Node `j` was made before node `z` and no node before `z` has it as a child: what the queue holds when `z` is made. -/
def Queued (nodes : List Node) (z j : Nat) : Prop :=
  j < z ∧ ∀ i, i < z → (nodeAt nodes i).left ≠ some j ∧ (nodeAt nodes i).right ≠ some j

/-- Node `z` merges `x` and `y`, the two lowest nodes of the queue (43_tree_builder.md R194). -/
structure MergeOf (nodes : List Node) (z x y : Nat) : Prop where
  payload : (nodeAt nodes z).payload = none
  left : (nodeAt nodes z).left = some x
  right : (nodeAt nodes z).right = some y
  weight : (nodeAt nodes z).weight.toNat = (nodeAt nodes x).weight.toNat + (nodeAt nodes y).weight.toNat
  leftQueued : Queued nodes z x
  rightQueued : Queued nodes z y
  leftBeforeRight : ComesBefore nodes x y
  leftLeast : ∀ j, Queued nodes z j → j ≠ x → ComesBefore nodes x j
  rightNext : ∀ j, Queued nodes z j → j ≠ x → j ≠ y → ComesBefore nodes y j

/-- The node that follows `z` finds what `z` left in the queue, and `z`. -/
theorem queued_succ_iff {nodes : List Node} {z x y j : Nat} (hl : (nodeAt nodes z).left = some x)
    (hr : (nodeAt nodes z).right = some y) (hx : x < z) (hy : y < z)
    (hchild : ∀ i, i < z → (nodeAt nodes i).left ≠ some z ∧ (nodeAt nodes i).right ≠ some z) :
    Queued nodes (z + 1) j ↔ (Queued nodes z j ∧ j ≠ x ∧ j ≠ y) ∨ j = z := by
  constructor
  · rintro ⟨hj, hfree⟩
    have hz := hfree z (Nat.lt_succ_self z)
    rw [hl, hr] at hz
    rcases Nat.lt_succ_iff_lt_or_eq.1 hj with hj | rfl
    · exact .inl ⟨⟨hj, fun i hi => hfree i (Nat.lt_succ_of_lt hi)⟩, fun e => hz.1 (e ▸ rfl), fun e => hz.2 (e ▸ rfl)⟩
    · exact .inr rfl
  · intro h
    have hj : j < z + 1 ∧ j ≠ x ∧ j ≠ y := by
      rcases h with ⟨⟨hj, -⟩, hne⟩ | rfl
      · exact ⟨Nat.lt_succ_of_lt hj, hne⟩
      · exact ⟨Nat.lt_succ_self j, by omega, by omega⟩
    refine ⟨hj.1, fun i hi => ?_⟩
    rcases Nat.lt_succ_iff_lt_or_eq.1 hi with hi | rfl
    · rcases h with ⟨⟨-, hfree⟩, -⟩ | rfl
      · exact hfree i hi
      · exact hchild i hi
    · rw [hl, hr]
      exact ⟨fun e => hj.2.1 (Option.some_inj.1 e).symm, fun e => hj.2.2 (Option.some_inj.1 e).symm⟩

theorem queued_congr {nodes nodes' : List Node} {z : Nat} (hagree : ∀ i, i < z → nodeAt nodes' i = nodeAt nodes i) (j : Nat) :
    Queued nodes' z j ↔ Queued nodes z j :=
  and_congr_right fun _ => forall₂_congr fun i hi => by rw [hagree i hi]

theorem queued_append_left (nodes : List Node) (x : Node) (j : Nat) :
    Queued (nodes ++ [x]) nodes.length j ↔ Queued nodes nodes.length j :=
  queued_congr (fun _ hi => nodeAt_append_left hi x) j

section
variable {nodes nodes' : List Node} {z : Nat} (hagree : ∀ i, i ≤ z → nodeAt nodes' i = nodeAt nodes i)
include hagree

theorem comesBefore_congr {x y : Nat} (hx : x ≤ z) (hy : y ≤ z) : ComesBefore nodes' x y ↔ ComesBefore nodes x y := by
  rw [ComesBefore, ComesBefore, hagree x hx, hagree y hy]

/-- A merge depends on the nodes up to its own only. -/
theorem MergeOf.congr {x y : Nat} (h : MergeOf nodes z x y) : MergeOf nodes' z x y := by
  have hz := hagree z (Nat.le_refl z)
  have hx := Nat.le_of_lt h.leftQueued.1
  have hy := Nat.le_of_lt h.rightQueued.1
  have hq := queued_congr fun i hi => hagree i (Nat.le_of_lt hi)
  exact {
    payload := hz ▸ h.payload
    left := hz ▸ h.left
    right := hz ▸ h.right
    weight := by rw [hz, hagree x hx, hagree y hy, h.weight]
    leftQueued := (hq x).2 h.leftQueued
    rightQueued := (hq y).2 h.rightQueued
    leftBeforeRight := (comesBefore_congr hagree hx hy).2 h.leftBeforeRight
    leftLeast := fun j hj hne =>
      (comesBefore_congr hagree hx (Nat.le_of_lt hj.1)).2 (h.leftLeast j ((hq j).1 hj) hne)
    rightNext := fun j hj hne hne' =>
      (comesBefore_congr hagree hy (Nat.le_of_lt hj.1)).2 (h.rightNext j ((hq j).1 hj) hne hne') }

end

/-! ### What the merge loop keeps -/

/-- The sum of the weights in the queue. -/
def queueWeight (nodes : List Node) (q : List Nat) : Nat :=
  (q.map (fun j => (nodeAt nodes j).weight.toNat)).sum

theorem queueWeight_range (nodes : List Node) :
    queueWeight nodes (List.range nodes.length) = (nodes.map (fun x => x.weight.toNat)).sum := by
  refine congrArg List.sum (List.ext_getElem (by simp) fun i hi _ => ?_)
  have hi : i < nodes.length := by simpa using hi
  simp [nodeAt_eq_getElem hi]

/-- The two nodes that a merge takes weigh, with what is left, as much as the queue. -/
theorem queueWeight_erase_erase (nodes : List Node) {q : List Nat} {x y : Nat} (hx : x ∈ q) (hy : y ∈ q.erase x) :
    (nodeAt nodes x).weight.toNat + (nodeAt nodes y).weight.toNat + queueWeight nodes ((q.erase x).erase y) =
      queueWeight nodes q := by
  rw [Nat.add_assoc, queueWeight, List.sum_map_erase (fun j => (nodeAt nodes j).weight.toNat) hy,
    List.sum_map_erase (fun j => (nodeAt nodes j).weight.toNat) hx, queueWeight]

theorem queueWeight_congr {nodes nodes' : List Node} {q : List Nat} (h : ∀ j ∈ q, nodeAt nodes' j = nodeAt nodes j) :
    queueWeight nodes' q = queueWeight nodes q :=
  congrArg List.sum (List.map_congr_left fun j hj => by rw [h j hj])

/-- The arena and the queue while TREE_BUILD merges (43_tree_builder.md R191 to R194). -/
structure Merging (h : Histogram) (nodes : List Node) (q : List Nat) : Prop where
  leavesFirst : seedLeaves h <+: nodes
  memQueue : ∀ j, j ∈ q ↔ Queued nodes nodes.length j
  queueSum : queueWeight nodes q = totalCount h
  positive : ∀ i, i < nodes.length → 0 < (nodeAt nodes i).weight.toNat
  merged : ∀ z, (seedLeaves h).length ≤ z → z < nodes.length → ∃ x y, MergeOf nodes z x y

theorem merging_seedLeaves (h : Histogram) : Merging h (seedLeaves h) (List.range (seedLeaves h).length) where
  leavesFirst := List.prefix_rfl
  memQueue := by
    intro j
    rw [List.mem_range]
    refine ⟨fun hj => ⟨hj, fun i hi => ?_⟩, fun hj => hj.1⟩
    obtain ⟨b, -, hb⟩ := exists_symbolLeaf_of_lt List.prefix_rfl hi
    simp [hb, symbolLeaf]
  queueSum := by rw [queueWeight_range, sum_weight_seedLeaves]
  positive := by
    intro i hi
    obtain ⟨b, hne, hb⟩ := exists_symbolLeaf_of_lt List.prefix_rfl hi
    rw [hb, toNat_weight_symbolLeaf]
    exact Nat.pos_of_ne_zero fun h0 => hne (BitVec.eq_of_toNat_eq h0)
  merged := fun z hz hz' => absurd hz' (Nat.not_lt.2 hz)

section
variable {h : Histogram} {leaves : Nat} {nodes : List Node} {q : List Nat} {x y : Nat} (hm : Merging h nodes q)
  (hf : Forest leaves nodes q) (hx : minKey nodes q = some x) (hy : minKey nodes (q.erase x) = some y)

include hm hx hy in
/-- The weight of the new node is the exact sum: the whole queue fits 72 bits (R192). -/
theorem Merging.toNat_weight_mergedNode : (mergedNode nodes x y).weight.toNat =
    (nodeAt nodes x).weight.toNat + (nodeAt nodes y).weight.toNat := by
  have hsum := queueWeight_erase_erase nodes (minKey_mem hx) (minKey_mem hy)
  have htotal := totalCount_le h
  rw [hm.queueSum] at hsum
  rw [mergedNode, BitVec.toNat_add, Nat.mod_eq_of_lt (by omega)]

include hm hf hx hy

/-- The new node is a merge of the two lowest nodes of the queue. -/
theorem Merging.mergeOf_new : MergeOf (nodes ++ [mergedNode nodes x y]) nodes.length x y := by
  have hxq := minKey_mem hx
  obtain ⟨hyx, hyq⟩ := (hf.rootsNodup.mem_erase_iff).1 (minKey_mem hy)
  have hold : ∀ j ∈ q, nodeAt (nodes ++ [mergedNode nodes x y]) j = nodeAt nodes j := fun j hj =>
    nodeAt_append_left (hf.rootExists j hj) _
  have hqueued : ∀ j, Queued (nodes ++ [mergedNode nodes x y]) nodes.length j ↔ j ∈ q := fun j =>
    (queued_append_left nodes _ j).trans (hm.memQueue j).symm
  have hbefore : ∀ i ∈ q, ∀ j ∈ q, keyLe nodes i j = true → j ≠ i →
      ComesBefore (nodes ++ [mergedNode nodes x y]) i j := by
    intro i hi j hj hle hne
    rw [ComesBefore, hold i hi, hold j hj]
    exact comesBefore_of_keyLe hle hne
  exact {
    payload := by rw [nodeAt_append_new]; rfl
    left := by rw [nodeAt_append_new]; rfl
    right := by rw [nodeAt_append_new]; rfl
    weight := by rw [nodeAt_append_new, hold x hxq, hold y hyq, hm.toNat_weight_mergedNode hx hy]
    leftQueued := (hqueued x).2 hxq
    rightQueued := (hqueued y).2 hyq
    leftBeforeRight := hbefore x hxq y hyq (keyLe_minKey hx y hyq) hyx
    leftLeast := fun j hj hne =>
      hbefore x hxq j ((hqueued j).1 hj) (keyLe_minKey hx j ((hqueued j).1 hj)) hne
    rightNext := fun j hj hne hne' =>
      hbefore y hyq j ((hqueued j).1 hj)
        (keyLe_minKey hy j ((hf.rootsNodup.mem_erase_iff).2 ⟨hne, (hqueued j).1 hj⟩)) hne' }

theorem Merging.merge_memQueue (j : Nat) : j ∈ (q.erase x).erase y ++ [nodes.length] ↔
    Queued (nodes ++ [mergedNode nodes x y]) (nodes ++ [mergedNode nodes x y]).length j := by
  have hnew := hm.mergeOf_new hf hx hy
  have hchild : ∀ i, i < nodes.length → (nodeAt (nodes ++ [mergedNode nodes x y]) i).left ≠ some nodes.length ∧
      (nodeAt (nodes ++ [mergedNode nodes x y]) i).right ≠ some nodes.length := by
    intro i hi
    rw [nodeAt_append_left hi]
    exact ⟨fun e => Nat.lt_irrefl _ (hf.childExists i hi false _ e), fun e => Nat.lt_irrefl _ (hf.childExists i hi true _ e)⟩
  rw [List.length_append, List.length_singleton,
    queued_succ_iff hnew.left hnew.right hnew.leftQueued.1 hnew.rightQueued.1 hchild,
    mem_merged_queue hf.rootsNodup, hm.memQueue, queued_append_left]

theorem Merging.merge_queueSum :
    queueWeight (nodes ++ [mergedNode nodes x y]) ((q.erase x).erase y ++ [nodes.length]) = totalCount h := by
  have hrest : queueWeight (nodes ++ [mergedNode nodes x y]) ((q.erase x).erase y) =
      queueWeight nodes ((q.erase x).erase y) := queueWeight_congr fun j hj =>
    nodeAt_append_left (hf.rootExists j (List.mem_of_mem_erase (List.mem_of_mem_erase hj))) _
  calc queueWeight (nodes ++ [mergedNode nodes x y]) ((q.erase x).erase y ++ [nodes.length])
      = queueWeight (nodes ++ [mergedNode nodes x y]) ((q.erase x).erase y) + (mergedNode nodes x y).weight.toNat := by
        simp [queueWeight]
    _ = (nodeAt nodes x).weight.toNat + (nodeAt nodes y).weight.toNat + queueWeight nodes ((q.erase x).erase y) := by
        rw [hrest, hm.toNat_weight_mergedNode hx hy, Nat.add_comm]
    _ = totalCount h := by rw [queueWeight_erase_erase nodes (minKey_mem hx) (minKey_mem hy), hm.queueSum]

theorem Merging.merge : Merging h (nodes ++ [mergedNode nodes x y]) ((q.erase x).erase y ++ [nodes.length]) where
  leavesFirst := hm.leavesFirst.trans (List.prefix_append _ _)
  memQueue := hm.merge_memQueue hf hx hy
  queueSum := hm.merge_queueSum hf hx hy
  positive := by
    intro i hi
    rw [List.length_append, List.length_singleton] at hi
    rcases Nat.lt_succ_iff_lt_or_eq.1 hi with hi | rfl
    · rw [nodeAt_append_left hi]
      exact hm.positive i hi
    · rw [nodeAt_append_new, hm.toNat_weight_mergedNode hx hy]
      exact Nat.add_pos_left (hm.positive x (hf.rootExists x (minKey_mem hx))) _
  merged := by
    intro z hz hz'
    rw [List.length_append, List.length_singleton] at hz'
    rcases Nat.lt_succ_iff_lt_or_eq.1 hz' with hz' | rfl
    · obtain ⟨x', y', hxy⟩ := hm.merged z hz hz'
      exact ⟨x', y', hxy.congr fun i hi => nodeAt_append_left (Nat.lt_of_le_of_lt hi hz') _⟩
    · exact ⟨x, y, hm.mergeOf_new hf hx hy⟩

end

/-! ### The built tree -/

theorem toList_head?_of_length_le_one {q : List Nat} (h : q.length ≤ 1) : q.head?.toList = q := by
  match q, h with
  | [], _ | [_], _ => rfl
  | _ :: _ :: _, h => simp at h

/-- The queue that the loop leaves holds the root alone, or nothing. -/
theorem mergeLoop_queue_eq_root (h : Histogram) :
    (mergeLoop (seedLeaves h).length (seedLeaves h) (List.range (seedLeaves h).length)).2 = (buildTree h).2.toList := by
  refine (toList_head?_of_length_le_one ?_).symm
  rw [length_mergeLoop_queue _ _ _ (by simp)]
  exact Nat.min_le_right _ _

theorem merging_buildTree (h : Histogram) : Merging h (buildTree h).1 (buildTree h).2.toList := by
  rw [← mergeLoop_queue_eq_root]
  exact (mergeLoop_induction (P := fun nodes q => Forest (seedLeaves h).length nodes q ∧ Merging h nodes q)
    (fun nodes q x y ⟨hf, hm⟩ hx hy => ⟨hf.merge (minKey_mem hx) (minKey_mem hy), hm.merge hf hx hy⟩) _ _ _
    ⟨forest_of_childless (child_seedLeaves h), merging_seedLeaves h⟩).2

/-- A node of the arena is a leaf of a symbol, or a merge. -/
theorem Merging.leaf_or_merge {h : Histogram} {nodes : List Node} {q : List Nat} (hm : Merging h nodes q) {i : Nat}
    (hi : i < nodes.length) :
    (i < (seedLeaves h).length ∧ ∃ b, histAt h b ≠ 0 ∧ nodeAt nodes i = symbolLeaf h b) ∨
      ((seedLeaves h).length ≤ i ∧ ∃ x y, MergeOf nodes i x y) := by
  rcases Nat.lt_or_ge i (seedLeaves h).length with hlt | hge
  · exact .inl ⟨hlt, exists_symbolLeaf_of_lt hm.leavesFirst hlt⟩
  · exact .inr ⟨hge, hm.merged i hge hi⟩

theorem child_symbolLeaf {h : Histogram} {nodes : List Node} {i : Nat} {b : Byte} (hb : nodeAt nodes i = symbolLeaf h b)
    (bit : Bool) : child nodes i bit = none := by
  cases bit <;> simp [child, hb, symbolLeaf]

/-- A child was made before its parent, and weighs less. -/
theorem Merging.child_lt {h : Histogram} {nodes : List Node} {q : List Nat} (hm : Merging h nodes q) {i c : Nat} {bit : Bool}
    (hi : i < nodes.length) (hc : child nodes i bit = some c) :
    c < i ∧ (nodeAt nodes c).weight.toNat < (nodeAt nodes i).weight.toNat := by
  rcases hm.leaf_or_merge hi with ⟨-, b, -, hb⟩ | ⟨-, x, y, hxy⟩
  · rw [child_symbolLeaf hb] at hc
    simp at hc
  · have hxpos := hm.positive x (Nat.lt_trans hxy.leftQueued.1 hi)
    have hypos := hm.positive y (Nat.lt_trans hxy.rightQueued.1 hi)
    have hw := hxy.weight
    cases bit with
    | false =>
      obtain rfl : x = c := Option.some_inj.1 (hxy.left.symm.trans hc)
      exact ⟨hxy.leftQueued.1, by omega⟩
    | true =>
      obtain rfl : y = c := Option.some_inj.1 (hxy.right.symm.trans hc)
      exact ⟨hxy.rightQueued.1, by omega⟩

/-- Every node below another weighs less. -/
theorem Merging.eq_or_weight_lt {h : Histogram} {nodes : List Node} {q : List Nat} (hm : Merging h nodes q) (p : BitString) :
    ∀ {n m : Nat}, n < nodes.length → walkFrom nodes n p = some m →
      m = n ∨ (nodeAt nodes m).weight.toNat < (nodeAt nodes n).weight.toNat := by
  induction p with
  | nil => exact fun _ hp => .inl (Option.some_inj.1 hp).symm
  | cons bit p ih =>
    intro n m hn hp
    simp only [walkFrom] at hp
    split at hp
    · simp at hp
    · rename_i c hc
      obtain ⟨hcn, hw⟩ := hm.child_lt hn hc
      rcases ih (Nat.lt_trans hcn hn) hp with rfl | hlt
      · exact .inr hw
      · exact .inr (Nat.lt_trans hlt hw)

/-- The root of a tree with a leaf is the node made last (43_tree_builder.md R197). -/
theorem root_buildTree (h : Histogram) (hpos : 1 ≤ (seedLeaves h).length) :
    (buildTree h).2 = some (2 * (seedLeaves h).length - 2) := by
  have hm := merging_buildTree h
  have hlen := length_buildTree h
  refine Option.mem_toList.1 ((hm.memQueue _).2 ?_)
  refine ⟨by omega, fun i hi => ?_⟩
  have hnot : ∀ bit, child (buildTree h).1 i bit ≠ some (2 * (seedLeaves h).length - 2) := by
    intro bit hc
    have := (hm.child_lt hi hc).1
    omega
  exact ⟨hnot false, hnot true⟩

/-- With n leaves no node is deeper than n - 1 (43_tree_builder.md R197). -/
theorem walkRoot_buildTree_length {h : Histogram} {p : BitString} {m : Nat}
    (hp : walkRoot (buildTree h).1 (buildTree h).2 p = some m) : p.length ≤ (seedLeaves h).length - 1 := by
  obtain ⟨r, hr, hp⟩ := Option.bind_eq_some_iff.1 hp
  obtain ⟨hf, -⟩ := forest_buildTree h
  have := hf.pathBounded r (Option.mem_toList.2 hr) p m hp
  rw [hr, Option.toList_some, List.length_singleton] at this
  omega

/-- No walk goes on below a childless node. -/
theorem eq_of_prefix_of_childless {nodes : List Node} {root : Option Nat} {p q : BitString} {m m' : Nat}
    (hp : walkRoot nodes root p = some m) (hq : walkRoot nodes root q = some m') (hm : ∀ bit, child nodes m bit = none)
    (hpq : p <+: q) : p = q := by
  obtain ⟨rest, rfl⟩ := hpq
  rw [walkRoot_append, hp, Option.bind_some] at hq
  cases rest with
  | nil => exact (List.append_nil p).symm
  | cons bit rest => simp [walkFrom, hm] at hq

/-! ### TREE_BUILD -/

/-- What TREE_BUILD ends in (43_tree_builder.md R190). -/
theorem exec_treeBuild_fields {s t : State} (h : exec .treeBuild s = .next t) :
    t.nodes = (buildTree s.hist).1 ∧ t.root = (buildTree s.hist).2 ∧ t.cursor = (buildTree s.hist).2 ∧
      t.symCount = BitVec.ofNat 9 (seedLeaves s.hist).length := by
  rw [exec_eq_finish, ruleOf, ruleTreeBuild, Effect.finish_completed, Host.Outcome.next.injEq] at h
  subst h
  exact ⟨rfl, rfl, rfl, rfl⟩

/-- Settles O20: the first n nodes are the leaves and each later node is a merge; each merge puts one more level over what it takes
and takes one node off the queue, and the node made last has no parent. -/
theorem builtTreeShape : Obligations.BuiltTreeShape := by
  intro s t n ht hn hpos
  obtain ⟨hnodes, hroot, -, -⟩ := exec_treeBuild_fields ht
  rw [← length_seedLeaves_eq_countP] at hn
  have hm := merging_buildTree s.hist
  have hle := length_seedLeaves_le s.hist
  simp only [walk_eq_walkRoot, hnodes, hroot]
  subst hn
  have hleaf : ∀ {i}, i < (seedLeaves s.hist).length → ∃ b, nodeAt (buildTree s.hist).1 i = symbolLeaf s.hist b :=
    fun hi => (exists_symbolLeaf_of_lt hm.leavesFirst hi).imp fun _ hb => hb.2
  refine ⟨length_buildTree _, ?_, root_buildTree _ hpos, ?_, fun i hi => ?_, fun i hi hi' => ?_, ?_, ?_⟩
  · rw [length_buildTree]
    omega
  · rw [Config.maxCodeLen]
    omega
  · obtain ⟨b, hb⟩ := hleaf hi
    simp [hb, symbolLeaf]
  · obtain ⟨x, y, hxy⟩ := hm.merged i hi (by rw [length_buildTree]; exact hi')
    simp [hxy.payload, hxy.left, hxy.right]
  · exact fun p m hp _ => walkRoot_buildTree_length hp
  · intro p q m m' hp hq hml _ hpq
    obtain ⟨b, hb⟩ := hleaf hml
    exact eq_of_prefix_of_childless hp hq (child_symbolLeaf hb) hpq

/-- Settles O21: the weights in the queue always add up to the sum of all counts, which fits 72 bits, and every node lies below the
root and weighs less than each node above it, since no weight is 0. -/
theorem builtWeightsNeverWrap : Obligations.BuiltWeightsNeverWrap := by
  intro s t ht
  obtain ⟨hnodes, hroot, -, -⟩ := exec_treeBuild_fields ht
  have hm := merging_buildTree s.hist
  rw [hnodes, hroot]
  refine ⟨fun i b hi hb => ?_, fun i l r hi hl hr => ?_, fun r hr => ?_⟩
  · rcases hm.leaf_or_merge hi with ⟨-, b', -, hleaf⟩ | ⟨-, x, y, hxy⟩
    · rw [hleaf] at hb ⊢
      rw [toNat_weight_symbolLeaf, Option.some_inj.1 hb]
    · simp [hxy.payload] at hb
  · rcases hm.leaf_or_merge hi with ⟨-, b, -, hleaf⟩ | ⟨-, x, y, hxy⟩
    · simp [hleaf, symbolLeaf] at hl
    · rw [hxy.weight, Option.some_inj.1 (hxy.left.symm.trans hl), Option.some_inj.1 (hxy.right.symm.trans hr)]
  · have hsum := hm.queueSum
    simp only [hr, Option.toList_some, queueWeight, List.map_singleton, List.sum_singleton] at hsum
    refine ⟨hsum, hsum ▸ totalCount_le s.hist, fun i hi hne => ?_⟩
    have htree := treeOk_buildTree s.hist
    obtain ⟨p, hp, -⟩ := htree.onOnePath i hi
    rw [hr] at hp
    exact (hm.eq_or_weight_lt p (htree.rootExists r hr) hp).resolve_left hne

/-- Settles O22: the queue's order is total, so `minKey` finds its lowest element; the queue of the loop holds the nodes without a
parent, and each merge takes the two lowest of them. -/
theorem queueMinimumByWeightThenIndex : Obligations.QueueMinimumByWeightThenIndex := by
  refine ⟨fun nodes q => ⟨minKey_eq_none_iff nodes q, fun x hx =>
    ⟨minKey_mem hx, fun y hy => keyLe_iff.1 (keyLe_minKey hx y hy)⟩⟩, fun s t symbols ht hsymbols => ?_⟩
  obtain ⟨hnodes, -, -, -⟩ := exec_treeBuild_fields ht
  have hm := merging_buildTree s.hist
  obtain rfl : symbols = symbolsOf s.hist := hsymbols
  rw [hnodes, ← length_seedLeaves]
  refine ⟨hm.leavesFirst.length_le, fun i b hb => ?_, fun z hz hz' => ?_⟩
  · rw [nodeAt_of_leavesFirst hm.leavesFirst hb]
    exact ⟨rfl, toNat_weight_symbolLeaf s.hist b⟩
  · obtain ⟨x, y, hxy⟩ := hm.merged z hz hz'
    exact ⟨x, y, hxy.payload, hxy.left, hxy.right, hxy.weight, hxy.leftQueued, hxy.rightQueued, hxy.leftBeforeRight,
      hxy.leftLeast, hxy.rightNext⟩

/-- Settles O19: at most 256 symbols fit SYM_COUNT's 9 bits. -/
theorem treeBuildCompletes : Obligations.TreeBuildCompletes := by
  refine fun s => ⟨_, rfl, rfl, rfl, ?_⟩
  show (BitVec.ofNat 9 (seedLeaves s.hist).length).toNat = _
  have hle := length_seedLeaves_le s.hist
  rw [BitVec.toNat_ofNat, Nat.mod_eq_of_lt (by omega), length_seedLeaves_eq_countP]

/-! ### Small alphabets (R196) -/

theorem seedLeaves_of_no_symbol {h : Histogram} (hz : ∀ b, histAt h b = 0) : seedLeaves h = [] := by
  have hnil : symbolsOf h = [] := List.eq_nil_iff_forall_not_mem.2 fun b hb => mem_symbolsOf.1 hb (hz b)
  rw [seedLeaves_eq_map, hnil, List.map_nil]

theorem seedLeaves_of_one_symbol {h : Histogram} {b : Byte} (hb : histAt h b ≠ 0) (hz : ∀ b', b' ≠ b → histAt h b' = 0) :
    seedLeaves h = [symbolLeaf h b] := by
  have hone : symbolsOf h = [b] := by
    refine List.perm_singleton.1
      ((List.perm_ext_iff_of_nodup (allSymbols_nodup.filter _) (List.nodup_singleton b)).2 fun b' => ?_)
    rw [← symbolsOf, mem_symbolsOf, List.mem_singleton]
    exact ⟨fun hb' => by_contra fun hne => hb' (hz b' hne), fun e => e ▸ hb⟩
  rw [seedLeaves_eq_map, hone, List.map_singleton]

/-- The empty path of a root with a payload is coded "0" (44_code_table.md R213). -/
theorem deriveTable_of_single {x : Node} {b : Byte} (hx : x.payload = some b) :
    deriveTable [x] (some 0) = some (codePut emptyCode b [false]) := by
  simp [deriveTable, Config.maxCodeLen, leafCodes, nodeAt, hx, recordLeaf, recordedCode]

/-- Settles O23: without a symbol the queue starts empty, and with one the loop merges nothing. -/
theorem smallAlphabets : Obligations.SmallAlphabets := by
  intro s t ht
  obtain ⟨hnodes, hroot, hcursor, hcount⟩ := exec_treeBuild_fields ht
  refine ⟨fun hz => ?_, fun b hb hz => ?_⟩
  · have hbuilt : buildTree s.hist = ([], none) := by rw [buildTree, seedLeaves_of_no_symbol hz]; rfl
    rw [hnodes, hroot, hcursor, hcount, hbuilt, seedLeaves_of_no_symbol hz]
    exact ⟨rfl, rfl, rfl, rfl⟩
  · have hbuilt : buildTree s.hist = ([symbolLeaf s.hist b], some 0) := by
      rw [buildTree, seedLeaves_of_one_symbol hb hz]; rfl
    rw [hbuilt] at hnodes hroot
    have hcode : ruleCodeDerive t = .completed { t with code := codePut emptyCode b [false] } := by
      rw [ruleCodeDerive, hnodes, hroot, deriveTable_of_single rfl]
    refine ⟨⟨_, hnodes⟩, hroot, _, by rw [exec_eq_finish, ruleOf, hcode, Effect.finish_completed], ?_⟩
    rw [complete_code, codeAt_codePut, if_pos rfl]

end Sys2Proof.Machine
end

section
/-! SUPPORT. The codes CODE_DERIVE records (44_code_table.md R211 to R214): its traversal as a relation, the nodes it lists and their
order, and which of them gives a byte its code. -/

namespace Sys2Proof.Machine

/-! ### The traversal -/

/-- The traversal of 44_code_table.md R211 below a child field, without its depth: `leaves` are the payload nodes it lists, each with
its path, where `p` is the path of the field. -/
inductive LeavesBelow (nodes : List Node) : Option Nat → BitString → List (Byte × BitString) → Prop where
  | nil (p : BitString) : LeavesBelow nodes none p []
  | payload {n : Nat} {b : Byte} (p : BitString) (hb : (nodeAt nodes n).payload = some b) :
      LeavesBelow nodes (some n) p [(b, p)]
  | inner {n : Nat} {p : BitString} {l r : List (Byte × BitString)} (hn : (nodeAt nodes n).payload = none)
      (hl : LeavesBelow nodes (child nodes n false) (p ++ [false]) l)
      (hr : LeavesBelow nodes (child nodes n true) (p ++ [true]) r) : LeavesBelow nodes (some n) p (l ++ r)

/-- The traversal does not descend below a payload (R212). -/
theorem leafCodes_of_payload {nodes : List Node} {n : Nat} {b : Byte} (h : (nodeAt nodes n).payload = some b) (depth : Nat)
    (p : BitString) : leafCodes nodes depth n p = some [(b, p)] := by
  cases depth <;> simp only [leafCodes, h]

theorem leavesBelow_of_leafCodes {nodes : List Node} (depth : Nat) :
    ∀ {n : Nat} {p : BitString} {leaves : List (Byte × BitString)}, leafCodes nodes depth n p = some leaves →
      LeavesBelow nodes (some n) p leaves := by
  induction depth with
  | zero =>
    intro n p leaves h
    cases hb : (nodeAt nodes n).payload with
    | some b =>
      rw [leafCodes_of_payload hb] at h
      exact Option.some_inj.1 h ▸ .payload p hb
    | none =>
      simp only [leafCodes, hb, Option.ite_none_right_eq_some] at h
      obtain ⟨⟨hleft, hright⟩, h⟩ := h
      rw [← Option.some_inj.1 h, ← List.append_nil []]
      refine .inner hb ?_ ?_
      · rw [show child nodes n false = none from hleft]
        exact .nil _
      · rw [show child nodes n true = none from hright]
        exact .nil _
  | succ depth ih =>
    intro n p leaves h
    cases hb : (nodeAt nodes n).payload with
    | some b =>
      rw [leafCodes_of_payload hb] at h
      exact Option.some_inj.1 h ▸ .payload p hb
    | none =>
      have hside : ∀ bit side,
          (child nodes n bit).elim (some []) (fun c => leafCodes nodes depth c (p ++ [bit])) = some side →
            LeavesBelow nodes (child nodes n bit) (p ++ [bit]) side := by
        intro bit side hs
        cases hc : child nodes n bit with
        | none =>
          rw [hc, Option.elim_none] at hs
          exact Option.some_inj.1 hs ▸ .nil _
        | some c =>
          rw [hc, Option.elim_some] at hs
          exact ih hs
      simp only [leafCodes, hb] at h
      split at h
      · simp at h
      · rename_i l hl
        split at h
        · simp at h
        · rename_i r hr
          exact Option.some_inj.1 h ▸ .inner hb (hside false l hl) (hside true r hr)

theorem exists_leaves_of_deriveTable {nodes : List Node} {root : Option Nat} {t : CodeTable} (h : deriveTable nodes root = some t) :
    ∃ leaves, LeavesBelow nodes root [] leaves ∧ t = leaves.foldl recordLeaf emptyCode := by
  cases root with
  | none => exact ⟨[], .nil [], (Option.some_inj.1 h).symm⟩
  | some r =>
    obtain ⟨leaves, hleaves, ht⟩ := Option.map_eq_some_iff.1 h
    exact ⟨leaves, leavesBelow_of_leafCodes _ hleaves, ht.symm⟩

/-! ### The nodes it lists -/

/-- Path `p` leads to a node that carries `b`, with no payload above it (R212). -/
def IsLeafPath (nodes : List Node) (root : Option Nat) (b : Byte) (p : BitString) : Prop :=
  (∃ n, walkRoot nodes root p = some n ∧ (nodeAt nodes n).payload = some b) ∧
    ∀ q n, q <+: p → q ≠ p → walkRoot nodes root q = some n → (nodeAt nodes n).payload = none

theorem walkRoot_cons (nodes : List Node) (n : Nat) (bit : Bool) (p : BitString) :
    walkRoot nodes (some n) (bit :: p) = walkRoot nodes (child nodes n bit) p := by
  simp only [walkRoot, Option.bind_some, walkFrom]
  cases child nodes n bit <;> rfl

theorem not_isLeafPath_none (nodes : List Node) (b : Byte) (p : BitString) : ¬ IsLeafPath nodes none b p := by
  simp [IsLeafPath, walkRoot]

theorem isLeafPath_nil_iff {nodes : List Node} {n : Nat} {b : Byte} :
    IsLeafPath nodes (some n) b [] ↔ (nodeAt nodes n).payload = some b := by
  simp only [IsLeafPath, walkRoot_nil, Option.some_inj, exists_eq_left', List.prefix_nil]
  exact and_iff_left fun q m hq hne _ => absurd hq hne

theorem isLeafPath_cons_iff {nodes : List Node} {n : Nat} {b : Byte} {bit : Bool} {p : BitString} :
    IsLeafPath nodes (some n) b (bit :: p) ↔ (nodeAt nodes n).payload = none ∧ IsLeafPath nodes (child nodes n bit) b p := by
  simp only [IsLeafPath, walkRoot_cons]
  constructor
  · rintro ⟨hend, habove⟩
    refine ⟨habove [] n List.nil_prefix (by simp) (walkRoot_nil _ _), hend, fun q m hq hne hm => ?_⟩
    exact habove (bit :: q) m (List.cons_prefix_cons.2 ⟨rfl, hq⟩) (by simpa using hne) (by rwa [walkRoot_cons])
  · rintro ⟨hn, hend, habove⟩
    refine ⟨hend, fun q m hq hne hm => ?_⟩
    rcases List.prefix_cons_iff.1 hq with rfl | ⟨q', rfl, hq'⟩
    · rw [walkRoot_nil, Option.some_inj] at hm
      exact hm ▸ hn
    · rw [walkRoot_cons] at hm
      exact habove q' m hq' (by simpa using hne) hm

theorem LeavesBelow.mem_iff {nodes : List Node} {root : Option Nat} {p : BitString} {leaves : List (Byte × BitString)}
    (h : LeavesBelow nodes root p leaves) (b : Byte) (c : BitString) :
    (b, c) ∈ leaves ↔ ∃ q, c = p ++ q ∧ IsLeafPath nodes root b q := by
  induction h with
  | nil p => simp [not_isLeafPath_none]
  | @payload n b' p hb =>
    constructor
    · intro hmem
      obtain ⟨rfl, rfl⟩ := Prod.mk.inj (List.mem_singleton.1 hmem)
      exact ⟨[], (List.append_nil c).symm, isLeafPath_nil_iff.2 hb⟩
    · rintro ⟨_ | ⟨bit, q⟩, rfl, hq⟩
      · rw [isLeafPath_nil_iff, hb, Option.some_inj] at hq
        simp [hq]
      · simp [isLeafPath_cons_iff, hb] at hq
  | @inner n p l r hn hl hr ihl ihr =>
    rw [List.mem_append, ihl, ihr]
    constructor
    · rintro (⟨q, rfl, hq⟩ | ⟨q, rfl, hq⟩)
      · exact ⟨false :: q, (List.append_cons p false q).symm, isLeafPath_cons_iff.2 ⟨hn, hq⟩⟩
      · exact ⟨true :: q, (List.append_cons p true q).symm, isLeafPath_cons_iff.2 ⟨hn, hq⟩⟩
    · rintro ⟨_ | ⟨_ | _, q⟩, rfl, hq⟩
      · simp [isLeafPath_nil_iff, hn] at hq
      · exact .inl ⟨q, List.append_cons p false q, (isLeafPath_cons_iff.1 hq).2⟩
      · exact .inr ⟨q, List.append_cons p true q, (isLeafPath_cons_iff.1 hq).2⟩

theorem LeavesBelow.mem_iff_isLeafPath {nodes : List Node} {root : Option Nat} {leaves : List (Byte × BitString)}
    (h : LeavesBelow nodes root [] leaves) (b : Byte) (p : BitString) : (b, p) ∈ leaves ↔ IsLeafPath nodes root b p := by
  simp only [h.mem_iff, List.nil_append, exists_eq_left']

/-- `p` comes before `q`, where left comes before right (R211). -/
abbrev PathBefore : BitString → BitString → Prop :=
  List.Lex (fun x y => x = false ∧ y = true)

/-- The list is in preorder, so its paths are in lexicographic order. -/
theorem LeavesBelow.pairwise_pathBefore {nodes : List Node} {root : Option Nat} {p : BitString}
    {leaves : List (Byte × BitString)} (h : LeavesBelow nodes root p leaves) :
    leaves.Pairwise (fun e e' => PathBefore e.2 e'.2) := by
  induction h with
  | nil | payload => simp
  | @inner n p l r hn hl hr ihl ihr =>
    refine List.pairwise_append.2 ⟨ihl, ihr, fun e he e' he' => ?_⟩
    obtain ⟨q, hq, -⟩ := (hl.mem_iff e.1 e.2).1 he
    obtain ⟨q', hq', -⟩ := (hr.mem_iff e'.1 e'.2).1 he'
    rw [hq, hq', List.append_assoc, List.append_assoc]
    exact List.Lex.append_left _ (.rel ⟨rfl, rfl⟩) p

/-! ### The codes recorded -/

theorem codeAt_recordLeaf (t : CodeTable) (e : Byte × BitString) (b : Byte) :
    codeAt (recordLeaf t e) b = (codeAt t b).or (if e.1 = b then some (recordedCode e.2) else none) := by
  rw [recordLeaf]
  by_cases hb : b = e.1
  · subst hb
    cases hcode : codeAt t e.1 <;> simp [hcode, codeAt_codePut]
  · rw [if_neg (Ne.symm hb), Option.or_none]
    split
    · rw [codeAt_codePut, if_neg hb]
    · rfl

/-- The first node listed for a byte gives its code (R214). -/
theorem codeAt_foldl_recordLeaf (leaves : List (Byte × BitString)) (t : CodeTable) (b : Byte) :
    codeAt (leaves.foldl recordLeaf t) b =
      (codeAt t b).or ((leaves.find? (fun e => e.1 = b)).map (fun e => recordedCode e.2)) := by
  induction leaves generalizing t with
  | nil => simp
  | cons e leaves ih =>
    rw [List.foldl_cons, ih, codeAt_recordLeaf, Option.or_assoc, List.find?_cons]
    by_cases hb : e.1 = b <;> simp [hb]

theorem codeAt_recorded_eq_none_iff {leaves : List (Byte × BitString)} {b : Byte} :
    codeAt (leaves.foldl recordLeaf emptyCode) b = none ↔ ∀ p, (b, p) ∉ leaves := by
  rw [codeAt_foldl_recordLeaf, codeAt_emptyCode, Option.none_or, Option.map_eq_none_iff, List.find?_eq_none]
  constructor
  · intro h p hp
    exact h (b, p) hp (by simp)
  · rintro h ⟨b', p⟩ he hb
    obtain rfl : b' = b := by simpa using hb
    exact h p he

/-- A code is recorded for the first of the nodes listed that carry its byte. -/
theorem exists_first_of_codeAt_recorded {leaves : List (Byte × BitString)} {R : BitString → BitString → Prop}
    (hR : leaves.Pairwise (fun e e' => R e.2 e'.2)) {b : Byte} {c : BitString}
    (hc : codeAt (leaves.foldl recordLeaf emptyCode) b = some c) :
    ∃ p, (b, p) ∈ leaves ∧ c = recordedCode p ∧ ∀ p', (b, p') ∈ leaves → p' = p ∨ R p p' := by
  rw [codeAt_foldl_recordLeaf, codeAt_emptyCode, Option.none_or, Option.map_eq_some_iff] at hc
  obtain ⟨⟨b', p⟩, hfind, rfl⟩ := hc
  obtain ⟨hb, before, after, rfl, hbefore⟩ := List.find?_eq_some_iff_append.1 hfind
  obtain rfl : b' = b := by simpa using hb
  obtain ⟨-, hrest, -⟩ := List.pairwise_append.1 hR
  refine ⟨p, by simp, rfl, fun p' hp' => ?_⟩
  rcases List.mem_append.1 hp' with hp' | hp'
  · simpa using hbefore _ hp'
  · rcases List.mem_cons.1 hp' with heq | hp'
    · exact .inl (Prod.mk.inj heq).2
    · exact .inr ((List.pairwise_cons.1 hrest).1 _ hp')

/-! ### CODE_DERIVE -/

/-- Where CODE_DERIVE goes on, CODE holds the derived table. -/
theorem deriveTable_of_exec_codeDerive {s t : State} (h : exec .codeDerive s = .next t) :
    deriveTable s.nodes s.root = some t.code := by
  rw [exec_eq_finish, ruleOf, ruleCodeDerive] at h
  split at h
  · rename_i tbl htbl
    cases h
    exact htbl
  · cases h

/-- Settles O25: the traversal lists exactly the leaf paths, in lexicographic order, and each byte takes the first one listed
for it. -/
theorem derivedCodesAreFirstPayloadPaths : Obligations.DerivedCodesAreFirstPayloadPaths := by
  intro s t b _ ht isLeafPath
  obtain ⟨leaves, hleaves, hcode⟩ := exists_leaves_of_deriveTable (deriveTable_of_exec_codeDerive ht)
  have hmem : ∀ p, (b, p) ∈ leaves ↔ isLeafPath p := by
    intro p
    simp only [hleaves.mem_iff_isLeafPath, isLeafPath, walk_eq_walkRoot, IsLeafPath]
  rw [hcode]
  refine ⟨fun c hc => ?_, fun hnone p hp => codeAt_recorded_eq_none_iff.1 hnone p ((hmem p).2 hp)⟩
  obtain ⟨p, hp, hrec, hfirst⟩ := exists_first_of_codeAt_recorded hleaves.pairwise_pathBefore hc
  exact ⟨p, (hmem p).1 hp, hrec, fun p' hp' => hfirst p' ((hmem p').2 hp')⟩

/-- A root with a payload is the only node listed (R212, R213). -/
theorem deriveTable_of_payload_at_root {nodes : List Node} {r : Nat} {v : Byte} (h : (nodeAt nodes r).payload = some v) :
    deriveTable nodes (some r) = some (codePut emptyCode v [false]) := by
  simp [deriveTable, leafCodes_of_payload h, recordLeaf, recordedCode]

theorem recordedCode_ne_nil (p : BitString) : recordedCode p ≠ [] := by
  rw [recordedCode]
  split
  · simp
  · assumption

/-- Settles O26: below a payload at ROOT nothing is listed, and no recorded code is empty. -/
theorem degenerateRootGetsTheOneBitCode : Obligations.DegenerateRootGetsTheOneBitCode := by
  refine ⟨fun s r v hroot hv => ?_, fun s t b ht hempty => ?_⟩
  · have hrule : ruleCodeDerive s = .completed { s with code := codePut emptyCode v [false] } := by
      rw [ruleCodeDerive, hroot, deriveTable_of_payload_at_root hv]
    refine ⟨_, by rw [exec_eq_finish, ruleOf, hrule, Effect.finish_completed], ?_, fun b hb => ?_⟩
    · rw [complete_code, codeAt_codePut, if_pos rfl]
    · rw [complete_code, codeAt_codePut, if_neg hb, codeAt_emptyCode]
  · obtain ⟨leaves, hleaves, hcode⟩ := exists_leaves_of_deriveTable (deriveTable_of_exec_codeDerive ht)
    rw [hcode] at hempty
    obtain ⟨p, -, hrec, -⟩ := exists_first_of_codeAt_recorded hleaves.pairwise_pathBefore hempty
    exact recordedCode_ne_nil p hrec.symm

end Sys2Proof.Machine
end

section
/-! SUPPORT. Direct access to the code table (44_code_table.md R216, R217). -/

namespace Sys2Proof.Machine

/-- A path read from registers that hold a code is that code (R216). -/
theorem pathOperand_of_pathWords {s : State} {c : BitString} (hpath : s.path = pathWords c) (hlen : s.pathLen.toNat = c.length) :
    pathOperand s = c := by
  refine List.ext_getElem (by rw [length_pathOperand, hlen]) fun i hi hi' => ?_
  have hlt := s.pathLen.isLt
  rw [length_pathOperand] at hi
  simp only [pathOperand, List.getElem_map, List.getElem_range]
  rw [pathBit_pathWords s c hpath i (by omega), List.getD_eq_getElem _ _ hi']

/-- RESULT where CODE_GET finds a code: FOUND, the byte, and no node (R216). -/
theorem word_of_code (b : Byte) :
    ({ found := true, leaf := false, payload := b, node := none } : Result).word =
      (0xFFFF0000 : Word) ||| (b.setWidth 32 <<< 8) ||| 1 := by
  apply BitVec.eq_of_toNat_eq
  rw [Result.toNat_word, BitVec.or_assoc, show (0xFFFF0000 : Word) = BitVec.ofNat 32 0xFFFF <<< 16 from rfl,
    toNat_fields_or _ _ _ (by decide)]
  have hnil : (nodeWord none).toNat = 0xFFFF := rfl
  have hone : (1 : Word).toNat = 1 := rfl
  simp only [hnil, hone, Bool.toNat_false, Bool.toNat_true]
  omega

/-- Settles O27: the path registers hold any code of at most 255 bits. -/
theorem codeGetShowsTheCode : Obligations.CodeGetShowsTheCode := by
  intro s b
  rw [exec_eq_finish]
  simp only [ruleOf, ruleCodeGet]
  cases hcode : codeAt s.code b with
  | none =>
    refine ⟨_, rfl, rfl, by simp, fun _ => ⟨rfl, fun k => ?_, readReg_result_of_notFound rfl⟩⟩
    simp [readReg]
  | some c =>
    refine ⟨_, rfl, rfl, fun c' hc' hlen => ?_, by simp⟩
    cases hc'
    have hpathLen : (BitVec.ofNat 8 c.length).toNat = c.length := by
      rw [BitVec.toNat_ofNat, Nat.mod_eq_of_lt]
      exact Nat.lt_succ_of_le hlen
    refine ⟨hpathLen, fun i hi => ?_, pathOperand_of_pathWords rfl hpathLen, word_of_code b⟩
    rw [pathBit_pathWords _ c rfl i hi]
    split
    · rfl
    · rename_i hge
      exact List.getD_eq_default _ _ (Nat.le_of_not_lt hge)

/-- ERR_INFO of an empty path as one word (R217, 60_exceptions.md R302). -/
theorem emptyPathInfo_eq (b : Byte) : emptyPathInfo b = 0x10000000 ||| b.setWidth 32 := by
  apply BitVec.eq_of_toNat_eq
  have hb : b.toNat < 2 ^ 32 := Nat.lt_trans b.isLt (by decide)
  rw [emptyPathInfo, BitVec.toNat_append, BitVec.toNat_or, BitVec.toNat_setWidth, Nat.mod_eq_of_lt hb]
  rfl

/-- Settles O28: by whether PATH_LEN is 0. -/
theorem codeSetStoresThePath : Obligations.CodeSetStoresThePath := by
  intro s b
  rw [exec_eq_finish, ruleOf, ruleCodeSet, ← emptyPathInfo_eq]
  refine ⟨fun hzero => by rw [if_pos hzero]; rfl, fun hpos => ?_⟩
  rw [if_neg hpos]
  refine ⟨_, rfl, rfl, ⟨pathOperand s, ?_, length_pathOperand s, fun i hi => ?_⟩, fun b' hne => ?_⟩
  · rw [complete_code, codeAt_codePut, if_pos rfl]
  · rw [List.getD_eq_getElem _ _ (by rwa [length_pathOperand])]
    simp [pathOperand]
  · rw [complete_code, codeAt_codePut, if_neg hne]

end Sys2Proof.Machine
end

section
/-! SUPPORT. The table text and its length (44_code_table.md R218 to R224), and TABLE_SERIALIZE. -/

namespace Sys2Proof.Machine

/-! ### The entries (R218 to R220) -/

theorem digitChar_eq {d : Nat} (h : d < 10) : digitChar d = BitVec.ofNat 8 (Nat.digitChar d).toNat := by
  rw [Nat.toNat_digitChar_of_lt_ten h, digitChar]

/-- The numeral of rule R220 is the library's. -/
theorem decimalText_eq_toDigits (b : Byte) :
    decimalText b = (Nat.toDigits 10 b.toNat).map (fun ch => BitVec.ofNat 8 ch.toNat) := by
  have hb := b.isLt
  have hbase : 1 < 10 := by decide
  simp only [decimalText]
  split
  · rename_i h1
    rw [Nat.toDigits_of_lt_base h1, digitChar_eq h1]
    rfl
  · split
    · rename_i h1 h2
      rw [Nat.toDigits_of_base_le hbase (by omega), Nat.toDigits_of_lt_base (by omega), digitChar_eq (by omega),
        digitChar_eq (by omega)]
      rfl
    · rename_i h1 h2
      rw [Nat.toDigits_of_base_le hbase (by omega), Nat.toDigits_of_base_le hbase (by omega),
        Nat.toDigits_of_lt_base (by omega), Nat.div_div_eq_div_mul, digitChar_eq (by omega), digitChar_eq (by omega),
        digitChar_eq (by omega)]
      rfl

/-- `digits(b)` of rule R224. -/
theorem length_decimalText (b : Byte) :
    (decimalText b).length = if b.toNat < 10 then 1 else if b.toNat < 100 then 2 else 3 := by
  simp only [decimalText]
  split
  · rfl
  · split <;> rfl

theorem length_entryText (e : Byte × BitString) : (entryText e).length = (decimalText e.1).length + 1 + e.2.length := by
  simp only [entryText, List.length_append, List.length_map, List.length_singleton]

theorem mem_codeEntries {t : CodeTable} {b : Byte} {c : BitString} : (b, c) ∈ codeEntries t ↔ codeAt t b = some c := by
  simp [codeEntries, mem_allSymbols]

/-- The entries' byte values are those with a code, ascending (R219). -/
theorem map_fst_codeEntries (t : CodeTable) :
    (codeEntries t).map Prod.fst = allSymbols.filter (fun b => codeAt t b ≠ none) := by
  rw [codeEntries, List.map_filterMap, ← List.filterMap_eq_filter]
  refine List.filterMap_congr fun b _ => ?_
  cases hc : codeAt t b <;> simp [Option.guard, hc]

theorem length_codeEntries (t : CodeTable) : (codeEntries t).length = allSymbols.countP (fun b => codeAt t b ≠ none) := by
  rw [← List.length_map Prod.fst, map_fst_codeEntries, List.countP_eq_length_filter]

/-! ### The text's length (R224) -/

theorem length_intercalate_singleton {α : Type} (sep : α) (ls : List (List α)) :
    (List.intercalate [sep] ls).length = (ls.length - 1) + (ls.map List.length).sum := by
  induction ls with
  | nil => rfl
  | cons l ls ih =>
    cases ls with
    | nil => simp
    | cons l' ls =>
      rw [List.intercalate_cons_cons, List.length_append, ih]
      simp only [List.length_append, List.length_cons, List.length_nil, List.map_cons, List.sum_cons]
      omega

theorem sum_map_filterMap {α β : Type} (f : α → Option β) (g : β → Nat) (l : List α) :
    ((l.filterMap f).map g).sum = (l.map (fun a => (f a).elim 0 g)).sum := by
  induction l with
  | nil => rfl
  | cons a l ih => cases h : f a <;> simp [h, ih]

/-- R224, over the entries. -/
theorem length_tableText (t : CodeTable) : (tableText t).length =
    ((codeEntries t).length - 1) + ((codeEntries t).map (fun e => (decimalText e.1).length + 1 + e.2.length)).sum := by
  rw [tableText, length_intercalate_singleton, List.length_map, List.map_map]
  simp only [Function.comp_def, length_entryText]

/-! ### TABLE_SERIALIZE -/

theorem ruleTableSerialize_of_fits {s : State} (h : (tableText s.code).length ≤ s.caps.tbufCap) :
    ruleTableSerialize s = .completed
      { writeBytes s tbufBase (tableText s.code) with tblLen := BitVec.ofNat 32 (tableText s.code).length } := by
  rw [ruleTableSerialize, if_neg (Nat.not_lt.2 h)]

theorem ruleTableSerialize_of_too_long {s : State} (h : s.caps.tbufCap < (tableText s.code).length) :
    ruleTableSerialize s = .raised .ioFailure tbufInfo s := by
  rw [ruleTableSerialize, if_pos h]

/-- The table text in the library's numerals and the characters as numbers. -/
theorem tableText_eq_intercalate (t : CodeTable) :
    tableText t = List.intercalate [0x2D] (allSymbols.filterMap (fun b => (codeAt t b).map (fun c =>
      (Nat.toDigits 10 b.toNat).map (fun ch => BitVec.ofNat 8 ch.toNat) ++ [0x3A] ++
        c.map (fun x => if x then 0x31 else 0x30)))) := by
  rw [tableText, codeEntries, List.map_filterMap]
  simp only [Option.map_map, Function.comp_def, entryText, decimalText_eq_toDigits]
  rfl

/-- Settles O29: the text fits TBUF or it does not, and a write of bytes changes no byte outside them. -/
theorem tableSerializeWritesTheText : Obligations.TableSerializeWritesTheText := by
  intro s text hcaps hwf htext
  rw [← tableText_eq_intercalate] at htext
  subst htext
  rw [exec_eq_finish, ruleOf]
  refine ⟨fun hfits => ?_, fun hlong => by rw [ruleTableSerialize_of_too_long hlong]; rfl, ?_⟩
  · obtain ⟨-, -, ⟨-, htbuf⟩, -⟩ := hcaps
    have hread : ∀ a, readByte (complete { writeBytes s tbufBase (tableText s.code) with
        tblLen := BitVec.ofNat 32 (tableText s.code).length }) a = readByte (writeBytes s tbufBase (tableText s.code)) a :=
      fun a => readByte_congr rfl rfl a
    rw [ruleTableSerialize_of_fits hfits]
    refine ⟨_, rfl, rfl, toNat_ofNat_of_le_cap hfits htbuf, fun i hi => ?_, fun a ha => ?_⟩
    · rw [hread, readByte_writeBytes _ _ _ _ hwf, tbufBase, if_pos (by omega), Nat.add_sub_cancel_left,
        List.getD_eq_getElem _ _ hi, List.getElem?_eq_getElem hi, Option.getD_some]
    · rw [hread]
      exact readByte_writeBytes_outside _ _ _ _ hwf ha
  · rw [length_tableText, length_codeEntries, codeEntries, sum_map_filterMap]
    refine congrArg _ (congrArg List.sum (List.map_congr_left fun b _ => ?_))
    cases codeAt s.code b with
    | none => rfl
    | some c => exact congrArg (· + 1 + c.length) (length_decimalText b)

end Sys2Proof.Machine
end

section
/-! SUPPORT. The codes of a built tree (43_tree_builder.md R197) and the length of their table text (44_code_table.md R226). -/

namespace Sys2Proof.Machine

/-! ### The sum of the leaves' depths -/

/-- The bits of all paths listed. -/
def totalDepth (leaves : List (Byte × BitString)) : Nat :=
  (leaves.map (fun e => e.2.length)).sum

theorem totalDepth_append (l r : List (Byte × BitString)) : totalDepth (l ++ r) = totalDepth l + totalDepth r := by
  simp [totalDepth]

/-- Below a node at depth `d`, where every inner node has two children, `k` leaves have depths of `k d + (k - 1)(k + 2) / 2` in sum
at most (R226). -/
theorem LeavesBelow.totalDepth_le {nodes : List Node}
    (hfull : ∀ n, n < nodes.length → (nodeAt nodes n).payload = none →
      ∀ bit, ∃ c, child nodes n bit = some c ∧ c < nodes.length)
    {root : Option Nat} {p : BitString} {leaves : List (Byte × BitString)} (h : LeavesBelow nodes root p leaves) :
    ∀ n, root = some n → n < nodes.length → 1 ≤ leaves.length ∧
      2 * totalDepth leaves + 2 ≤ leaves.length * (leaves.length + 1) + 2 * (p.length * leaves.length) := by
  induction h with
  | nil p => simp
  | payload p hb =>
    intro n _ _
    simp [totalDepth, Nat.add_comm]
  | @inner n p l r hn hl hr ihl ihr =>
    intro n' heq hlt
    cases heq
    obtain ⟨x, hx, hxlt⟩ := hfull n hlt hn false
    obtain ⟨y, hy, hylt⟩ := hfull n hlt hn true
    obtain ⟨hl1, hl2⟩ := ihl x hx hxlt
    obtain ⟨hr1, hr2⟩ := ihr y hy hylt
    simp only [List.length_append, List.length_singleton, totalDepth_append] at hl2 hr2 ⊢
    refine ⟨by omega, ?_⟩
    have hprod : l.length + r.length ≤ l.length * r.length + 1 :=
      Nat.sub_le_iff_le_add.1 (Nat.add_sub_one_le_mul (Nat.ne_of_gt hl1) (Nat.ne_of_gt hr1))
    nlinarith only [hl2, hr2, hprod]

/-- A node listed at the path where the traversal starts is the only one. -/
theorem LeavesBelow.eq_singleton {nodes : List Node} {root : Option Nat} {p : BitString} {leaves : List (Byte × BitString)}
    (h : LeavesBelow nodes root p leaves) {b : Byte} (hb : (b, p) ∈ leaves) : leaves = [(b, p)] := by
  cases h with
  | nil => simp at hb
  | payload _ hb' => rw [List.mem_singleton.1 hb]
  | inner hn hl hr =>
    rcases List.mem_append.1 hb with hb | hb
    · obtain ⟨q, hq, -⟩ := (hl.mem_iff b p).1 hb
      simp at hq
    · obtain ⟨q, hq, -⟩ := (hr.mem_iff b p).1 hb
      simp at hq

/-- The codes recorded have as many bits as the paths, except that a degenerate root's has one (R213). -/
theorem LeavesBelow.sum_recordedCode_le {nodes : List Node} {root : Option Nat} {leaves : List (Byte × BitString)}
    (h : LeavesBelow nodes root [] leaves) :
    (leaves.map (fun e => (recordedCode e.2).length)).sum ≤ max 1 (totalDepth leaves) := by
  by_cases hdeg : ∃ b, (b, []) ∈ leaves
  · obtain ⟨b, hb⟩ := hdeg
    rw [h.eq_singleton hb]
    simp [recordedCode]
  · refine Nat.le_trans (Nat.le_of_eq (congrArg List.sum (List.map_congr_left fun e he => ?_))) (Nat.le_max_right _ _)
    have hne : e.2 ≠ [] := fun hnil => hdeg ⟨e.1, hnil ▸ he⟩
    rw [recordedCode, if_neg hne]

/-! ### Entries and leaves -/

theorem PathBefore.ne {p q : BitString} (h : PathBefore p q) : p ≠ q :=
  List.Lex.to_ne (List.Lex.imp (fun x y ⟨hx, hy⟩ => by rw [hx, hy]; decide) p q h)

/-- Where each byte is listed once, the table's entries are the nodes listed. -/
theorem codeEntries_recorded_perm {leaves : List (Byte × BitString)} (hpre : leaves.Pairwise (fun e e' => PathBefore e.2 e'.2))
    (honce : (leaves.map Prod.fst).Nodup) :
    (codeEntries (leaves.foldl recordLeaf emptyCode)).Perm (leaves.map (fun e => (e.1, recordedCode e.2))) := by
  have hentries : (codeEntries (leaves.foldl recordLeaf emptyCode)).Nodup := by
    refine List.Nodup.of_map Prod.fst ?_
    rw [map_fst_codeEntries]
    exact allSymbols_nodup.filter _
  have hleaves : (leaves.map (fun e => (e.1, recordedCode e.2))).Nodup := by
    refine List.Nodup.of_map Prod.fst ?_
    rwa [List.map_map]
  refine (List.perm_ext_iff_of_nodup hentries hleaves).2 fun ⟨b, c⟩ => ?_
  rw [mem_codeEntries, List.mem_map]
  constructor
  · intro hc
    obtain ⟨p, hp, hrec, -⟩ := exists_first_of_codeAt_recorded hpre hc
    exact ⟨(b, p), hp, by rw [hrec]⟩
  · rintro ⟨⟨b', p⟩, hp, heq⟩
    obtain ⟨rfl, rfl⟩ := Prod.mk.inj heq
    obtain ⟨c, hc⟩ := Option.ne_none_iff_exists'.1 (mt codeAt_recorded_eq_none_iff.1 fun hnone => hnone p hp)
    obtain ⟨p', hp', hrec, -⟩ := exists_first_of_codeAt_recorded hpre hc
    rw [hc, hrec, (Prod.mk.inj (List.inj_on_of_nodup_map honce hp' hp rfl)).2]

/-- All byte values together have 658 digits (R226). -/
theorem sum_length_decimalText : (allSymbols.map (fun b => (decimalText b).length)).sum = 658 := by
  decide +kernel

/-- Beside its code bits a table's text has at most 256 colons, 255 separators and 658 digits (R226). -/
theorem length_tableText_le (t : CodeTable) :
    (tableText t).length ≤ 1169 + ((codeEntries t).map (fun e => e.2.length)).sum := by
  have hfew : (codeEntries t).length ≤ 256 := by
    rw [length_codeEntries]
    exact Nat.le_trans List.countP_le_length (by simp [allSymbols])
  have hdigits : ((codeEntries t).map (fun e => (decimalText e.1).length)).sum ≤ 658 := by
    have hsub := (List.filter_sublist (p := fun b => codeAt t b ≠ none) (l := allSymbols)).map
      (fun b => (decimalText b).length)
    rw [← map_fst_codeEntries, List.map_map] at hsub
    exact sum_length_decimalText ▸ hsub.sum_le_sum (fun _ _ => Nat.zero_le _)
  have hcolons : ((codeEntries t).map (fun _ => 1)).sum = (codeEntries t).length := by simp
  rw [length_tableText, List.sum_map_add, List.sum_map_add, hcolons]
  omega

/-! ### The built tree -/

theorem payload_buildTree_iff {h : Histogram} {i : Nat} (hi : i < (buildTree h).1.length) {b : Byte} :
    (nodeAt (buildTree h).1 i).payload = some b ↔ (symbolsOf h)[i]? = some b := by
  have hm := merging_buildTree h
  constructor
  · intro hb
    rcases hm.leaf_or_merge hi with ⟨hlt, -⟩ | ⟨-, x, y, hxy⟩
    · rw [length_seedLeaves] at hlt
      have hsym := List.getElem?_eq_getElem hlt
      rw [nodeAt_of_leavesFirst hm.leavesFirst hsym] at hb
      exact hsym.trans hb
    · simp [hxy.payload] at hb
  · intro hb
    rw [nodeAt_of_leavesFirst hm.leavesFirst hb]
    rfl

theorem child_buildTree_of_payload {h : Histogram} {i : Nat} (hi : i < (buildTree h).1.length) {b : Byte}
    (hb : (nodeAt (buildTree h).1 i).payload = some b) (bit : Bool) : child (buildTree h).1 i bit = none :=
  child_symbolLeaf (nodeAt_of_leavesFirst (merging_buildTree h).leavesFirst ((payload_buildTree_iff hi).1 hb)) bit

/-- Every inner node of a built tree has two children (43_tree_builder.md R197). -/
theorem exists_child_buildTree {h : Histogram} {i : Nat} (hi : i < (buildTree h).1.length)
    (hb : (nodeAt (buildTree h).1 i).payload = none) (bit : Bool) :
    ∃ c, child (buildTree h).1 i bit = some c ∧ c < (buildTree h).1.length := by
  have hchild : ∃ c, child (buildTree h).1 i bit = some c := by
    rcases (merging_buildTree h).leaf_or_merge hi with ⟨-, b, -, hleaf⟩ | ⟨-, x, y, hxy⟩
    · simp [hleaf, symbolLeaf] at hb
    · cases bit with
      | false => exact ⟨x, hxy.left⟩
      | true => exact ⟨y, hxy.right⟩
  obtain ⟨c, hc⟩ := hchild
  exact ⟨c, hc, (treeOk_buildTree h).childExists i hi bit c hc⟩

/-- A built tree has a leaf path for exactly the counted symbols (R212). -/
theorem exists_isLeafPath_buildTree_iff {h : Histogram} {b : Byte} :
    (∃ p, IsLeafPath (buildTree h).1 (buildTree h).2 b p) ↔ histAt h b ≠ 0 := by
  have htree := treeOk_buildTree h
  constructor
  · rintro ⟨p, ⟨n, hn, hb⟩, -⟩
    exact mem_symbolsOf.1 (List.mem_of_getElem? ((payload_buildTree_iff (htree.walk_lt hn)).1 hb))
  · intro hb
    obtain ⟨i, hi⟩ := List.mem_iff_getElem?.1 (mem_symbolsOf.2 hb)
    have hlt : i < (buildTree h).1.length := by
      refine Nat.lt_of_lt_of_le ?_ (merging_buildTree h).leavesFirst.length_le
      rw [length_seedLeaves]
      exact (List.getElem?_eq_some_iff.1 hi).1
    obtain ⟨p, hp, -⟩ := htree.onOnePath i hlt
    refine ⟨p, ⟨i, hp, (payload_buildTree_iff hlt).2 hi⟩, fun q n hq hne hn => ?_⟩
    by_contra hpay
    obtain ⟨b', hb'⟩ := Option.ne_none_iff_exists'.1 hpay
    exact hne (eq_of_prefix_of_childless hn hp (child_buildTree_of_payload (htree.walk_lt hn) hb') hq)

section
variable {h : Histogram} {leaves : List (Byte × BitString)} (hleaves : LeavesBelow (buildTree h).1 (buildTree h).2 [] leaves)
include hleaves

/-- A built tree carries each symbol once. -/
theorem nodup_symbols_of_buildTree : (leaves.map Prod.fst).Nodup := by
  have htree := treeOk_buildTree h
  refine List.pairwise_map.2 (hleaves.pairwise_pathBefore.imp_of_mem fun {e e'} he he' hbefore heq => hbefore.ne ?_)
  obtain ⟨⟨n, hn, hb⟩, -⟩ := (hleaves.mem_iff_isLeafPath e.1 e.2).1 he
  obtain ⟨⟨n', hn', hb'⟩, -⟩ := (hleaves.mem_iff_isLeafPath e'.1 e'.2).1 he'
  rw [payload_buildTree_iff (htree.walk_lt hn)] at hb
  rw [payload_buildTree_iff (htree.walk_lt hn'), ← heq, ← hb] at hb'
  obtain rfl := (List.getElem?_inj (List.getElem?_eq_some_iff.1 hb).1 (allSymbols_nodup.filter _)).1 hb'.symm
  exact htree.path_unique hn hn'

/-- The sum of leaf depths of a full binary tree with at most 256 leaves (R226). -/
theorem totalDepth_le_of_buildTree : totalDepth leaves ≤ 32895 := by
  have hfew : leaves.length ≤ 256 := by
    have := (List.subperm_of_subset (nodup_symbols_of_buildTree hleaves) (fun b _ => mem_allSymbols b)).length_le
    simpa [allSymbols] using this
  cases hroot : (buildTree h).2 with
  | none =>
    rw [hroot] at hleaves
    cases hleaves
    simp [totalDepth]
  | some r =>
    have hr := (treeOk_buildTree h).rootExists r hroot
    obtain ⟨-, hdepth⟩ := hleaves.totalDepth_le (fun n => exists_child_buildTree) r hroot hr
    have hsq := Nat.mul_le_mul hfew (Nat.add_le_add_right hfew 1)
    simp only [List.length_nil, Nat.zero_mul, Nat.mul_zero] at hdepth
    omega

theorem sum_codeEntries_of_buildTree :
    ((codeEntries (leaves.foldl recordLeaf emptyCode)).map (fun e => e.2.length)).sum ≤ 32895 := by
  have hperm := codeEntries_recorded_perm hleaves.pairwise_pathBefore (nodup_symbols_of_buildTree hleaves)
  have hdepth := totalDepth_le_of_buildTree hleaves
  have hcodes := hleaves.sum_recordedCode_le
  rw [(hperm.map _).sum_eq, List.map_map]
  simp only [Function.comp_def]
  omega

end

/-- Settles O33: the leaves listed of a built tree are the counted symbols', each once, and a full binary tree with at most 256 leaves
has at most 32895 bits of path. -/
theorem builtTreesHaveCodesAndTheirTextFits : Obligations.BuiltTreesHaveCodesAndTheirTextFits := by
  intro h
  obtain ⟨tbl, htbl, hok⟩ := deriveTable_of_treeOk (treeOk_buildTree h)
  obtain ⟨leaves, hleaves, rfl⟩ := exists_leaves_of_deriveTable htbl
  refine ⟨_, htbl, hok, fun b => ?_, ?_⟩
  · rw [ne_eq, codeAt_recorded_eq_none_iff, ← exists_isLeafPath_buildTree_iff]
    simp only [hleaves.mem_iff_isLeafPath, not_forall, not_not]
  · have htext := length_tableText_le (leaves.foldl recordLeaf emptyCode)
    have hbits := sum_codeEntries_of_buildTree hleaves
    omega

end Sys2Proof.Machine
end

section
/-! SUPPORT. The padded stream (45_bit_packer.md R244) and where its data bits end (47_bit_unpacker.md R282). -/

namespace Sys2Proof.Machine

theorem streamBits_append (xs ys : List Byte) : streamBits (xs ++ ys) = streamBits xs ++ streamBits ys :=
  List.flatMap_append

/-- Bit `j` of a byte is bit `7 - j` of the stream it makes (20_memory.md R61). -/
theorem getElem?_byteBits (b : Byte) {j : Nat} (hj : j < 8) : (byteBits b)[7 - j]? = some (b.getLsbD j) := by
  interval_cases j <;> rfl

theorem lowestSetBit_eq_some_iff {b : Byte} {p : Nat} :
    lowestSetBit b = some p ↔ p < 8 ∧ b.getLsbD p = true ∧ ∀ j, j < p → b.getLsbD j = false := by
  rw [lowestSetBit, List.find?_range_eq_some]
  simp only [List.mem_range, Bool.not_eq_true']
  tauto

theorem take_length_paddedBits (bits : BitString) : (paddedBits bits).take bits.length = bits :=
  List.take_left

/-- From bit L on the padded stream is the marker and 0 bits. -/
theorem getElem?_paddedBits (bits : BitString) {k : Nat} (h1 : bits.length ≤ k) (h2 : k < 8 * (bits.length / 8 + 1)) :
    (paddedBits bits)[k]? = some (decide (k = bits.length)) := by
  rw [paddedBits, List.getElem?_append_right h1]
  obtain ⟨d, rfl⟩ := Nat.exists_eq_add_of_le h1
  rw [Nat.add_sub_cancel_left]
  cases d with
  | zero => simp
  | succ d =>
    rw [List.getElem?_cons_succ, List.getElem?_replicate_of_lt (by rw [padLength]; omega)]
    simp

/-- The low bits of the last byte are the padding: the marker is the highest of them, the others are 0. -/
theorem exists_last_packBits_paddedBits (bits : BitString) : ∃ last, (packBits (paddedBits bits)).getLast? = some last ∧
    ∀ j, j < padLength bits.length → last.getLsbD j = decide (j = padLength bits.length - 1) := by
  have hlen := length_packBits_paddedBits bits
  obtain ⟨init, last, hbytes⟩ := (packBits (paddedBits bits)).eq_nil_or_concat'.resolve_left
    (List.ne_nil_of_length_eq_add_one hlen)
  rw [hbytes, List.length_append, List.length_singleton, Nat.add_left_inj] at hlen
  refine ⟨last, by rw [hbytes, List.getLast?_concat], fun j hj => ?_⟩
  rw [padLength] at hj ⊢
  have hpos : 8 * init.length + (7 - j) = 8 * (bits.length / 8) + (7 - j) := by rw [hlen]
  have hstream : (byteBits last)[7 - j]? = (paddedBits bits)[8 * (bits.length / 8) + (7 - j)]? := by
    rw [← streamBits_packBits_paddedBits, hbytes, streamBits_append, ← hpos, ← streamBits_length init,
      List.getElem?_append_right (Nat.le_add_right _ _), Nat.add_sub_cancel_left, streamBits, List.flatMap_singleton]
  rw [getElem?_byteBits last (by omega), getElem?_paddedBits bits (by omega) (by omega), Option.some_inj] at hstream
  rw [hstream, decide_eq_decide]
  omega

/-- The padding marker is the lowest set bit of the last byte (R244), which says where the data bits end (R282). -/
theorem exists_marker_packBits_paddedBits (bits : BitString) : ∃ last, (packBits (paddedBits bits)).getLast? = some last ∧
    lowestSetBit last = some (padLength bits.length - 1) := by
  obtain ⟨last, hlast, hlow⟩ := exists_last_packBits_paddedBits bits
  have hpad : 1 ≤ padLength bits.length ∧ padLength bits.length ≤ 8 := by rw [padLength]; omega
  refine ⟨last, hlast, lowestSetBit_eq_some_iff.2 ⟨by omega, ?_, fun j hj => ?_⟩⟩
  · simpa using hlow (padLength bits.length - 1) (by omega)
  · rw [hlow j (by omega), decide_eq_false hj.ne]

/-- The boundary formula of R282 counts the data bits. -/
theorem dataBits_of_marker (bits : BitString) :
    8 * (packBits (paddedBits bits)).length - (padLength bits.length - 1 + 1) = bits.length := by
  rw [length_packBits_paddedBits, padLength]
  omega

/-- Settles O31: the stream's last byte is read off the padded bits, whose length is a whole number of bytes. -/
theorem paddingMarkerIsDecodable : Obligations.PaddingMarkerIsDecodable := by
  intro bits
  obtain ⟨last, hlast, hmarker⟩ := exists_marker_packBits_paddedBits bits
  obtain ⟨hlt, hset, hclear⟩ := lowestSetBit_eq_some_iff.1 hmarker
  have hpad : 1 ≤ padLength bits.length ∧ padLength bits.length ≤ 8 := by rw [padLength]; omega
  obtain ⟨hpos, hle⟩ := hpad
  refine ⟨_, last, padLength bits.length, rfl, rfl, hpos, hle, length_packBits_paddedBits bits, ?_, hlast, ?_, hmarker, hset,
    hclear, ?_⟩
  · rw [streamBits_packBits_paddedBits, paddedBits, List.append_assoc, List.singleton_append]
  · rintro rfl
    simp at hset
  · rw [dataBits_of_marker, streamBits_packBits_paddedBits, take_length_paddedBits]

end Sys2Proof.Machine
end

section
/-! SUPPORT. How PACK ends (45_bit_packer.md R240 to R248): one lemma per way, and the statements about it. -/

namespace Sys2Proof.Machine

/-! ### The check of R242 -/

theorem firstMissing_eq_none_iff {t : CodeTable} {bytes : List Byte} {k : Nat} :
    firstMissing t k bytes = none ↔ ∀ b ∈ bytes, codeAt t b ≠ none := by
  induction bytes generalizing k with
  | nil => simp [firstMissing]
  | cons b bytes ih =>
    rw [firstMissing]
    cases hb : codeAt t b <;> simp [hb, ih]

/-- The check stops at the first offset whose byte has no code. -/
theorem firstMissing_of_first {t : CodeTable} {bytes : List Byte} {b : Byte} (hnone : codeAt t b = none) :
    ∀ {i : Nat} (k : Nat), bytes[i]? = some b → (∀ j b', j < i → bytes[j]? = some b' → codeAt t b' ≠ none) →
      firstMissing t k bytes = some (k + i, b) := by
  induction bytes with
  | nil => simp
  | cons b₀ bytes ih =>
    intro i k hb hbefore
    cases i with
    | zero =>
      obtain rfl : b₀ = b := by simpa using hb
      simp only [firstMissing, hnone, Nat.add_zero]
    | succ i =>
      obtain ⟨c, hc⟩ := Option.ne_none_iff_exists'.1 (hbefore 0 b₀ i.succ_pos rfl)
      rw [firstMissing, hc]
      have hrest := ih (k + 1) hb fun j b' hj hb' => hbefore (j + 1) b' (by omega) hb'
      rwa [Nat.add_assoc, Nat.add_comm 1] at hrest

theorem getElem?_inputBytes {s : State} {i : Nat} (hi : i < s.inLen.toNat) :
    (inputBytes s)[i]? = some (readByte s (ibufBase + i)) := by
  simp [inputBytes, readBytes, hi]

theorem toNat_missingSymbolInfo {i : Nat} (h : i < 2 ^ 24) (b : Byte) :
    (missingSymbolInfo i b).toNat = i * 256 + b.toNat := by
  rw [missingSymbolInfo, BitVec.toNat_append, ← Nat.shiftLeft_add_eq_or_of_lt b.isLt, Nat.shiftLeft_eq, BitVec.toNat_ofNat,
    Nat.mod_eq_of_lt h]

/-! ### The rule -/

/-- The bytes that PACK makes of an input with the codes of a table (R243, R244). -/
def packedBytes (t : CodeTable) (x : List Byte) : List Byte :=
  packBits (paddedBits (codedBits t x))

theorem length_packedBytes (t : CodeTable) (x : List Byte) : (packedBytes t x).length = (codedBits t x).length / 8 + 1 :=
  length_packBits_paddedBits _

theorem streamBits_packedBytes (t : CodeTable) (x : List Byte) : streamBits (packedBytes t x) = paddedBits (codedBits t x) :=
  streamBits_packBits_paddedBits _

/-- The state in which PACK completes (R247, R248). -/
def State.packed (s : State) : State :=
  { writeBytes s obufBase (packedBytes s.code (inputBytes s)) with
    outLen := BitVec.ofNat 32 (packedBytes s.code (inputBytes s)).length
    dataBits := BitVec.ofNat 32 (codedBits s.code (inputBytes s)).length
    initSize := s.inLen
    compSize := BitVec.ofNat 32 (packedBytes s.code (inputBytes s)).length }

section
variable {s : State}

theorem rulePack_of_input_too_long (h : s.caps.ibufCap < s.inLen.toNat) : rulePack s = .raised .ioFailure ibufInfo s :=
  if_pos h

theorem rulePack_of_missing (h : s.inLen.toNat ≤ s.caps.ibufCap) {i : Nat} {b : Byte}
    (hb : firstMissing s.code 0 (inputBytes s) = some (i, b)) :
    rulePack s = .raised .missingSymbolCode (missingSymbolInfo i b) s := by
  rw [rulePack, if_neg (Nat.not_lt.2 h), hb]

/-- With every byte coded PACK turns on the length of the packed bytes alone. -/
theorem rulePack_of_coded (h : s.inLen.toNat ≤ s.caps.ibufCap) (hcoded : ∀ b ∈ inputBytes s, codeAt s.code b ≠ none) :
    rulePack s = if s.caps.obufCap < (packedBytes s.code (inputBytes s)).length then .raised .ioFailure obufInfo s
      else .completed s.packed := by
  have hm : ∀ l : Nat, (l + padLength l) / 8 = l / 8 + 1 := fun l => by rw [padLength]; omega
  rw [rulePack, if_neg (Nat.not_lt.2 h), firstMissing_eq_none_iff.2 hcoded, State.packed]
  simp only [hm, length_packedBytes]
  rfl

/-- PACK completes exactly where the input fits IBUF, every byte has a code and the packed bytes fit OBUF. -/
theorem rulePack_eq_completed_iff {u : State} :
    rulePack s = .completed u ↔ s.inLen.toNat ≤ s.caps.ibufCap ∧ (∀ b ∈ inputBytes s, codeAt s.code b ≠ none) ∧
      (packedBytes s.code (inputBytes s)).length ≤ s.caps.obufCap ∧ u = s.packed := by
  by_cases hin : s.inLen.toNat ≤ s.caps.ibufCap
  · cases hmiss : firstMissing s.code 0 (inputBytes s) with
    | some m => simp [rulePack_of_missing hin hmiss, ← firstMissing_eq_none_iff (k := 0), hmiss]
    | none =>
      rw [firstMissing_eq_none_iff] at hmiss
      rw [rulePack_of_coded hin hmiss]
      split
      · simp [Nat.not_le.2 ‹_›]
      · simpa [hin, Nat.not_lt.1 ‹_›, @eq_comm _ u] using fun _ => hmiss
  · simp [rulePack_of_input_too_long (Nat.not_le.1 hin), hin]

end

/-! ### The state in which PACK completes -/

section
variable {s : State} (hcaps : s.caps.Legal) (hfits : (packedBytes s.code (inputBytes s)).length ≤ s.caps.obufCap)
include hcaps hfits

theorem toNat_outLen_packed : s.packed.outLen.toNat = (packedBytes s.code (inputBytes s)).length := by
  obtain ⟨-, ⟨-, hobuf⟩, -, -⟩ := hcaps
  exact toNat_ofNat_of_le_cap hfits hobuf

theorem toNat_dataBits_packed : s.packed.dataBits.toNat = (codedBits s.code (inputBytes s)).length := by
  obtain ⟨-, ⟨-, hobuf⟩, -, -⟩ := hcaps
  rw [length_packedBytes] at hfits
  exact (BitVec.toNat_ofNat _ _).trans (Nat.mod_eq_of_lt (by omega))

end

theorem readBytes_packed {s : State} (hwf : Memory.wf s.mem) :
    readBytes s.packed obufBase (packedBytes s.code (inputBytes s)).length = packedBytes s.code (inputBytes s) :=
  readBytes_writeBytes s obufBase _ hwf

theorem readByte_packed_outside {s : State} (hwf : Memory.wf s.mem) {a : Nat}
    (ha : a < obufBase ∨ obufBase + (packedBytes s.code (inputBytes s)).length ≤ a) : readByte s.packed a = readByte s a :=
  readByte_writeBytes_outside s obufBase _ a hwf ha

/-! ### The statements -/

/-- Settles O30: by whether the input fits IBUF and the packed bytes OBUF. -/
theorem packWritesTheStream : Obligations.PackWritesTheStream := by
  intro s bits hcaps hwf hbits
  have hlen : (packedBytes s.code (inputBytes s)).length = bits.length / 8 + 1 := hbits ▸ length_packedBytes _ _
  rw [exec_eq_finish, ruleOf, ← hlen]
  refine ⟨fun hlong => by rw [rulePack_of_input_too_long hlong]; rfl, fun hin hcoded => ⟨fun hlong => ?_, fun hfits => ?_⟩⟩
  · rw [rulePack_of_coded hin hcoded, if_pos hlong]
    rfl
  · rw [rulePack_eq_completed_iff.2 ⟨hin, hcoded, hfits, rfl⟩]
    refine ⟨complete s.packed, rfl, rfl, hbits ▸ toNat_dataBits_packed hcaps hfits, toNat_outLen_packed hcaps hfits, rfl, rfl,
      ?_, fun a => readByte_packed_outside hwf⟩
    have hpad : 7 - bits.length % 8 = padLength bits.length - 1 := by rw [padLength]; omega
    calc streamBits (readBytes s.packed obufBase (packedBytes s.code (inputBytes s)).length)
        = paddedBits bits := by rw [readBytes_packed hwf, streamBits_packedBytes, hbits]; rfl
      _ = bits ++ [true] ++ List.replicate (7 - bits.length % 8) false := by rw [paddedBits, hpad, List.append_cons]

/-- Settles O32: the check stops at the first byte without a code, whose offset fits 24 bits. -/
theorem missingSymbolIsTheFirstOne : Obligations.MissingSymbolIsTheFirstOne := by
  intro s i b hcaps hin hi hb hnone hbefore
  obtain ⟨⟨-, hibuf⟩, -⟩ := hcaps
  have hfirst : firstMissing s.code 0 (inputBytes s) = some (0 + i, b) := by
    refine firstMissing_of_first hnone 0 (hb ▸ getElem?_inputBytes hi) fun j b' hj hb' => ?_
    rw [getElem?_inputBytes (hj.trans hi), Option.some_inj] at hb'
    exact hb' ▸ hbefore j hj
  rw [Nat.zero_add] at hfirst
  refine ⟨missingSymbolInfo i b, toNat_missingSymbolInfo (by omega) b, ?_⟩
  rw [exec_eq_finish, ruleOf, rulePack_of_missing hin hfirst]
  rfl

end Sys2Proof.Machine
end

section
/-! SUPPORT. ENCODE's five sub-commands in order (45_bit_packer.md R249) and the three ways in which one of them ends it
(40_command_protocol.md R127). -/

namespace Sys2Proof.Machine

/-! ### The codes of the input's own tree -/

theorem histAt_countBytes_ne_zero_iff {x : List Byte} (h : x.length < 2 ^ 64) {b : Byte} :
    histAt (countBytes x) b ≠ 0 ↔ b ∈ x := by
  rw [ne_eq, ← BitVec.toNat_inj, toNat_histAt_countBytes h]
  simp [List.count_eq_zero]

/-- SYM_COUNT of the tree built of an input (43_tree_builder.md R190). -/
theorem toNat_symCount_countBytes {x : List Byte} (h : x.length < 2 ^ 64) :
    (BitVec.ofNat 9 (seedLeaves (countBytes x)).length).toNat = allSymbols.countP (fun b => b ∈ x) := by
  have hfew := length_seedLeaves_le (countBytes x)
  rw [BitVec.toNat_ofNat, Nat.mod_eq_of_lt (by omega), length_seedLeaves_eq_countP]
  exact List.countP_congr fun b _ => by simpa using histAt_countBytes_ne_zero_iff h

/-- Every byte of an input has a code of the tree built of it (44_code_table.md R226). -/
theorem codeAt_ne_none_of_mem {x : List Byte} (h : x.length < 2 ^ 64) {tbl : CodeTable}
    (htbl : deriveTable (buildTree (countBytes x)).1 (buildTree (countBytes x)).2 = some tbl) :
    ∀ b ∈ x, codeAt tbl b ≠ none := by
  obtain ⟨tbl', htbl', -, hcoded, -⟩ := builtTreesHaveCodesAndTheirTextFits (countBytes x)
  obtain rfl : tbl' = tbl := Option.some_inj.1 (htbl'.symm.trans htbl)
  exact fun b hb => (hcoded b).2 ((histAt_countBytes_ne_zero_iff h).2 hb)

/-! ### The states between the sub-commands -/

/-- The state after HIST_COUNT, TREE_BUILD and CODE_DERIVE, with the histogram, the tree and the codes they make. -/
def State.derived (s : State) (h : Histogram) (tree : List Node × Option Nat) (tbl : CodeTable) : State :=
  { s with
    hist := h, nodes := tree.1, root := tree.2, cursor := tree.2, symCount := BitVec.ofNat 9 (seedLeaves h).length
    code := tbl }

/-- The state after TABLE_SERIALIZE (44_code_table.md R218). -/
def State.serialized (s : State) : State :=
  { writeBytes s tbufBase (tableText s.code) with tblLen := BitVec.ofNat 32 (tableText s.code).length }

theorem serialized_wf {s : State} (hwf : Memory.wf s.mem) : Memory.wf s.serialized.mem :=
  Memory.putBytes_wf _ _ hwf

section
variable {s : State} (hwf : Memory.wf s.mem)
include hwf

theorem readBytes_serialized : readBytes s.serialized tbufBase (tableText s.code).length = tableText s.code :=
  readBytes_writeBytes s tbufBase _ hwf

theorem readByte_serialized_outside {a : Nat} (ha : a < tbufBase ∨ tbufBase + (tableText s.code).length ≤ a) :
    readByte s.serialized a = readByte s a :=
  readByte_writeBytes_outside s tbufBase _ a hwf ha

/-- TABLE_SERIALIZE stores above IBUF, so PACK reads the same input (20_memory.md R63). -/
theorem inputBytes_serialized (hcaps : s.caps.Legal) (h : s.inLen.toNat ≤ s.caps.ibufCap) :
    inputBytes s.serialized = inputBytes s := by
  obtain ⟨⟨-, hibuf⟩, -⟩ := hcaps
  refine List.map_congr_left fun i hi => readByte_serialized_outside hwf (.inl ?_)
  have hi : i < s.inLen.toNat := List.mem_range.1 hi
  rw [ibufBase, tbufBase]
  omega

/-- PACK stores below TBUF, so the table text stays (20_memory.md R63). -/
theorem readBytes_tbuf_packed (hcaps : s.caps.Legal) (h : (packedBytes s.code (inputBytes s)).length ≤ s.caps.obufCap)
    (n : Nat) : readBytes s.packed tbufBase n = readBytes s tbufBase n := by
  obtain ⟨-, ⟨-, hobuf⟩, -⟩ := hcaps
  refine List.map_congr_left fun i _ => readByte_packed_outside hwf (.inr ?_)
  rw [obufBase, tbufBase]
  omega

end

theorem complete_packed_frame (s : State) : complete s.packed = { s with
    mem := s.packed.mem, outLen := s.packed.outLen, dataBits := s.packed.dataBits, initSize := s.inLen
    compSize := s.packed.outLen, done := true, phase := .idle } :=
  rfl

/-! ### The rule -/

theorem ruleEncode_of_input_too_long {s : State} (h : s.caps.ibufCap < s.inLen.toNat) :
    ruleEncode s = .raised .ioFailure ibufInfo s := by
  rw [ruleEncode, ruleHistCount_of_lt h]
  rfl

section
variable {s : State} {h : Histogram} {tree : List Node × Option Nat} {tbl : CodeTable}
  (hin : s.inLen.toNat ≤ s.caps.ibufCap) (hhist : h = countBytes (inputBytes s)) (htree : tree = buildTree h)
  (htbl : deriveTable tree.1 tree.2 = some tbl)

include hin hhist htree htbl in
theorem ruleEncode_of_derived : ruleEncode s = (ruleTableSerialize (s.derived h tree tbl)).andThen rulePack := by
  rw [ruleEncode, ruleHistCount_of_le hin, ← hhist, Effect.andThen_completed, ruleTreeBuild, Effect.andThen_completed,
    ← htree, ruleCodeDerive, htbl]
  rfl

include hin hhist htree htbl in
theorem ruleEncode_of_text_too_long (htext : s.caps.tbufCap < (tableText tbl).length) :
    ruleEncode s = .raised .ioFailure tbufInfo (s.derived h tree tbl) := by
  rw [ruleEncode_of_derived hin hhist htree htbl, ruleTableSerialize_of_too_long (s := s.derived h tree tbl) htext,
    Effect.andThen_raised]

variable (hcaps : s.caps.Legal) (hwf : Memory.wf s.mem)

include hin hcaps hwf in
theorem inputBytes_serialized_derived : inputBytes (s.derived h tree tbl).serialized = inputBytes s :=
  inputBytes_serialized (s := s.derived h tree tbl) hwf hcaps hin

include hin hhist htree htbl hcaps hwf in
/-- With room for the table text ENCODE turns on the length of the packed bytes alone. -/
theorem ruleEncode_of_text_fits (htext : (tableText tbl).length ≤ s.caps.tbufCap) :
    ruleEncode s = if s.caps.obufCap < (packedBytes tbl (inputBytes s)).length
      then .raised .ioFailure obufInfo (s.derived h tree tbl).serialized
      else .completed (s.derived h tree tbl).serialized.packed := by
  have hinput := inputBytes_serialized_derived (h := h) (tree := tree) (tbl := tbl) hin hcaps hwf
  have hcoded : ∀ b ∈ inputBytes s, codeAt tbl b ≠ none := by
    subst htree hhist
    exact codeAt_ne_none_of_mem (length_inputBytes_lt s) htbl
  rw [ruleEncode_of_derived hin hhist htree htbl, ruleTableSerialize_of_fits (s := s.derived h tree tbl) htext,
    Effect.andThen_completed, ← State.serialized, rulePack_of_coded (by exact hin) (by rw [hinput]; exact hcoded), hinput]
  rfl

end

/-- Settles O34: the first three sub-commands write no buffer, and the last two write disjoint ones. -/
theorem encodeCompletes : Obligations.EncodeCompletes := by
  intro s hcaps hwf
  rw [exec_eq_finish, ruleOf]
  refine ⟨fun hlong => by rw [ruleEncode_of_input_too_long hlong]; rfl, ?_⟩
  intro x tree tbl text packed hin hx htree htbl htext hpacked
  have hsym := toNat_symCount_countBytes (hx ▸ length_inputBytes_lt s)
  have hhist : countBytes x = countBytes (inputBytes s) := congrArg countBytes hx
  -- the states are compared field by field: an opaque histogram keeps that from building its tree
  generalize countBytes x = h at hhist hsym htree ⊢
  have hinput := inputBytes_serialized_derived (h := h) (tree := tree) (tbl := tbl) hin hcaps hwf
  have hfits := ruleEncode_of_text_fits hin hhist htree htbl hcaps hwf
  rw [← hx] at hinput hfits
  obtain ⟨-, -, ⟨-, htbuf⟩, -⟩ := id hcaps
  subst htext
  obtain rfl : packed = packedBytes tbl x := hpacked
  refine ⟨fun htext hout => ?_, fun htext => ?_, fun htext hout => ?_⟩
  · have hcaps' : (s.derived h tree tbl).serialized.caps.Legal := hcaps
    have hwf' : Memory.wf (s.derived h tree tbl).serialized.mem := serialized_wf (s := s.derived h tree tbl) hwf
    have hpacked : packedBytes (s.derived h tree tbl).serialized.code (inputBytes (s.derived h tree tbl).serialized) =
      packedBytes tbl x := congrArg (packedBytes tbl) hinput
    rw [hfits htext, if_neg (Nat.not_lt.2 hout)]
    rw [← hpacked] at hout ⊢
    refine ⟨_, rfl, complete_packed_frame _, hsym, toNat_ofNat_of_le_cap htext htbuf, ?_, toNat_outLen_packed hcaps' hout,
      readBytes_packed hwf', ?_, fun a hobuf htbuf => ?_⟩
    · exact (readBytes_tbuf_packed hwf' hcaps' hout _).trans (readBytes_serialized (s := s.derived h tree tbl) hwf)
    · exact (toNat_dataBits_packed hcaps' hout).trans (congrArg (fun y => (codedBits tbl y).length) hinput)
    · exact (readByte_packed_outside hwf' hobuf).trans
        (readByte_serialized_outside (s := s.derived h tree tbl) hwf htbuf)
  · rw [ruleEncode_of_text_too_long hin hhist htree htbl htext]
    exact ⟨_, rfl, rfl, hsym⟩
  · rw [hfits htext, if_pos hout]
    exact ⟨_, rfl, rfl, hsym, toNat_ofNat_of_le_cap htext htbuf, readBytes_serialized (s := s.derived h tree tbl) hwf,
      fun a ha => readByte_serialized_outside (s := s.derived h tree tbl) hwf ha⟩

end Sys2Proof.Machine
end

section
/-! SUPPORT. UNPACK on a packed stream (47_bit_unpacker.md R280 to R288): the boundary is the marker's, and the traversal gives back
the bytes whose leaf paths were packed. -/

namespace Sys2Proof.Machine

/-! ### The traversal (R285) -/

/-- Down a leaf path the traversal meets no payload before the path's end, emits the one there and is at the root again. -/
theorem unpackBits_leafPath {cap : Nat} {nodes : List Node} {root : Option Nat} {b : Byte} (rest : BitString) (p : BitString) :
    ∀ {cur : Option Nat} {i : Nat} {out : List Byte}, IsLeafPath nodes cur b p → p ≠ [] → out.length < cap →
      unpackBits cap nodes root none i out cur (p ++ rest) =
        unpackBits cap nodes root none (i + p.length) (out ++ [b]) root rest := by
  induction p with
  | nil => intro _ _ _ _ hne; exact absurd rfl hne
  | cons bit p ih =>
    intro cur i out hp _ hroom
    cases cur with
    | none => exact absurd hp (not_isLeafPath_none nodes b _)
    | some n =>
      obtain ⟨-, hp⟩ := isLeafPath_cons_iff.1 hp
      rw [List.cons_append, unpackBits, Option.bind_some]
      cases hc : child nodes n bit with
      | none => exact absurd (hc ▸ hp) (not_isLeafPath_none nodes b p)
      | some c =>
        rw [hc] at hp
        cases p with
        | nil =>
          rw [isLeafPath_nil_iff] at hp
          simp only [hp, if_neg hroom.ne, List.nil_append, List.length_singleton]
        | cons bit' p =>
          obtain ⟨hnone, -⟩ := isLeafPath_cons_iff.1 hp
          simp only [hnone]
          rw [ih hp (List.cons_ne_nil _ _) hroom, List.length_cons (a := bit), Nat.add_right_comm, Nat.add_assoc]

/-- Codes that are leaf paths are read back byte by byte (R285). -/
theorem unpackBits_leafPaths {cap : Nat} {nodes : List Node} {root : Option Nat} {t : CodeTable} (x : List Byte) :
    ∀ {i : Nat} {out : List Byte}, (∀ b ∈ x, ∃ c, codeAt t b = some c ∧ c ≠ [] ∧ IsLeafPath nodes root b c) →
      out.length + x.length ≤ cap →
      unpackBits cap nodes root none i out root (codedBits t x) = { out := out ++ x, cur := root, error := none } := by
  induction x with
  | nil => intro i out _ _; simp [codedBits, unpackBits]
  | cons b x ih =>
    intro i out hx hroom
    obtain ⟨c, hc, hne, hpath⟩ := hx b List.mem_cons_self
    rw [List.length_cons] at hroom
    have hbits : codedBits t (b :: x) = c ++ codedBits t x := by simp [codedBits, hc]
    rw [hbits, unpackBits_leafPath _ c hpath hne (by omega), ih (fun b' hb' => hx b' (List.mem_cons_of_mem _ hb')) (by simp; omega),
      List.append_assoc, List.singleton_append]

/-- A code derived from a tree whose root has no payload is a leaf path (44_code_table.md R212, R213). -/
theorem isLeafPath_of_codeAt {nodes : List Node} {root : Option Nat} {t : CodeTable} (ht : deriveTable nodes root = some t)
    {b : Byte} {c : BitString} (hc : codeAt t b = some c) :
    ∃ p, c = recordedCode p ∧ IsLeafPath nodes root b p := by
  obtain ⟨leaves, hleaves, rfl⟩ := exists_leaves_of_deriveTable ht
  obtain ⟨p, hp, hrec, -⟩ := exists_first_of_codeAt_recorded hleaves.pairwise_pathBefore hc
  exact ⟨p, hrec, (hleaves.mem_iff_isLeafPath b p).1 hp⟩

/-- What the codes derived from a tree make of an input, the traversal of that tree reads back; on a degenerate tree each 0 bit is
one byte (R284). -/
theorem unpackBits_codedBits {cap : Nat} {nodes : List Node} {root : Option Nat} {t : CodeTable}
    (ht : deriveTable nodes root = some t) {x : List Byte} (hx : ∀ b ∈ x, codeAt t b ≠ none) (hroom : x.length ≤ cap) :
    unpackBits cap nodes root (root.bind fun r => (nodeAt nodes r).payload) 0 [] root (codedBits t x) =
      { out := x, cur := root, error := none } := by
  cases hdeg : root.bind fun r => (nodeAt nodes r).payload with
  | none =>
    refine unpackBits_leafPaths x (fun b hb => ?_) (by simpa using hroom)
    obtain ⟨c, hc⟩ := Option.ne_none_iff_exists'.1 (hx b hb)
    obtain ⟨p, rfl, hp⟩ := isLeafPath_of_codeAt ht hc
    have hne : p ≠ [] := by
      rintro rfl
      obtain ⟨⟨r, hr, hpay⟩, -⟩ := hp
      rw [walkRoot_nil] at hr
      simp [hr, hpay] at hdeg
    rw [recordedCode, if_neg hne] at hc
    exact ⟨p, hc, hne, hp⟩
  | some v =>
    obtain ⟨r, rfl, hv⟩ := Option.bind_eq_some_iff.1 hdeg
    obtain rfl := Option.some_inj.1 ((deriveTable_of_payload_at_root hv).symm.trans ht)
    have hcode : ∀ b, codeAt (codePut emptyCode v [false]) b = if b = v then some [false] else none := fun b => by
      rw [codeAt_codePut, codeAt_emptyCode]
    have hall : x = List.replicate x.length v := List.eq_replicate_of_mem fun b hb => by
      by_contra hne
      exact hx b hb (by rw [hcode, if_neg hne])
    have hbits : codedBits (codePut emptyCode v [false]) x = List.replicate x.length false ++ [] := by
      rw [hall]
      simp [codedBits, List.flatMap_replicate, hcode]
    rw [hbits, unpackBits_degenerate_zeros [] _ (by simpa using hroom), unpackBits, if_pos rfl, List.nil_append, ← hall]

/-! ### UNPACK -/

theorem getLast?_inputBytes {s : State} (h : s.inLen ≠ 0) :
    (inputBytes s).getLast? = some (readByte s (ibufBase + (s.inLen.toNat - 1))) := by
  have hpos : 0 < s.inLen.toNat := Nat.pos_of_ne_zero fun hzero => h (BitVec.eq_of_toNat_eq hzero)
  rw [List.getLast?_eq_getElem?, length_inputBytes, getElem?_inputBytes (by omega)]

/-- On a padded stream in IBUF the marker gives exactly the data bits (R282). -/
theorem ruleUnpack_of_paddedBits {s : State} {bits : BitString} (hin : s.inLen.toNat ≤ s.caps.ibufCap)
    (hbytes : inputBytes s = packBits (paddedBits bits)) : ruleUnpack s = decodeStream bits.length s := by
  have hlen : s.inLen.toNat = (packBits (paddedBits bits)).length := by rw [← hbytes, length_inputBytes]
  have hne : s.inLen ≠ 0 := by
    intro hzero
    rw [hzero, length_packBits_paddedBits] at hlen
    simp at hlen
  obtain ⟨last, hlast, hmarker⟩ := exists_marker_packBits_paddedBits bits
  rw [← hbytes, getLast?_inputBytes hne, Option.some_inj] at hlast
  rw [ruleUnpack, if_neg (Nat.not_lt.2 hin), if_neg hne, hlast, hmarker]
  simp only [hlen, dataBits_of_marker]

/-- The state in which UNPACK completes with the bytes `x` of `d` data bits (R288). -/
def State.unpacked (s : State) (d : Nat) (x : List Byte) : State :=
  { writeBytes s obufBase x with
    outLen := BitVec.ofNat 32 x.length, cursor := s.root, dataBits := BitVec.ofNat 32 d }

/-- Where the traversal reads `x` off the bits that were padded, UNPACK completes with `x`. -/
theorem ruleUnpack_of_unpackBits {s : State} {bits : BitString} {x : List Byte} (hin : s.inLen.toNat ≤ s.caps.ibufCap)
    (hbytes : inputBytes s = packBits (paddedBits bits))
    (hx : unpackBits s.caps.obufCap s.nodes s.root (rootPayload s) 0 [] s.root bits = { out := x, cur := s.root, error := none }) :
    ruleUnpack s = .completed (s.unpacked bits.length x) := by
  rw [ruleUnpack_of_paddedBits hin hbytes, decodeStream, hbytes, streamBits_packBits_paddedBits, take_length_paddedBits, hx]
  rfl

theorem readBytes_unpacked {s : State} (hwf : Memory.wf s.mem) (d : Nat) (x : List Byte) :
    readBytes (s.unpacked d x) obufBase x.length = x :=
  readBytes_writeBytes s obufBase x hwf

theorem ofNat_length_inputBytes (s : State) : BitVec.ofNat 32 (inputBytes s).length = s.inLen := by
  rw [length_inputBytes, BitVec.ofNat_toNat, BitVec.setWidth_eq]

/-! ### The round trip -/

/-- A command that ends without an error completed its rule. -/
theorem exists_completed_of_exec {i : Instr} {s t : State} (h : exec i s = .next t) (ht : t.errCode = none) :
    ∃ u, ruleOf i s = .completed u ∧ t = complete u := by
  rcases (exec_eq_next_iff i s t).1 h with hu | ⟨c, info, u, -, rfl⟩
  · exact hu
  · simp at ht

/-- Settles O51: PACK's completion says what is in OBUF, whose data bits the traversal reads back. -/
theorem unpackInvertsPack : Obligations.UnpackInvertsPack := by
  intro s t u hcaps hwf _ hderive _ hpack hterr hroom hout hwfu hcapsu hnodes hroot herr hlen hbytes
  obtain ⟨w, hw, rfl⟩ := exists_completed_of_exec hpack hterr
  obtain ⟨-, hcoded, hfits, rfl⟩ := rulePack_eq_completed_iff.1 hw
  have hbytes : inputBytes u = packedBytes s.code (inputBytes s) := by
    rw [hbytes, complete_outLen, toNat_outLen_packed hcaps hfits]
    exact readBytes_packed hwf
  have hrule : ruleUnpack u = .completed (u.unpacked (codedBits s.code (inputBytes s)).length (inputBytes s)) := by
    refine ruleUnpack_of_unpackBits (by rw [hlen, hcapsu]; exact hout) hbytes ?_
    rw [rootPayload, hnodes, hroot, hcapsu]
    exact unpackBits_codedBits hderive hcoded (by rwa [length_inputBytes])
  rw [exec_eq_finish, ruleOf, hrule, ← length_inputBytes]
  exact ⟨_, rfl, herr, ofNat_length_inputBytes s, rfl, readBytes_unpacked hwfu (codedBits s.code (inputBytes s)).length _⟩

end Sys2Proof.Machine
end

section
/-! SUPPORT. TABLE_PARSE on a text that TABLE_SERIALIZE wrote (46_table_parser.md R262, 44_code_table.md R218 to R222): the entries are
read back in their order. -/

namespace Sys2Proof.Machine

/-! ### The numerals (44_code_table.md R220) -/

theorem toNat_digitChar {d : Nat} (h : d < 10) : (digitChar d).toNat = 0x30 + d := by
  rw [digitChar, BitVec.toNat_ofNat, Nat.mod_eq_of_lt (by omega)]

theorem decimalText_digits (b : Byte) : ∀ ch ∈ decimalText b, 0x30 ≤ ch.toNat ∧ ch.toNat ≤ 0x39 := by
  have hb := b.isLt
  have hdigit : ∀ d, d < 10 → 0x30 ≤ (digitChar d).toNat ∧ (digitChar d).toNat ≤ 0x39 := fun d hd => by
    rw [toNat_digitChar hd]
    omega
  simp only [decimalText]
  split
  · simpa using hdigit _ ‹_›
  · split
    · simpa using ⟨hdigit _ (by omega), hdigit _ (by omega)⟩
    · simpa using ⟨hdigit _ (by omega), hdigit _ (by omega), hdigit _ (by omega)⟩

theorem decimalFrom_decimalText (b : Byte) : decimalFrom 0 (decimalText b) = b.toNat := by
  have hb := b.isLt
  simp only [decimalText, decimalFrom]
  split
  · rename_i h1
    simp [toNat_digitChar h1]
  · split
    · simp only [List.foldl_cons, List.foldl_nil]
      rw [toNat_digitChar (by omega), toNat_digitChar (by omega)]
      omega
    · simp only [List.foldl_cons, List.foldl_nil]
      rw [toNat_digitChar (by omega), toNat_digitChar (by omega), toNat_digitChar (by omega)]
      omega

/-- A written entry is one of the grammar's (46_table_parser.md R262). -/
theorem entryOk_decimalText {e : Byte × BitString} (h : e.2.length ≤ Config.maxCodeLen) : EntryOk (decimalText e.1, e) where
  someDigit := by rw [length_decimalText]; split <;> [skip; split] <;> decide
  fewDigits := by rw [length_decimalText]; split <;> [skip; split] <;> decide
  digits := decimalText_digits e.1
  value := decimalFrom_decimalText e.1
  fewBits := h

/-! ### The text -/

theorem intercalate_concat {α : Type} (sep : α) (ls : List (List α)) (l : List α) :
    List.intercalate [sep] (ls ++ [l]) = ls.flatMap (fun l' => l' ++ [sep]) ++ l := by
  induction ls with
  | nil => simp
  | cons l' ls ih =>
    obtain ⟨l'', ls', h⟩ := List.exists_cons_of_ne_nil (List.append_ne_nil_of_right_ne_nil ls (List.cons_ne_nil l []))
    rw [List.cons_append, h, List.intercalate_cons_cons, ← h, ih]
    simp

/-- The last entry of a text ends the scan (46_table_parser.md R263). -/
theorem scanTable_lastEntry {e : Byte × BitString} (start : Nat) {es : List (Byte × BitString)}
    (he : e.2.length ≤ Config.maxCodeLen) (hnew : ∀ e' ∈ es, e'.1 ≠ e.1) :
    scanTable (.number start 0 0) start es (entryText e) = .entries (es ++ [e]) := by
  have hok := entryOk_decimalText he
  have hb := e.1.isLt
  have hdup : ¬ isDuplicate es e.1.toNat = true := by
    rw [isDuplicate_iff (by omega)]
    rintro ⟨e', he', h⟩
    exact hnew e' he' (BitVec.eq_of_toNat_eq h)
  have htext : entryText e = decimalText e.1 ++ 0x3A :: (bitText e.2 ++ []) := by
    rw [entryText, List.append_nil, List.append_assoc]
    rfl
  rw [htext, scanTable_number start es _ (fun ch hch => (isDigit_iff ch).2 (hok.digits ch hch)) hok.someDigit hok.fewDigits
    (by rw [hok.value]; omega), scanTable_bits _ _ _ _ _ _ _ (by simpa using hok.fewBits), hok.value, scanTable, if_neg hdup,
    List.nil_append, BitVec.ofNat_toNat, BitVec.setWidth_eq]

/-- The text of entries with different values parses to them. -/
theorem parseTable_entryTexts {es : List (Byte × BitString)} (h : EntriesOk es) :
    parseTable (List.intercalate [dashChar] (es.map entryText)) = .entries es := by
  obtain ⟨hnodup, hlen⟩ := h
  rcases es.eq_nil_or_concat' with rfl | ⟨init, e, rfl⟩
  · rfl
  · have htext : List.intercalate [dashChar] ((init ++ [e]).map entryText) =
        (init.map fun e' => (decimalText e'.1, e')).flatMap entryPiece ++ entryText e := by
      rw [List.map_append, List.map_singleton, intercalate_concat, List.flatMap_map, List.flatMap_map]
      rfl
    have hne : (init.map fun e' => (decimalText e'.1, e')).flatMap entryPiece ++ entryText e ≠ [] := by
      simp [entryText]
    have hraw : ∀ e' ∈ init.map fun e' => (decimalText e'.1, e'), EntryOk e' := by
      intro r hr
      obtain ⟨e', he', rfl⟩ := List.mem_map.1 hr
      exact entryOk_decimalText (hlen e' (List.mem_append_left _ he'))
    rw [List.map_append, List.map_singleton] at hnodup
    obtain ⟨hinit, -, hnew⟩ := List.nodup_append.1 hnodup
    have hlast : ∀ e' ∈ init, e'.1 ≠ e.1 := fun e' he' =>
      hnew e'.1 (List.mem_map_of_mem he') e.1 (List.mem_singleton_self _)
    rw [htext, parseTable, if_neg hne, scanTable_entries _ _ _ _ hraw (by simpa [Function.comp_def] using hinit),
      List.nil_append, List.map_map]
    simp only [Function.comp_def, List.map_id_fun', id]
    exact scanTable_lastEntry _ (hlen e (by simp)) hlast

theorem parseTable_tableText {t : CodeTable} (h : CodeOk t) : parseTable (tableText t) = .entries (codeEntries t) := by
  refine parseTable_entryTexts ⟨?_, fun e he => (h e.1 e.2 (mem_codeEntries.1 he)).2⟩
  rw [map_fst_codeEntries]
  exact allSymbols_nodup.filter _

end Sys2Proof.Machine
end

section
/-! SUPPORT. DECODE after ENCODE (45_bit_packer.md R250): the tree that TABLE_PARSE loads of a table in which no code begins another has the
table's codes as leaf paths, so UNPACK reads with it what PACK wrote with the tree built of the input. -/

namespace Sys2Proof.Machine

/-! ### Tables in which no code begins another -/

/-- No code of one byte begins the code of another. -/
def PrefixFree (t : CodeTable) : Prop :=
  ∀ b b' c c', codeAt t b = some c → codeAt t b' = some c' → c <+: c' → b = b'

/-- A leaf path begins no other leaf path. -/
theorem IsLeafPath.eq_of_prefix {nodes : List Node} {root : Option Nat} {b b' : Byte} {p p' : BitString}
    (h : IsLeafPath nodes root b p) (h' : IsLeafPath nodes root b' p') (hpre : p <+: p') : b = b' := by
  obtain ⟨⟨n, hn, hb⟩, -⟩ := h
  obtain ⟨⟨n', hn', hb'⟩, habove⟩ := h'
  by_cases hp : p = p'
  · subst hp
    obtain rfl := Option.some_inj.1 (hn.symm.trans hn')
    exact Option.some_inj.1 (hb.symm.trans hb')
  · simp [habove p n hpre hp hn] at hb

/-- Derived codes are leaf paths, which begin one another only on a degenerate tree, where there is one (44_code_table.md R213). -/
theorem prefixFree_of_deriveTable {nodes : List Node} {root : Option Nat} {t : CodeTable} (ht : deriveTable nodes root = some t) :
    PrefixFree t := by
  intro b b' c c' hc hc' hpre
  obtain ⟨p, rfl, hp⟩ := isLeafPath_of_codeAt ht hc
  obtain ⟨p', rfl, hp'⟩ := isLeafPath_of_codeAt ht hc'
  by_cases hnil : p = []
  · exact hp.eq_of_prefix hp' (hnil ▸ List.nil_prefix)
  · by_cases hnil' : p' = []
    · exact (hp'.eq_of_prefix hp (hnil' ▸ List.nil_prefix)).symm
    · rw [recordedCode, if_neg hnil, recordedCode, if_neg hnil'] at hpre
      exact hp.eq_of_prefix hp' hpre

/-! ### The loaded tree -/

theorem mem_of_lastValue_eq_some {codes : List (Byte × BitString)} {q : BitString} {v : Byte} (h : lastValue codes q = some v) :
    (v, q) ∈ codes := by
  obtain ⟨e, he, rfl⟩ := Option.map_eq_some_iff.1 h
  obtain rfl : e.2 = q := by simpa using List.find?_some he
  exact List.mem_reverse.1 (List.mem_of_find?_eq_some he)

theorem lastValue_ne_none_of_mem {codes : List (Byte × BitString)} {e : Byte × BitString} (he : e ∈ codes) :
    lastValue codes e.2 ≠ none := by
  rw [lastValue, ne_eq, Option.map_eq_none_iff, List.find?_eq_none]
  exact fun h => h e (List.mem_reverse.2 he) (by simp)

section
variable {t : CodeTable} {nodes : List Node} (h : Loaded (codeEntries t) nodes)
include h

/-- A payload of the loaded tree stands at its byte's code. -/
theorem Loaded.codeAt_of_payload {q : BitString} {n : Nat} {v : Byte} (hq : walkRoot nodes (some 0) q = some n)
    (hv : (nodeAt nodes n).payload = some v) : codeAt t v = some q := by
  rw [h.payload q n hq] at hv
  exact mem_codeEntries.1 (mem_of_lastValue_eq_some hv)

theorem Loaded.isLeafPath (hpre : PrefixFree t) {b : Byte} {c : BitString} (hc : codeAt t b = some c) :
    IsLeafPath nodes (some 0) b c := by
  have hmem := mem_codeEntries.2 hc
  obtain ⟨n, hn⟩ := h.exists_walk (code_mem_neededPaths hmem)
  constructor
  · obtain ⟨v, hv⟩ := Option.ne_none_iff_exists'.1 (lastValue_ne_none_of_mem hmem)
    rw [← h.payload c n hn] at hv
    obtain rfl := hpre v b c c (h.codeAt_of_payload hn hv) hc List.prefix_rfl
    exact ⟨n, hn, hv⟩
  · intro q m hq hne hm
    by_contra hpay
    obtain ⟨v, hv⟩ := Option.ne_none_iff_exists'.1 hpay
    have hcode := h.codeAt_of_payload hm hv
    obtain rfl := hpre v b q c hcode hc hq
    exact hne (Option.some_inj.1 (hcode.symm.trans hc))

theorem Loaded.payload_root (hok : CodeOk t) : (nodeAt nodes 0).payload = none := by
  by_contra hpay
  obtain ⟨v, hv⟩ := Option.ne_none_iff_exists'.1 hpay
  obtain ⟨hlen, -⟩ := hok v [] (h.codeAt_of_payload (walkRoot_nil _ _) hv)
  simp at hlen

/-- With the loaded tree the traversal reads back what was packed with the table. -/
theorem Loaded.unpackBits_codedBits (hok : CodeOk t) (hpre : PrefixFree t) {cap : Nat} {x : List Byte}
    (hx : ∀ b ∈ x, codeAt t b ≠ none) (hroom : x.length ≤ cap) :
    unpackBits cap nodes (some 0) none 0 [] (some 0) (codedBits t x) = { out := x, cur := some 0, error := none } := by
  refine unpackBits_leafPaths x (fun b hb => ?_) (by simpa using hroom)
  obtain ⟨c, hc⟩ := Option.ne_none_iff_exists'.1 (hx b hb)
  exact ⟨c, hc, List.length_pos_iff.1 (hok b c hc).1, h.isLeafPath hpre hc⟩

end

/-! ### TABLE_PARSE on a written text -/

theorem ruleTableParse_of_tableText {s : State} {t : CodeTable} (hcap : 65281 ≤ s.caps.nodeCap) (hok : CodeOk t)
    (htbl : s.tblLen.toNat ≤ s.caps.tbufCap) (htext : tableBytes s = tableText t) :
    ∃ nodes n, Loaded (codeEntries t) nodes ∧
      ruleTableParse s = .completed { s with nodes := nodes, root := some 0, cursor := some 0, symCount := n } := by
  have hparse : parseTable (tableBytes s) = .entries (codeEntries t) := htext ▸ parseTable_tableText hok
  have hes := entriesOk_of_parseTable hparse
  have hne : ∀ e ∈ codeEntries t, e.2 ≠ [] := fun e he => List.length_pos_iff.1 (hok e.1 e.2 (mem_codeEntries.1 he)).1
  obtain ⟨nodes, heq, h⟩ := insertEntries_loads (codeEntries t) (codes := []) (s := clearTree s) rfl hcap (loaded_clearTree s)
    hes.2 hes.length_le
  refine ⟨nodes, BitVec.ofNat 9 (codeEntries t).length, h, ?_⟩
  rw [ruleTableParse_of_entries htbl hparse fun _ => hne, map_readEmptyCode_of_no_empty hne, loadEntries, heq]
  rfl

/-! ### The round trip -/

/-- What ENCODE leaves where it ends without an error: codes for every input byte, the table text and the packed bytes. -/
theorem exists_codes_of_exec_encode {s t : State} (hcaps : s.caps.Legal) (hwf : Memory.wf s.mem)
    (hin : s.inLen.toNat ≤ s.caps.ibufCap) (h : exec .encode s = .next t) (ht : t.errCode = none) :
    ∃ tbl, CodeOk tbl ∧ PrefixFree tbl ∧ (∀ b ∈ inputBytes s, codeAt tbl b ≠ none) ∧ t.tblLen.toNat ≤ s.caps.tbufCap ∧
      tableBytes t = tableText tbl ∧ readBytes t 0x02000000 t.outLen.toNat = packedBytes tbl (inputBytes s) := by
  obtain ⟨tbl, htbl, hok, -, -⟩ := builtTreesHaveCodesAndTheirTextFits (countBytes (inputBytes s))
  obtain ⟨hfits, htextLong, houtLong⟩ := (encodeCompletes s hcaps hwf).2 _ _ tbl _ _ hin rfl rfl htbl rfl rfl
  have herr : ∀ u : State, exec .encode s = .next u → u.errCode ≠ some .ioFailure := by
    intro u hu hraised
    cases h.symm.trans hu
    simp [ht] at hraised
  rcases Nat.lt_or_ge s.caps.tbufCap (tableText tbl).length with htext | htext
  · obtain ⟨u, hu, hframe, -⟩ := htextLong htext
    exact absurd (by rw [hframe]) (herr u hu)
  rcases Nat.lt_or_ge s.caps.obufCap (packedBytes tbl (inputBytes s)).length with hout | hout
  · obtain ⟨u, hu, hframe, -⟩ := houtLong htext hout
    exact absurd (by rw [hframe]) (herr u hu)
  obtain ⟨u, hu, -, -, htblLen, htextBytes, houtLen, hbytes, -⟩ := hfits htext hout
  cases h.symm.trans hu
  exact ⟨tbl, hok, prefixFree_of_deriveTable htbl, codeAt_ne_none_of_mem (length_inputBytes_lt s) htbl, htblLen ▸ htext,
    (congrArg (readBytes t 0x03000000) htblLen).trans htextBytes, (congrArg (readBytes t 0x02000000) houtLen).trans hbytes⟩

/-- Settles O52: TABLE_PARSE loads a tree with the codes that ENCODE packed with. -/
theorem decodeInvertsEncode : Obligations.DecodeInvertsEncode := by
  intro s t u hcaps hwf hin hroom _ hencode hterr hout hwfu hcapsu herr hlen hbytes htblLen htbl
  obtain ⟨tbl, hok, hpre, hcoded, htext, htextBytes, hpacked⟩ := exists_codes_of_exec_encode hcaps hwf hin hencode hterr
  obtain ⟨-, -, -, hnodeCap, -⟩ := hcaps
  obtain ⟨nodes, n, hloaded, hparse⟩ := ruleTableParse_of_tableText (s := u) (hcapsu ▸ hnodeCap) hok
    (by rw [htblLen, hcapsu]; exact htext) (htbl.trans htextBytes)
  have hunpack := ruleUnpack_of_unpackBits (s := { u with nodes := nodes, root := some 0, cursor := some 0, symCount := n })
    (x := inputBytes s) (by rw [hcapsu]; exact hlen ▸ hout) (hbytes.trans hpacked) (by
      rw [rootPayload, Option.bind_some, hloaded.payload_root hok]
      exact hloaded.unpackBits_codedBits hok hpre hcoded (by rwa [length_inputBytes, hcapsu]))
  rw [exec_eq_finish, ruleOf, ruleDecode, hparse, Effect.andThen_completed, hunpack, ← length_inputBytes]
  exact ⟨_, rfl, herr, ofNat_length_inputBytes s, readBytes_unpacked hwfu (codedBits tbl (inputBytes s)).length _⟩

end Sys2Proof.Machine
end

section
/-! SUPPORT. What TABLE_PARSE accepts (46_table_parser.md R262): a text that the scanner accepts is made of whole entries, and a text
made of whole entries is accepted. -/

namespace Sys2Proof.Machine

/-- One entry without a separator (46_table_parser.md R262). -/
def entryBody (e : List Byte × Byte × BitString) : List Byte :=
  e.1 ++ [0x3A] ++ bitText e.2.2

/-- What the scanner has read of the entry in progress when it stands at `sc`. -/
inductive ScanRead : Scan → List Byte → Prop where
  | number (start : Nat) {ds : List Byte} (hd : ∀ ch ∈ ds, 0x30 ≤ ch.toNat ∧ ch.toNat ≤ 0x39) (h3 : ds.length ≤ 3) :
      ScanRead (.number start (decimalFrom 0 ds) ds.length) ds
  | code (start : Nat) {e : List Byte × Byte × BitString} (he : EntryOk e) :
      ScanRead (.code start e.2.1.toNat e.2.2) (entryBody e)

theorem ScanRead.digit {start v nd : Nat} {read : List Byte} (h : ScanRead (.number start v nd) read) {ch : Byte}
    (hch : isDigit ch = true) (hnd : nd ≠ 3) :
    ScanRead (.number start (10 * v + (ch.toNat - 0x30)) (nd + 1)) (read ++ [ch]) := by
  cases h with
  | number _ hd h3 =>
    have hstep := ScanRead.number start (ds := read ++ [ch])
      (List.forall_mem_append.2 ⟨hd, by simpa using (isDigit_iff ch).1 hch⟩)
      (by rw [List.length_append, List.length_singleton]; omega)
    simpa [decimalFrom] using hstep

theorem numberError_eq_none_iff {start v nd pos : Nat} : numberError start v nd pos = none ↔ nd ≠ 0 ∧ v ≤ 255 := by
  rw [numberError]
  split
  · simp [*]
  · split
    · simp only [reduceCtorEq, false_iff, not_and]
      omega
    · simp only [true_iff]
      omega

theorem ScanRead.colon {start v nd pos : Nat} {read : List Byte} (h : ScanRead (.number start v nd) read)
    (hnum : numberError start v nd pos = none) : ScanRead (.code start v []) (read ++ [0x3A]) := by
  obtain ⟨hnd, hv⟩ := numberError_eq_none_iff.1 hnum
  cases h with
  | number _ hd h3 =>
    have hbyte : (BitVec.ofNat 8 (decimalFrom 0 read)).toNat = decimalFrom 0 read := by
      rw [BitVec.toNat_ofNat, Nat.mod_eq_of_lt (by omega)]
    have hstep := ScanRead.code start (e := (read, BitVec.ofNat 8 (decimalFrom 0 read), []))
      ⟨Nat.pos_of_ne_zero hnd, h3, hd, hbyte.symm, Nat.zero_le _⟩
    simpa [entryBody, bitText, hbyte] using hstep

theorem ScanRead.bit {start v : Nat} {c : BitString} {read : List Byte} (h : ScanRead (.code start v c) read)
    (hc : c.length ≠ 255) (b : Bool) : ScanRead (.code start v (c ++ [b])) (read ++ [bitChar b]) := by
  cases h with
  | @code _ e he =>
    obtain ⟨ds, sym, c⟩ := e
    have hfew := he.fewBits
    have hstep := ScanRead.code start (e := (ds, sym, c ++ [b]))
      ⟨he.someDigit, he.fewDigits, he.digits, he.value, by simp at hfew hc ⊢; omega⟩
    simpa [entryBody, bitText, bitChar] using hstep

theorem eq_bitChar_of_isBit {ch : Byte} (h : ch = bitChar false ∨ ch = bitChar true) : bitChar (ch == bitChar true) = ch := by
  rcases h with rfl | rfl <;> rfl

/-- What the scanner accepts is whole entries, joined by `-`. -/
theorem exists_raw_of_scanTable (text : List Byte) :
    ∀ {sc : Scan} {pos : Nat} {es out : List (Byte × BitString)} {read : List Byte}, ScanRead sc read →
      scanTable sc pos es text = .entries out →
      ∃ raw, raw ≠ [] ∧ (∀ e ∈ raw, EntryOk e) ∧ read ++ text = List.intercalate [0x2D] (raw.map entryBody) ∧
        out = es ++ raw.map (fun e => e.2) := by
  induction text with
  | nil =>
    intro sc pos es out read hread h
    cases hread with
    | number start hd h3 => simp [scanTable] at h
    | @code start e he =>
      simp only [scanTable] at h
      split at h
      · cases h
      · cases h
        exact ⟨[e], by simp, by simpa using he, by simp, by simp⟩
  | cons ch rest ih =>
    intro sc pos es out read hread h
    rw [List.append_cons]
    cases sc with
    | number start v nd =>
      simp only [scanTable] at h
      split at h
      · rename_i hdigit
        split at h
        · cases h
        · exact ih (hread.digit hdigit ‹_›) h
      · split at h
        · cases h
        · split at h
          · cases h
          · rename_i hnum hcolon
            rw [show ch = 0x3A from not_not.1 hcolon]
            exact ih (hread.colon hnum) h
    | code start v c =>
      simp only [scanTable] at h
      split at h
      · rename_i hbit
        split at h
        · cases h
        · have hstep := hread.bit ‹_› (ch == bitChar true)
          rw [eq_bitChar_of_isBit hbit] at hstep
          exact ih hstep h
      · split at h
        · cases h
        · split at h
          · cases h
          · rename_i hdash
            cases hread with
            | @code _ e he =>
              obtain ⟨raw, hne, hok, htext, hout⟩ := ih (.number (pos + 1) (ds := []) (by simp) (by simp)) h
              obtain ⟨e', raw, rfl⟩ := List.exists_cons_of_ne_nil hne
              refine ⟨e :: e' :: raw, by simp, List.forall_mem_cons.2 ⟨he, hok⟩, ?_, ?_⟩
              · rw [List.map_cons, List.map_cons, List.intercalate_cons_cons, ← List.map_cons, ← htext,
                  show ch = 0x2D from not_not.1 hdash, List.nil_append]
              · simp [hout]

theorem not_isDuplicate_of_new {es : List (Byte × BitString)} {b : Byte} (h : ∀ e ∈ es, e.1 ≠ b) :
    ¬ isDuplicate es b.toNat = true := by
  have hb := b.isLt
  rw [isDuplicate_iff (by omega)]
  rintro ⟨e, he, hval⟩
  exact h e he (BitVec.eq_of_toNat_eq hval)

/-- The last entry of a text is read whole and ends the scan. -/
theorem scanTable_entryBody {e : List Byte × Byte × BitString} (start : Nat) {es : List (Byte × BitString)}
    (he : EntryOk e) (hnew : ∀ e' ∈ es, e'.1 ≠ e.2.1) :
    scanTable (.number start 0 0) start es (entryBody e) = .entries (es ++ [e.2]) := by
  have hb := e.2.1.isLt
  have htext : entryBody e = e.1 ++ 0x3A :: (bitText e.2.2 ++ []) := by simp [entryBody]
  rw [htext, scanTable_number start es _ (fun ch hch => (isDigit_iff ch).2 (he.digits ch hch)) he.someDigit he.fewDigits
    (by rw [he.value]; omega), scanTable_bits _ _ _ _ _ _ _ (by simpa using he.fewBits), he.value, scanTable,
    if_neg (not_isDuplicate_of_new hnew),
    List.nil_append, BitVec.ofNat_toNat, BitVec.setWidth_eq]

/-- After whole entries with different values, each with its `-`, the scanner begins an entry. -/
theorem parseTable_entryPieces {raw : List (List Byte × Byte × BitString)} {rest : List Byte} (hok : ∀ e ∈ raw, EntryOk e)
    (hnodup : (raw.map (fun e => e.2.1)).Nodup) (hne : raw.flatMap entryPiece ++ rest ≠ []) :
    parseTable (raw.flatMap entryPiece ++ rest) =
      scanTable (.number (raw.flatMap entryPiece).length 0 0) (raw.flatMap entryPiece).length (raw.map (fun e => e.2)) rest := by
  rw [parseTable, if_neg hne, scanTable_entries _ _ _ _ hok (by simpa using hnodup), Nat.zero_add, List.nil_append]

/-- A text of whole entries with different values is accepted. -/
theorem parseTable_of_raw {raw : List (List Byte × Byte × BitString)} (hne : raw ≠ []) (hok : ∀ e ∈ raw, EntryOk e)
    (hnodup : (raw.map (fun e => e.2.1)).Nodup) :
    parseTable (List.intercalate [0x2D] (raw.map entryBody)) = .entries (raw.map (fun e => e.2)) := by
  obtain ⟨init, e, rfl⟩ := (List.eq_nil_or_concat' raw).resolve_left hne
  have htext : List.intercalate [0x2D] ((init ++ [e]).map entryBody) = init.flatMap entryPiece ++ entryBody e := by
    rw [List.map_append, List.map_singleton, intercalate_concat, List.flatMap_map]
    rfl
  rw [List.map_append, List.map_singleton] at hnodup
  obtain ⟨hinit, -, hnew⟩ := List.nodup_append.1 hnodup
  have hlast : ∀ e' ∈ init.map (fun e => e.2), e'.1 ≠ e.2.1 := by
    intro e' he'
    obtain ⟨r, hr, rfl⟩ := List.mem_map.1 he'
    exact hnew _ (List.mem_map_of_mem hr) _ (List.mem_singleton_self _)
  rw [htext, parseTable_entryPieces (fun r hr => hok r (List.mem_append_left _ hr)) hinit (by simp [entryBody]),
    scanTable_entryBody _ (hok e (by simp)) hlast, List.map_append, List.map_singleton]

theorem entryOk_iff (e : List Byte × Byte × BitString) : EntryOk e ↔
    1 ≤ e.1.length ∧ e.1.length ≤ 3 ∧ (∀ ch ∈ e.1, 0x30 ≤ ch.toNat ∧ ch.toNat ≤ 0x39) ∧
      decimalFrom 0 e.1 = e.2.1.toNat ∧ e.2.2.length ≤ 255 :=
  ⟨fun ⟨h1, h3, hd, hv, hc⟩ => ⟨h1, h3, hd, hv, hc⟩, fun ⟨h1, h3, hd, hv, hc⟩ => ⟨h1, h3, hd, hv, hc⟩⟩

/-- Settles O41: an accepted text is whole entries, by what the scanner has read so far, and whole entries are read one by one. -/
theorem parseAcceptsExactlyTheGrammar : Obligations.ParseAcceptsExactlyTheGrammar := by
  intro text es
  constructor
  · intro h
    have hnodup := (entriesOk_of_parseTable h).1
    by_cases htext : text = []
    · rw [parseTable, if_pos htext] at h
      cases h
      exact .inl ⟨htext, rfl⟩
    · rw [parseTable, if_neg htext] at h
      obtain ⟨raw, hne, hok, hraw, hes⟩ := exists_raw_of_scanTable text (.number 0 (ds := []) (by simp) (by simp)) h
      rw [List.nil_append] at hes
      refine .inr ⟨raw, hne, hes, hraw, fun e he => (entryOk_iff e).1 (hok e he), ?_⟩
      simpa [hes, Function.comp_def] using hnodup
  · rintro (⟨rfl, rfl⟩ | ⟨raw, hne, rfl, rfl, hok, hnodup⟩)
    · rfl
    · exact parseTable_of_raw hne (fun e he => (entryOk_iff e).2 (hok e he)) hnodup

end Sys2Proof.Machine
end

section
/-! SUPPORT. DECODE of a prefix-free table (46_table_parser.md R260, 47_bit_unpacker.md R280, R289): the table's codes are the leaf paths of
the loaded tree, and the traversal reads a stream of them entry by entry. -/

namespace Sys2Proof.Machine

/-! ### TABLE_PARSE of an accepted table -/

theorem readEmptyCode_ne_nil (e : Byte × BitString) : (readEmptyCode e).2 ≠ [] := by
  rw [readEmptyCode]
  split
  · simp
  · assumption

/-- The state after TABLE_PARSE loads `k` entries as the arena `nodes`, before its completion (46_table_parser.md R260). -/
def State.loaded (s : State) (nodes : List Node) (k : Nat) : State :=
  { s with nodes := nodes, root := some 0, cursor := some 0, symCount := BitVec.ofNat 9 k }

/-- An accepted table without a forbidden empty code loads its entries (46_table_parser.md R260, R265, R266). -/
theorem ruleTableParse_loads {s : State} {es : List (Byte × BitString)} (hcap : 65281 ≤ s.caps.nodeCap)
    (htbl : s.tblLen.toNat ≤ s.caps.tbufCap) (hparse : parseTable (tableBytes s) = .entries es)
    (hempty : 2 ≤ es.length → ∀ e ∈ es, e.2 ≠ []) :
    ∃ nodes, Loaded (es.map readEmptyCode) nodes ∧ ruleTableParse s = .completed (s.loaded nodes es.length) := by
  have hes := entriesOk_of_parseTable hparse
  obtain ⟨nodes, heq, h⟩ := insertEntries_loads (es.map readEmptyCode) (codes := []) (s := clearTree s) rfl hcap
    (loaded_clearTree s) hes.readEmptyCode.2 (by simpa using hes.length_le)
  refine ⟨nodes, h, ?_⟩
  rw [ruleTableParse_of_entries htbl hparse hempty, loadEntries, heq, List.length_map]
  rfl

/-! ### The loaded tree of a prefix-free table -/

section
variable {codes : List (Byte × BitString)} {nodes : List Node} (h : Loaded codes nodes)
include h

/-- A payload of the loaded tree is an entry's, at its code. -/
theorem Loaded.mem_of_payload {q : BitString} {n : Nat} {v : Byte} (hq : walkRoot nodes (some 0) q = some n)
    (hv : (nodeAt nodes n).payload = some v) : (v, q) ∈ codes :=
  mem_of_lastValue_eq_some ((h.payload q n hq).symm.trans hv)

theorem Loaded.exists_payload {e : Byte × BitString} (he : e ∈ codes) :
    ∃ n v, walkRoot nodes (some 0) e.2 = some n ∧ (nodeAt nodes n).payload = some v := by
  obtain ⟨n, hn⟩ := h.exists_walk (code_mem_neededPaths he)
  obtain ⟨v, hv⟩ := Option.ne_none_iff_exists'.1 (lastValue_ne_none_of_mem he)
  exact ⟨n, v, hn, (h.payload e.2 n hn).trans hv⟩

theorem Loaded.isLeafPath_of_mem (hpre : ∀ e ∈ codes, ∀ e' ∈ codes, e.2 <+: e'.2 → e = e') {e : Byte × BitString}
    (he : e ∈ codes) : IsLeafPath nodes (some 0) e.1 e.2 := by
  constructor
  · obtain ⟨n, v, hn, hv⟩ := h.exists_payload he
    have heq := hpre _ (h.mem_of_payload hn hv) e he List.prefix_rfl
    exact ⟨n, hn, hv.trans (congrArg (fun e => some e.1) heq)⟩
  · intro q m hq hne hm
    by_contra hpay
    obtain ⟨v, hv⟩ := Option.ne_none_iff_exists'.1 hpay
    obtain rfl := hpre _ (h.mem_of_payload hm hv) e he hq
    exact hne rfl

theorem Loaded.payload_root_of_no_empty (hne : ∀ e ∈ codes, e.2 ≠ []) : (nodeAt nodes 0).payload = none := by
  by_contra hpay
  obtain ⟨v, hv⟩ := Option.ne_none_iff_exists'.1 hpay
  exact hne _ (h.mem_of_payload (walkRoot_nil _ _) hv) rfl

end

/-! ### UNPACK of a stream of leaf paths -/

/-- Leaf paths one after the other are read back payload by payload (47_bit_unpacker.md R285). -/
theorem unpackBits_leafPath_entries {cap : Nat} {nodes : List Node} {root : Option Nat} (x : List (Byte × BitString)) :
    ∀ {i : Nat} {out : List Byte}, (∀ e ∈ x, e.2 ≠ [] ∧ IsLeafPath nodes root e.1 e.2) → out.length + x.length ≤ cap →
      unpackBits cap nodes root none i out root (x.map (fun e => e.2)).flatten =
        { out := out ++ x.map (fun e => e.1), cur := root, error := none } := by
  induction x with
  | nil => intro i out _ _; simp [unpackBits]
  | cons e x ih =>
    intro i out hx hroom
    obtain ⟨⟨hne, hpath⟩, hx⟩ := List.forall_mem_cons.1 hx
    rw [List.length_cons] at hroom
    rw [List.map_cons, List.flatten_cons, unpackBits_leafPath _ _ hpath hne (by omega), ih hx (by simp; omega)]
    simp

/-- Where the last byte holds a marker, UNPACK decodes the bits before it (47_bit_unpacker.md R282). -/
theorem ruleUnpack_of_marker {s : State} {p : Nat} (hin : s.inLen.toNat ≤ s.caps.ibufCap) (hne : s.inLen ≠ 0)
    (hp : lowestSetBit (readByte s (ibufBase + (s.inLen.toNat - 1))) = some p) :
    ruleUnpack s = decodeStream (8 * s.inLen.toNat - (p + 1)) s := by
  rw [ruleUnpack, if_neg (Nat.not_lt.2 hin), if_neg hne, hp]

/-- Where the traversal reads `x` off the first `d` bits, decoding them completes with `x` (47_bit_unpacker.md R288). -/
theorem decodeStream_of_unpackBits {s : State} {d : Nat} {x : List Byte}
    (hx : unpackBits s.caps.obufCap s.nodes s.root (rootPayload s) 0 [] s.root ((streamBits (inputBytes s)).take d) =
      { out := x, cur := s.root, error := none }) : decodeStream d s = .completed (s.unpacked d x) := by
  rw [decodeStream, hx]
  rfl

/-- Settles O50: no code begins another, so each is a leaf path of the loaded tree, and none is empty. -/
theorem decodeCompletesOnAPrefixFreeTable : Obligations.DecodeCompletesOnAPrefixFreeTable := by
  intro s es codes x p hcaps hwf htbl hparse hempty hcodes hpre hin hne hp hx hbits hroom
  obtain ⟨⟨-, hibuf⟩, ⟨-, hobuf⟩, -, hcap, -⟩ := hcaps
  obtain rfl : codes = es.map readEmptyCode := hcodes
  have hnonempty : ∀ e ∈ es.map readEmptyCode, e.2 ≠ [] := by
    intro e he
    obtain ⟨e', -, rfl⟩ := List.mem_map.1 he
    exact readEmptyCode_ne_nil e'
  obtain ⟨nodes, hloaded, hrule⟩ := ruleTableParse_loads hcap htbl hparse hempty
  have hread := unpackBits_leafPath_entries (cap := s.caps.obufCap) x (i := 0) (out := [])
    (fun e he => ⟨hnonempty e (hx e he), hloaded.isLeafPath_of_mem hpre (hx e he)⟩) (by simpa using hroom)
  have hunpack : ruleUnpack (s.loaded nodes es.length) =
      .completed ((s.loaded nodes es.length).unpacked (8 * s.inLen.toNat - (p + 1)) (x.map (fun e => e.1))) := by
    refine (ruleUnpack_of_marker (s := s.loaded nodes es.length) hin hne hp).trans (decodeStream_of_unpackBits ?_)
    rw [show rootPayload (s.loaded nodes es.length) = none from hloaded.payload_root_of_no_empty hnonempty]
    exact (congrArg _ hbits).trans hread
  have hfew := (entriesOk_of_parseTable hparse).length_le
  rw [exec_eq_finish, ruleOf, ruleDecode, hrule, Effect.andThen_completed, hunpack]
  have hlen : (x.map (fun e => e.1)).length = x.length := List.length_map _
  refine ⟨_, rfl, rfl, ?_, ?_, ?_, ?_, fun a ha => ?_⟩
  · exact (BitVec.toNat_ofNat _ _).trans (Nat.mod_eq_of_lt (by omega))
  · exact toNat_ofNat_of_le_cap (n := (x.map (fun e => e.1)).length) (hlen.trans_le hroom) hobuf |>.trans hlen
  · exact (BitVec.toNat_ofNat _ _).trans (Nat.mod_eq_of_lt (by omega))
  · rw [← hlen]
    exact readBytes_writeBytes s obufBase _ hwf
  · rw [← hlen] at ha
    exact readByte_writeBytes_outside s obufBase _ a hwf ha

end Sys2Proof.Machine
end

section
/-! SUPPORT. CODE_DERIVE and TABLE_SERIALIZE after TABLE_PARSE of a written text (46_table_parser.md R268): the loaded tree gives each byte
its code again. -/

namespace Sys2Proof.Machine

/-- In the tree loaded of a prefix-free table a byte's one leaf path is its code. -/
theorem Loaded.isLeafPath_iff {t : CodeTable} {nodes : List Node} (h : Loaded (codeEntries t) nodes) (hpre : PrefixFree t)
    {b : Byte} {c : BitString} : IsLeafPath nodes (some 0) b c ↔ codeAt t b = some c := by
  refine ⟨fun hpath => ?_, h.isLeafPath hpre⟩
  obtain ⟨⟨n, hn, hpay⟩, -⟩ := hpath
  exact h.codeAt_of_payload hn hpay

/-- CODE_DERIVE gives back the table that the tree was loaded of. -/
theorem Loaded.deriveTable_eq {t : CodeTable} {nodes : List Node} (h : Loaded (codeEntries t) nodes) (hok : CodeOk t)
    (hpre : PrefixFree t) : deriveTable nodes (some 0) = some t := by
  obtain ⟨t', ht', -⟩ := deriveTable_of_treeOk h.tree
  obtain ⟨leaves, hleaves, rfl⟩ := exists_leaves_of_deriveTable ht'
  rw [ht', Option.some_inj]
  refine codeTable_ext fun b => ?_
  have hmem : ∀ c, (b, c) ∈ leaves ↔ codeAt t b = some c := fun c => by
    rw [hleaves.mem_iff_isLeafPath, h.isLeafPath_iff hpre]
  cases hcode : codeAt (leaves.foldl recordLeaf emptyCode) b with
  | none =>
    refine (Option.eq_none_iff_forall_ne_some.2 fun c hc => ?_).symm
    exact codeAt_recorded_eq_none_iff.1 hcode c ((hmem c).2 hc)
  | some c =>
    obtain ⟨p, hp, rfl, -⟩ := exists_first_of_codeAt_recorded hleaves.pairwise_pathBefore hcode
    have hp := (hmem p).1 hp
    rw [recordedCode, if_neg (List.length_pos_iff.1 (hok b p hp).1), hp]

/-- Settles O53: the text's table is loaded as a tree that gives it back, and so its text again. -/
theorem parsingAWrittenTableIsIdempotent : Obligations.ParsingAWrittenTableIsIdempotent := by
  intro s h tbl hcaps hwf herr hderive htbl htext
  have hok : CodeOk tbl := by
    obtain ⟨tbl', htbl', hok, -⟩ := builtTreesHaveCodesAndTheirTextFits h
    exact Option.some_inj.1 (htbl'.symm.trans hderive) ▸ hok
  have hlen : (tableText tbl).length = s.tblLen.toNat := by rw [← htext, length_tableBytes]
  obtain ⟨-, -, -, hcap, -⟩ := hcaps
  obtain ⟨nodes, n, hloaded, hparse⟩ := ruleTableParse_of_tableText hcap hok htbl htext
  have hcodes := hloaded.deriveTable_eq hok (prefixFree_of_deriveTable hderive)
  have htblLen : BitVec.ofNat 32 (tableText tbl).length = s.tblLen := by
    rw [hlen, BitVec.ofNat_toNat, BitVec.setWidth_eq]
  let t := complete { s with nodes := nodes, root := some 0, cursor := some 0, symCount := n }
  let u := complete { t with code := tbl }
  refine ⟨t, u, complete u.serialized, ?_, ?_, ?_, herr, rfl, htblLen, ?_⟩
  · rw [exec_eq_finish, ruleOf, hparse]
    rfl
  · rw [exec_eq_finish, ruleOf, ruleCodeDerive, show deriveTable t.nodes t.root = some tbl from hcodes]
    rfl
  · rw [exec_eq_finish, ruleOf, ruleTableSerialize_of_fits (s := u) (hlen.trans_le htbl)]
    rfl
  · show readBytes u.serialized tbufBase (BitVec.ofNat 32 (tableText tbl).length).toNat = tableText tbl
    rw [htblLen, ← hlen]
    exact readBytes_serialized (s := u) hwf

end Sys2Proof.Machine
end

section
/-! SUPPORT. How TABLE_PARSE fails (46_table_parser.md R263, R264, R267): the position of a violation, each violation by what the scanner
has read before it, and the state an error leaves. -/

namespace Sys2Proof.Machine

/-! ### The state an error leaves (R267) -/

section
variable {s : State}

theorem exec_tableParse_of_raised {c : ErrorCode} {info : Word} (h : ruleTableParse s = .raised c info s) :
    exec .tableParse s = .next { s with errCode := some c, errInfo := info, done := true, phase := .idle } := by
  rw [exec_eq_finish, ruleOf, h]
  rfl

theorem ruleTableParse_of_text_too_long (h : s.caps.tbufCap < s.tblLen.toNat) :
    ruleTableParse s = .raised .ioFailure tbufInfo s := by
  rw [ruleTableParse, if_pos h]

theorem ruleTableParse_of_malformed (htbl : s.tblLen.toNat ≤ s.caps.tbufCap) {e : TableError}
    (h : parseTable (tableBytes s) = .malformed e) :
    ruleTableParse s = .raised .malformedTable (causeInfo e.cause.code e.position) s := by
  rw [ruleTableParse, if_neg (Nat.not_lt.2 htbl), h]

theorem ruleTableParse_of_empty_code (htbl : s.tblLen.toNat ≤ s.caps.tbufCap) {es : List (Byte × BitString)}
    (h : parseTable (tableBytes s) = .entries es) (h2 : 2 ≤ es.length) {j : Nat} (hj : firstEmptyCode es = some j) :
    ruleTableParse s = .raised .invalidPath (emptyCodeInfo j) s := by
  rw [ruleTableParse, if_neg (Nat.not_lt.2 htbl), h]
  simp only [if_pos h2, hj]

theorem exists_firstEmptyCode {es : List (Byte × BitString)} (h : ∃ e ∈ es, e.2 = []) : ∃ j, firstEmptyCode es = some j := by
  obtain ⟨e, he, hnil⟩ := h
  refine Option.ne_none_iff_exists'.1 fun hnone => ?_
  rw [firstEmptyCode, List.findIdx?_eq_none_iff] at hnone
  simpa [hnil] using hnone e he

/-- TABLE_PARSE leaves its state but for the error record, or loads a tree. -/
theorem ruleTableParse_raised_or_loaded (hcap : 65281 ≤ s.caps.nodeCap) :
    (∃ c info, ruleTableParse s = .raised c info s) ∨ ∃ nodes k, ruleTableParse s = .completed (s.loaded nodes k) := by
  rcases Nat.lt_or_ge s.caps.tbufCap s.tblLen.toNat with hlong | htbl
  · exact .inl ⟨_, _, ruleTableParse_of_text_too_long hlong⟩
  cases hparse : parseTable (tableBytes s) with
  | malformed e => exact .inl ⟨_, _, ruleTableParse_of_malformed htbl hparse⟩
  | entries es =>
    by_cases hempty : 2 ≤ es.length ∧ ∃ e ∈ es, e.2 = []
    · obtain ⟨h2, hempty⟩ := hempty
      obtain ⟨j, hj⟩ := exists_firstEmptyCode hempty
      exact .inl ⟨_, _, ruleTableParse_of_empty_code htbl hparse h2 hj⟩
    · obtain ⟨nodes, -, hrule⟩ := ruleTableParse_loads hcap htbl hparse
        fun h2 e he hnil => hempty ⟨h2, e, he, hnil⟩
      exact .inr ⟨nodes, _, hrule⟩

end

/-! ### Empty codes (R264) -/

theorem firstEmptyCode_eq_some {es : List (Byte × BitString)} {j : Nat} (hj : (es.map (fun e => e.2))[j]? = some [])
    (hfirst : ∀ k, k < j → (es.map (fun e => e.2))[k]? ≠ some []) : firstEmptyCode es = some j := by
  obtain ⟨hlt, hj⟩ := List.getElem?_eq_some_iff.1 hj
  rw [List.length_map] at hlt
  refine List.findIdx?_eq_some_iff_getElem.2 ⟨hlt, by simpa using hj, fun k hk => ?_⟩
  have := hfirst k hk
  rw [List.getElem?_map, List.getElem?_eq_getElem (hk.trans hlt), Option.map_some, ne_eq, Option.some_inj] at this
  simpa using this

/-- Settles O44: the first empty code is the one TABLE_PARSE finds, and a single entry is loaded as read. -/
theorem emptyCodesAreRejectedOrReadAsZero : Obligations.EmptyCodesAreRejectedOrReadAsZero := by
  intro s es hcaps htbl hparse
  refine ⟨fun j h2 hlt hj hfirst => ?_, ?_⟩
  · have hfew := (entriesOk_of_parseTable hparse).length_le
    rw [exec_tableParse_of_raised (ruleTableParse_of_empty_code htbl hparse h2 (firstEmptyCode_eq_some hj hfirst)),
      emptyCodeInfo, causeInfo_eq_or _ _ (by omega)]
    rfl
  · rintro v rfl
    obtain ⟨-, -, -, hcap, -⟩ := hcaps
    obtain ⟨nodes, hloaded, hrule⟩ := ruleTableParse_loads hcap htbl hparse (by simp)
    obtain ⟨n, hn⟩ := hloaded.exists_walk (code_mem_neededPaths (e := (v, [false])) (by simp [readEmptyCode]))
    refine ⟨complete (s.loaded nodes 1), n, ?_, rfl, rfl, (walk_eq_walkRoot _ _).trans hn, ?_⟩
    · rw [exec_eq_finish, ruleOf, hrule]
      rfl
    · exact (hloaded.payload _ n hn).trans (by simp [lastValue, readEmptyCode])

/-! ### The position of a violation (R263) -/

/-- Where the entry in progress begins. -/
def Scan.start (sc : Scan) : Nat :=
  match sc with
  | .number start _ _ => start
  | .code start _ _ => start

theorem position_le_of_numberError {start v nd pos : Nat} {e : TableError} (h : numberError start v nd pos = some e)
    (hle : start ≤ pos) : e.position ≤ pos := by
  rw [numberError] at h
  split at h
  · cases h
    exact Nat.le_refl pos
  · split at h
    · cases h
      exact hle
    · cases h

/-- A violation is in the text or at its end. -/
theorem position_le_of_scanTable (text : List Byte) :
    ∀ {sc : Scan} {pos : Nat} {es : List (Byte × BitString)} {e : TableError}, sc.start ≤ pos →
      scanTable sc pos es text = .malformed e → e.position ≤ pos + text.length := by
  induction text with
  | nil =>
    intro sc pos es e hle h
    cases sc with
    | number start v nd =>
      have hle : start ≤ pos := hle
      rw [scanTable, Parsed.malformed.injEq] at h
      cases hnum : numberError start v nd pos with
      | none => simp [← h, hnum]
      | some e' =>
        rw [hnum, Option.getD_some] at h
        exact h ▸ position_le_of_numberError hnum hle
    | code start v c =>
      simp only [scanTable] at h
      split at h
      · cases h
        exact hle
      · cases h
  | cons ch rest ih =>
    intro sc pos es e hle h
    have hlater : ∀ {sc' : Scan} {es' : List (Byte × BitString)}, sc'.start ≤ pos + 1 →
        scanTable sc' (pos + 1) es' rest = .malformed e → e.position ≤ pos + (ch :: rest).length := by
      intro sc' es' hle' h'
      have := ih hle' h'
      rw [List.length_cons]
      omega
    have hhere : ∀ {cause : TableCause} {position : Nat}, position ≤ pos → e = { cause := cause, position := position } →
        e.position ≤ pos + (ch :: rest).length := by
      rintro cause position hpos rfl
      exact Nat.le_add_right_of_le hpos
    cases sc with
    | number start v nd =>
      have hle : start ≤ pos := hle
      simp only [scanTable] at h
      split at h
      · split at h
        · exact hhere hle (Parsed.malformed.inj h).symm
        · exact hlater (sc' := .number start _ _) (Nat.le_succ_of_le hle) h
      · split at h
        · rename_i hnum
          exact Nat.le_add_right_of_le (position_le_of_numberError (Parsed.malformed.inj h ▸ hnum) hle)
        · split at h
          · exact hhere (Nat.le_refl pos) (Parsed.malformed.inj h).symm
          · exact hlater (sc' := .code start v []) (Nat.le_succ_of_le hle) h
    | code start v c =>
      have hle : start ≤ pos := hle
      simp only [scanTable] at h
      split at h
      · split at h
        · exact hhere (Nat.le_refl pos) (Parsed.malformed.inj h).symm
        · exact hlater (sc' := .code start v _) (Nat.le_succ_of_le hle) h
      · split at h
        · exact hhere hle (Parsed.malformed.inj h).symm
        · split at h
          · exact hhere (Nat.le_refl pos) (Parsed.malformed.inj h).symm
          · exact hlater (Nat.le_refl _) h

theorem position_le_of_parseTable {text : List Byte} {e : TableError} (h : parseTable text = .malformed e) :
    e.position ≤ text.length := by
  rw [parseTable] at h
  split at h
  · cases h
  · simpa using position_le_of_scanTable text (Nat.zero_le _) h

/-- ERR_INFO as a number: the sub-cause above the position (60_exceptions.md R302). -/
theorem toNat_causeInfo (cause : BitVec 4) {position : Nat} (h : position < 2 ^ 28) :
    (causeInfo cause position).toNat = cause.toNat * 2 ^ 28 + position := by
  rw [causeInfo, BitVec.toNat_append, BitVec.toNat_ofNat, Nat.mod_eq_of_lt h, ← Nat.shiftLeft_add_eq_or_of_lt h,
    Nat.shiftLeft_eq]

/-! ### The violations (R263) -/

section
variable {start : Nat} {es : List (Byte × BitString)} {ds tail : List Byte} (hd : ∀ ch ∈ ds, isDigit ch = true)
include hd

/-- A fourth digit is RANGE. -/
theorem scanTable_four_digits (h4 : ds.length = 4) :
    scanTable (.number start 0 0) start es (ds ++ tail) = .malformed { cause := .range, position := start } := by
  obtain ⟨init, ch, rfl⟩ := (List.eq_nil_or_concat' ds).resolve_left (by rintro rfl; simp at h4)
  obtain ⟨hinit, hch⟩ := List.forall_mem_append.1 hd
  have h3 : init.length = 3 := by simpa using h4
  rw [List.append_assoc, scanTable_digits start es _ init 0 0 start hinit (by omega), h3, List.singleton_append, scanTable,
    if_pos (hch ch (List.mem_singleton_self ch)), if_pos rfl]

variable (h3 : ds.length ≤ 3)
include h3

section
variable (htail : ∀ ch, tail.head? = some ch → isDigit ch = false)
include htail

/-- After the digits comes their check. -/
theorem scanTable_of_numberError {e : TableError} (h : numberError start (decimalFrom 0 ds) ds.length (start + ds.length) = some e) :
    scanTable (.number start 0 0) start es (ds ++ tail) = .malformed e := by
  rw [scanTable_digits start es tail ds 0 0 start hd (by omega), Nat.zero_add]
  cases tail with
  | nil => rw [scanTable, h, Option.getD_some]
  | cons ch rest => simp [scanTable, htail ch rfl, h]

/-- A value above 255 is RANGE. -/
theorem scanTable_large_value (hv : 255 < decimalFrom 0 ds) :
    scanTable (.number start 0 0) start es (ds ++ tail) = .malformed { cause := .range, position := start } := by
  have hne : ds.length ≠ 0 := fun h0 => by
    rw [List.length_eq_zero_iff.1 h0] at hv
    exact absurd hv (by decide)
  exact scanTable_of_numberError hd h3 htail (by rw [numberError, if_neg hne, if_pos hv])

variable (hne : ds ≠ []) (hv : decimalFrom 0 ds ≤ 255)
include hne hv

/-- After a number comes a `:`. -/
theorem scanTable_no_colon (hcolon : tail.head? ≠ some colonChar) : scanTable (.number start 0 0) start es (ds ++ tail) =
    .malformed { cause := .grammar, position := start + ds.length } := by
  have hnum : numberError start (decimalFrom 0 ds) ds.length (start + ds.length) = none :=
    numberError_eq_none_iff.2 ⟨mt List.length_eq_zero_iff.1 hne, hv⟩
  rw [scanTable_digits start es tail ds 0 0 start hd (by omega), Nat.zero_add]
  cases tail with
  | nil => rw [scanTable, hnum, Option.getD_none]
  | cons ch rest =>
    have hch : ch ≠ colonChar := fun heq => hcolon (congrArg some heq)
    simp [scanTable, htail ch rfl, hnum, hch]

end

variable (hne : ds ≠ []) (hv : decimalFrom 0 ds ≤ 255) {c : BitString}
include hne hv

/-- A number, its `:` and bits within the limit are read whole. -/
theorem scanTable_number_bits (hc : c.length ≤ 255) (rest : List Byte) :
    scanTable (.number start 0 0) start es (ds ++ (0x3A :: bitText c ++ rest)) =
      scanTable (.code start (decimalFrom 0 ds) c) (start + ds.length + 1 + c.length) es rest := by
  rw [List.cons_append, scanTable_number start es _ hd (List.length_pos_iff.2 hne) h3 hv,
    scanTable_bits _ _ _ _ _ _ _ (by simpa using hc), List.nil_append]

end

section
variable {start v pos : Nat} {c : BitString} {es : List (Byte × BitString)} {rest : List Byte}

/-- A 256th bit is TOO_LONG. -/
theorem scanTable_too_long (hc : c.length = Config.maxCodeLen)
    (hrest : ∃ ch, rest.head? = some ch ∧ (ch = bitChar false ∨ ch = bitChar true)) :
    scanTable (.code start v c) pos es rest = .malformed { cause := .tooLong, position := pos } := by
  obtain ⟨ch, hhead, hbit⟩ := hrest
  obtain ⟨rest, rfl⟩ := List.head?_eq_some_iff.1 hhead
  rw [scanTable, if_pos hbit, if_pos hc]

variable (hrest : ∀ ch, rest.head? = some ch → ¬ (ch = bitChar false ∨ ch = bitChar true))
include hrest

/-- After the bits the value is looked up. -/
theorem scanTable_duplicate (hdup : isDuplicate es v = true) :
    scanTable (.code start v c) pos es rest = .malformed { cause := .duplicate, position := start } := by
  cases rest with
  | nil => rw [scanTable, if_pos hdup]
  | cons ch rest => rw [scanTable, if_neg (hrest ch rfl), if_pos hdup]

/-- What follows the bits is a `-`. -/
theorem scanTable_no_dash (hdup : ¬ isDuplicate es v = true) (hdash : ∃ ch, rest.head? = some ch ∧ ch ≠ dashChar) :
    scanTable (.code start v c) pos es rest = .malformed { cause := .grammar, position := pos } := by
  obtain ⟨ch, hhead, hne⟩ := hdash
  obtain ⟨rest, rfl⟩ := List.head?_eq_some_iff.1 hhead
  rw [scanTable, if_neg (hrest ch rfl), if_neg hdup, if_pos hne]

end

/-! ### TABLE_PARSE -/

/-- A violation ends TABLE_PARSE with its sub-cause and position (60_exceptions.md R302). -/
theorem exec_tableParse_of_malformed {s : State} (htbuf : s.caps.tbufCap ≤ 2 ^ 24) (htbl : s.tblLen.toNat ≤ s.caps.tbufCap)
    {cause : TableCause} {position : Nat}
    (h : parseTable (tableBytes s) = .malformed { cause := cause, position := position }) :
    exec .tableParse s = .next { s with
      errCode := some .malformedTable,
      errInfo := BitVec.ofNat 32 (cause.code.toNat * 2 ^ 28) ||| BitVec.ofNat 32 position, done := true, phase := .idle } := by
  have hpos : position ≤ s.tblLen.toNat := length_tableBytes s ▸ position_le_of_parseTable h
  rw [exec_tableParse_of_raised (ruleTableParse_of_malformed htbl h), causeInfo_eq_or _ position (by omega)]

/-- Settles O43: each check raises its error in the state it found, and each violation is what the scanner meets after the text
before it. -/
theorem failedParseKeepsTheTree : Obligations.FailedParseKeepsTheTree := by
  intro s hcaps
  obtain ⟨-, -, ⟨-, htbuf⟩, hcap, -⟩ := hcaps
  refine ⟨fun hlong => exec_tableParse_of_raised (ruleTableParse_of_text_too_long hlong), fun htbl e he => ?_, ?_,
    fun htbl es hparse h2 hempty => ?_, fun t hs ht hterr => ?_⟩
  · have hpos : e.position ≤ s.tblLen.toNat := length_tableBytes s ▸ position_le_of_parseTable he
    exact ⟨_, toNat_causeInfo _ (by omega), hpos, exec_tableParse_of_raised (ruleTableParse_of_malformed htbl he)⟩
  · intro htbl htext raw ds tail start isDecimal isBit value bitChars before fails hraw hnodup hbytes hstart hdecimal
    have hscan : parseTable (tableBytes s) = scanTable (.number start 0 0) start (raw.map (fun e => e.2)) (ds ++ tail) := by
      rw [hbytes, List.append_assoc] at htext ⊢
      exact hstart ▸ parseTable_entryPieces (fun e he => (entryOk_iff e).2 (hraw e he)) hnodup htext
    have hd : ∀ ch ∈ ds, isDigit ch = true := fun ch hch => (isDigit_iff ch).2 (hdecimal ch hch)
    have hfails : ∀ cause position, scanTable (.number start 0 0) start (raw.map (fun e => e.2)) (ds ++ tail) =
        .malformed { cause := cause, position := position } →
          fails (BitVec.ofNat 32 (cause.code.toNat * 2 ^ 28) ||| BitVec.ofNat 32 position) :=
      fun cause position h => exec_tableParse_of_malformed htbuf htbl (hscan.trans h)
    refine ⟨fun h4 => hfails .range start (scanTable_four_digits hd h4), fun h3 htail => ?_⟩
    have htail' : ∀ ch, tail.head? = some ch → isDigit ch = false := fun ch hch =>
      Bool.eq_false_iff.2 fun h => htail ch hch ((isDigit_iff ch).1 h)
    refine ⟨?_, fun hrange => hfails .range start (scanTable_large_value hd h3 htail' hrange),
      fun hne hvalue hcolon => hfails .grammar _ (scanTable_no_colon hd h3 htail' hne hvalue hcolon),
      fun c rest hne hvalue htext' => ?_⟩
    · rintro rfl
      exact hfails .grammar start (scanTable_of_numberError hd h3 htail' rfl)
    · subst htext'
      have hread := fun hc => scanTable_number_bits (start := start) (es := raw.map fun e => e.2) hd h3 hne hvalue (c := c) hc rest
      have hseen : isDuplicate (raw.map fun e => e.2) (decimalFrom 0 ds) = true ↔ ∃ e ∈ raw, e.2.1.toNat = value ds :=
        (isDuplicate_iff hvalue).trans (by simp only [List.mem_map, exists_exists_and_eq_and, value])
      refine ⟨fun hc hbit => ?_, fun hc hrest => ⟨fun hdup => ?_, fun hnew hdash => ?_⟩⟩
      · exact hfails .tooLong _ ((hread hc.le).trans (hc ▸ scanTable_too_long hc hbit))
      · exact hfails .duplicate start ((hread hc).trans (scanTable_duplicate hrest (hseen.2 hdup)))
      · refine hfails .grammar _ ((hread hc).trans (scanTable_no_dash hrest (fun hdup => ?_) hdash))
        obtain ⟨e, he, heq⟩ := hseen.1 hdup
        exact hnew e he heq
  · obtain ⟨j, hj⟩ := exists_firstEmptyCode hempty
    exact ⟨_, exec_tableParse_of_raised (ruleTableParse_of_empty_code htbl hparse h2 hj)⟩
  · rcases ruleTableParse_raised_or_loaded hcap with ⟨c, info, hrule⟩ | ⟨nodes, k, hrule⟩
    · cases (exec_tableParse_of_raised hrule).symm.trans ht
      rfl
    · rw [exec_eq_finish, ruleOf, hrule] at ht
      cases ht
      exact absurd hs hterr

end Sys2Proof.Machine
end

section
/-! SUPPORT. How UNPACK ends (47_bit_unpacker.md R280 to R288): the checks of its input, the ways the traversal stops, and what each end
leaves in OBUF and the registers. -/

namespace Sys2Proof.Machine

/-! ### The checks of the input (R281, R283) -/

section
variable {s : State}

theorem exec_unpack_of_raised {c : ErrorCode} {info : Word} (h : ruleUnpack s = .raised c info s) :
    exec .unpack s = .next { s with errCode := some c, errInfo := info, done := true, phase := .idle } := by
  rw [exec_eq_finish, ruleOf, h]
  rfl

theorem ruleUnpack_of_input_too_long (h : s.caps.ibufCap < s.inLen.toNat) : ruleUnpack s = .raised .ioFailure ibufInfo s :=
  if_pos h

theorem ruleUnpack_of_empty (h : s.inLen = 0) : ruleUnpack s = .raised .corruptStream (causeInfo CorruptCause.empty.code 0) s := by
  have hin : ¬ s.caps.ibufCap < s.inLen.toNat := by simp [h]
  rw [ruleUnpack, if_neg hin, if_pos h]

theorem ruleUnpack_of_no_marker (hin : s.inLen.toNat ≤ s.caps.ibufCap) (hne : s.inLen ≠ 0)
    (h : lowestSetBit (readByte s (ibufBase + (s.inLen.toNat - 1))) = none) :
    ruleUnpack s = .raised .corruptStream (causeInfo CorruptCause.noMarker.code (s.inLen.toNat - 1)) s := by
  rw [ruleUnpack, if_neg (Nat.not_lt.2 hin), if_neg hne, h]

end

/-- Settles O45: each check raises its error in the state it found. -/
theorem unpackChecksItsInput : Obligations.UnpackChecksItsInput := by
  intro s hcaps
  obtain ⟨⟨-, hibuf⟩, -⟩ := hcaps
  refine ⟨fun hlong => exec_unpack_of_raised (ruleUnpack_of_input_too_long hlong),
    fun hempty => exec_unpack_of_raised (ruleUnpack_of_empty hempty), fun hne hin hlast => ?_⟩
  have hmarker : lowestSetBit (readByte s (ibufBase + (s.inLen.toNat - 1))) = none := (congrArg lowestSetBit hlast).trans rfl
  rw [exec_unpack_of_raised (ruleUnpack_of_no_marker hin hne hmarker), causeInfo_eq_or _ _ (by omega)]
  rfl

/-! ### The ends of UNPACK (R288) -/

/-- `t` holds the `k` bytes `x` at the start of OBUF and every other byte of `s`. -/
def Emitted (s t : State) (k : Nat) (x : List Byte) : Prop :=
  t.outLen.toNat = k ∧ readBytes t obufBase k = x ∧ ∀ a, a < obufBase ∨ obufBase + k ≤ a → readByte t a = readByte s a

theorem emitted_of_putBytes {s t : State} {x : List Byte} (hwf : Memory.wf s.mem) (hmem : t.mem = Memory.putBytes s.mem obufBase x)
    (hresets : t.resets = s.resets) (hlen : t.outLen = BitVec.ofNat 32 x.length) (hx : x.length ≤ 2 ^ 24) :
    Emitted s t x.length x := by
  have hread : ∀ a, readByte t a = readByte (writeBytes s obufBase x) a := readByte_congr hmem hresets
  refine ⟨hlen ▸ toNat_ofNat_of_le_cap hx le_rfl, ?_, fun a ha => ?_⟩
  · simpa only [readBytes, hread] using readBytes_writeBytes s obufBase x hwf
  · rw [hread, readByte_writeBytes_outside s obufBase x a hwf ha]

section
variable {s : State} {d : Nat} {x : List Byte} (hwf : Memory.wf s.mem) (hobuf : s.caps.obufCap ≤ 2 ^ 24)
  (hrule : ruleUnpack s = decodeStream d s)

/-- The bytes that the loop emits fit OBUF. -/
theorem length_le_of_unpackBits {r : Unpacked}
    (h : unpackBits s.caps.obufCap s.nodes s.root (rootPayload s) 0 [] s.root ((streamBits (inputBytes s)).take d) = r) :
    r.out.length ≤ s.caps.obufCap :=
  h ▸ (unpackBits_out _ (Nat.zero_le _)).2

include hwf hobuf hrule

/-- Where the loop ends without an error, UNPACK completes. -/
theorem exec_unpack_of_decoded (hd : d < 2 ^ 32)
    (h : unpackBits s.caps.obufCap s.nodes s.root (rootPayload s) 0 [] s.root ((streamBits (inputBytes s)).take d) =
      { out := x, cur := s.root, error := none }) :
    ∃ t, exec .unpack s = .next t ∧
      t = { s with
        mem := t.mem, outLen := t.outLen, dataBits := t.dataBits, cursor := s.root, done := true, phase := .idle } ∧
      t.dataBits.toNat = d ∧ Emitted s t x.length x := by
  rw [exec_eq_finish, ruleOf, hrule, decodeStream_of_unpackBits h]
  exact ⟨_, rfl, rfl, (BitVec.toNat_ofNat d 32).trans (Nat.mod_eq_of_lt hd),
    emitted_of_putBytes hwf rfl rfl rfl ((length_le_of_unpackBits h).trans hobuf)⟩

/-- Where the loop ends with an error, UNPACK raises it with the bytes before it in OBUF and CURSOR where the traversal was. -/
theorem exec_unpack_of_stopped {cur : Option Nat} {e : ErrorCode} {info : Word}
    (h : unpackBits s.caps.obufCap s.nodes s.root (rootPayload s) 0 [] s.root ((streamBits (inputBytes s)).take d) =
      { out := x, cur := cur, error := some (e, info) }) :
    ∃ t, exec .unpack s = .next t ∧
      t = { s with
        mem := t.mem, outLen := t.outLen, cursor := cur, errCode := some e, errInfo := info, done := true, phase := .idle } ∧
      Emitted s t x.length x := by
  rw [exec_eq_finish, ruleOf, hrule, decodeStream, h]
  exact ⟨_, rfl, rfl, emitted_of_putBytes hwf rfl rfl rfl ((length_le_of_unpackBits h).trans hobuf)⟩

end

/-! ### A root without a payload (R285 to R287) -/

theorem rootPayload_eq_none_iff {s : State} :
    rootPayload s = none ↔ ∀ r, s.root = some r → (nodeAt s.nodes r).payload = none :=
  Option.bind_eq_none_iff

theorem IsLeafPath.ne_nil {s : State} {b : Byte} {p : BitString} (h : IsLeafPath s.nodes s.root b p)
    (hroot : rootPayload s = none) : p ≠ [] := by
  rintro rfl
  obtain ⟨⟨r, hr, hpay⟩, -⟩ := h
  rw [walkRoot_nil] at hr
  rw [rootPayload_eq_none_iff.1 hroot r hr] at hpay
  cases hpay

section
variable {cap i : Nat} {nodes : List Node} {root : Option Nat} {out : List Byte}

/-- Leaf paths at the start of the data bits are read payload by payload, and the traversal is at the root again. -/
theorem unpackBits_leafPath_entries_append (tail : BitString) (x : List (Byte × BitString)) :
    ∀ {i : Nat} {out : List Byte}, (∀ e ∈ x, e.2 ≠ [] ∧ IsLeafPath nodes root e.1 e.2) → out.length + x.length ≤ cap →
      unpackBits cap nodes root none i out root ((x.map (fun e => e.2)).flatten ++ tail) =
        unpackBits cap nodes root none (i + (x.map (fun e => e.2)).flatten.length) (out ++ x.map (fun e => e.1)) root tail := by
  induction x with
  | nil => intro i out _ _; simp
  | cons e x ih =>
    intro i out hx hroom
    obtain ⟨⟨hne, hpath⟩, hx⟩ := List.forall_mem_cons.1 hx
    rw [List.length_cons] at hroom
    rw [List.map_cons, List.flatten_cons, List.append_assoc, unpackBits_leafPath _ _ hpath hne (by omega),
      ih hx (by simp; omega), List.length_append, Nat.add_assoc, List.map_cons, List.append_assoc, List.singleton_append]

/-- Where no node on the way carries a payload, the traversal goes along and emits nothing. -/
theorem unpackBits_walk (rest q : BitString) :
    ∀ {cur : Option Nat} {i n : Nat}, walkRoot nodes cur q = some n →
      (∀ q' m, q' <+: q → walkRoot nodes cur q' = some m → (nodeAt nodes m).payload = none) →
      unpackBits cap nodes root none i out cur (q ++ rest) = unpackBits cap nodes root none (i + q.length) out (some n) rest := by
  induction q with
  | nil =>
    intro cur i n hn _
    rw [walkRoot_nil] at hn
    rw [hn, List.nil_append, List.length_nil, Nat.add_zero]
  | cons bit q ih =>
    intro cur i n hn hnone
    cases cur with
    | none => cases hn
    | some m =>
      rw [walkRoot_cons] at hn
      cases hc : child nodes m bit with
      | none => rw [hc] at hn; cases hn
      | some c =>
        have hbelow : ∀ q' m', q' <+: q → walkRoot nodes (some c) q' = some m' → (nodeAt nodes m').payload = none :=
          fun q' m' hq' hm' => hnone (bit :: q') m' (List.cons_prefix_cons.2 ⟨rfl, hq'⟩) (by rwa [walkRoot_cons, hc])
        rw [List.cons_append, unpackBits, Option.bind_some, hc]
        simp only [hbelow [] c List.nil_prefix (walkRoot_nil _ _)]
        rw [ih (hc ▸ hn) hbelow, List.length_cons, Nat.add_right_comm, Nat.add_assoc]

/-- Data bits that end below the root are cut (R287). -/
theorem unpackBits_cut {cur : Option Nat} (h : cur ≠ root) : unpackBits cap nodes root none i out cur [] =
    { out := out, cur := cur, error := some (.corruptStream, causeInfo CorruptCause.truncated.code i) } := by
  rw [unpackBits, if_neg h]

/-- A child that is not there ends the loop, and so does a traversal without a root (R285). -/
theorem unpackBits_missingChild {cur : Option Nat} {bit : Bool} (rest : BitString)
    (h : cur.bind (fun n => child nodes n bit) = none) : unpackBits cap nodes root none i out cur (bit :: rest) =
      { out := out, cur := cur, error := some (.corruptStream, causeInfo CorruptCause.missingChild.code i) } := by
  rw [unpackBits, h]

/-- A payload for which OBUF has no room ends the loop at its node (R286). -/
theorem unpackBits_leafPath_full {p : BitString} {b : Byte} {n : Nat} (rest : BitString) (hp : IsLeafPath nodes root b p)
    (hne : p ≠ []) (hn : walkRoot nodes root p = some n) (hfull : out.length = cap) :
    unpackBits cap nodes root none i out root (p ++ rest) = { out := out, cur := some n, error := some (.ioFailure, obufInfo) } := by
  obtain ⟨⟨n', hn', hpay⟩, habove⟩ := hp
  obtain rfl := Option.some_inj.1 (hn'.symm.trans hn)
  obtain ⟨q, bit, rfl⟩ := (List.eq_nil_or_concat' p).resolve_left hne
  rw [walkRoot_concat] at hn
  obtain ⟨m, hm, hc⟩ := Option.bind_eq_some_iff.1 hn
  have hnone : ∀ q' m', q' <+: q → walkRoot nodes root q' = some m' → (nodeAt nodes m').payload = none := fun q' m' hq' =>
    habove q' m' (hq'.trans (List.prefix_append q [bit])) fun heq => by simpa [heq] using hq'.length_le
  rw [List.append_assoc, unpackBits_walk _ q hm hnone, List.singleton_append, unpackBits, Option.bind_some, hc]
  simp only [hpay, if_pos hfull]

end

/-- Settles O46: the codes are leaf paths of a root without a payload, so none is empty and the traversal reads them one by one. -/
theorem unpackDecodesConcatenatedCodes : Obligations.UnpackDecodesConcatenatedCodes := by
  intro s codes p hcaps hwf hin hne hp hroot hcodes hbits hroom
  obtain ⟨⟨-, hibuf⟩, ⟨-, hobuf⟩, -⟩ := hcaps
  have hdeg : rootPayload s = none := rootPayload_eq_none_iff.2 hroot
  simp only [walk_eq_walkRoot] at hcodes
  have hpaths : ∀ e ∈ codes, e.2 ≠ [] ∧ IsLeafPath s.nodes s.root e.1 e.2 := fun e he =>
    ⟨IsLeafPath.ne_nil (hcodes e he) hdeg, hcodes e he⟩
  have hread := unpackBits_leafPath_entries (cap := s.caps.obufCap) codes (i := 0) (out := []) hpaths (by simpa using hroom)
  rw [← hbits, ← hdeg] at hread
  obtain ⟨t, hexec, ht, hdata, hemit⟩ := exec_unpack_of_decoded hwf hobuf (ruleUnpack_of_marker hin hne hp) (by omega) hread
  rw [List.nil_append, List.length_map] at hemit
  obtain ⟨hlen, hout, hrest⟩ := hemit
  exact ⟨t, hexec, ht, hlen, hdata, hout, hrest⟩

/-- Settles O48: after the whole codes the traversal is at the root with their payloads put out, and it goes along what follows. -/
theorem unpackStopsAtTheFirstBadBit : Obligations.UnpackStopsAtTheFirstBadBit := by
  intro s codes tail p d n hcaps hwf hin hne hp hd hroot hcodes hbits hroom stopsWith
  obtain ⟨⟨-, hibuf⟩, ⟨-, hobuf⟩, -⟩ := hcaps
  have hdeg : rootPayload s = none := rootPayload_eq_none_iff.2 hroot
  simp only [walk_eq_walkRoot] at hcodes ⊢
  have hpaths : ∀ e ∈ codes, e.2 ≠ [] ∧ IsLeafPath s.nodes s.root e.1 e.2 := fun e he =>
    ⟨IsLeafPath.ne_nil (hcodes e he) hdeg, hcodes e he⟩
  have hread := unpackBits_leafPath_entries_append (cap := s.caps.obufCap) tail codes (i := 0) (out := []) hpaths
    (by simpa using hroom)
  rw [← hbits, ← hdeg, Nat.zero_add, List.nil_append] at hread
  have hlen : (codes.map (fun e => e.2)).flatten.length + tail.length = d := by
    rw [← List.length_append, ← hbits, List.length_take, streamBits_length, length_inputBytes]
    omega
  have hstop : ∀ {cur : Option Nat} {e : ErrorCode} {info : Word},
      unpackBits s.caps.obufCap s.nodes s.root none (codes.map (fun e => e.2)).flatten.length (codes.map (fun e => e.1)) s.root
        tail = { out := codes.map (fun e => e.1), cur := cur, error := some (e, info) } → stopsWith cur e info := by
    intro cur e info h
    rw [← hdeg] at h
    have hends := exec_unpack_of_stopped hwf hobuf (hd ▸ ruleUnpack_of_marker hin hne hp) (hread.trans h)
    rwa [List.length_map] at hends
  refine ⟨fun _ hn hnr hnone => ?_, fun q bit rest htail hn hc hnone => ?_, fun hnoroot htail => ?_,
    fun c rest v htail hfull hn hv habove => ?_⟩
  · have hinfo := causeInfo_eq_or CorruptCause.truncated.code d (by omega)
    refine hinfo ▸ hstop ?_
    have hwalk := unpackBits_walk (cap := s.caps.obufCap) (root := s.root) (i := (codes.map (fun e => e.2)).flatten.length)
      (out := codes.map (fun e => e.1)) [] tail hn hnone
    rw [List.append_nil, hlen] at hwalk
    exact hwalk.trans (unpackBits_cut (Ne.symm hnr))
  · have hpos : d - tail.length + q.length = (codes.map (fun e => e.2)).flatten.length + q.length := by omega
    have hle : q.length ≤ tail.length := by simp [htail]
    have hinfo := causeInfo_eq_or CorruptCause.missingChild.code (d - tail.length + q.length) (by omega)
    refine hinfo ▸ hstop ?_
    rw [hpos, htail, unpackBits_walk _ q hn hnone]
    exact unpackBits_missingChild rest hc
  · obtain ⟨bit, rest, rfl⟩ := List.exists_cons_of_ne_nil htail
    have hnil : codes = [] := List.eq_nil_iff_forall_not_mem.2 fun e he =>
      not_isLeafPath_none s.nodes e.1 e.2 (hnoroot ▸ (hpaths e he).2)
    refine hstop (info := causeInfo CorruptCause.missingChild.code 0) ?_
    rw [hnoroot, hnil]
    exact unpackBits_missingChild rest rfl
  · refine hstop (info := obufInfo) ?_
    have hpath : IsLeafPath s.nodes s.root v c := ⟨⟨n, hn, hv⟩, habove⟩
    rw [htail]
    exact unpackBits_leafPath_full rest hpath (hpath.ne_nil hdeg) hn (by rw [List.length_map, hfull])

/-! ### A root with a payload (R284) -/

section
variable {cap i : Nat} {nodes : List Node} {root cur : Option Nat} {out : List Byte} {v : Byte}

theorem unpackBits_degenerate_one (rest : BitString) : unpackBits cap nodes root (some v) i out cur (true :: rest) =
    { out := out, cur := cur, error := some (.corruptStream, causeInfo CorruptCause.degenerateOne.code i) } := by
  rw [unpackBits, if_pos rfl]

theorem unpackBits_degenerate_full (rest : BitString) (h : out.length = cap) :
    unpackBits cap nodes root (some v) i out cur (false :: rest) =
      { out := out, cur := cur, error := some (.ioFailure, obufInfo) } := by
  rw [unpackBits, if_neg Bool.false_ne_true, if_pos h]

end

theorem take_eq_replicate_of_getD {bits : BitString} {k : Nat} (hk : k ≤ bits.length)
    (h : ∀ j, j < k → bits.getD j false = false) : bits.take k = List.replicate k false := by
  refine List.eq_replicate_iff.2 ⟨List.length_take_of_le hk, fun b hb => ?_⟩
  obtain ⟨j, hj, rfl⟩ := List.mem_iff_getElem.1 hb
  rw [List.length_take_of_le hk] at hj
  rw [List.getElem_take, ← h j hj, List.getD_eq_getElem]

/-- After `i` bits 0 comes bit `i`. -/
theorem exists_take_eq_replicate_append {bits : BitString} {i d : Nat} (hi : i < d) (hd : d ≤ bits.length)
    (h : ∀ j, j < i → bits.getD j false = false) :
    ∃ rest, bits.take d = List.replicate i false ++ bits.getD i false :: rest := by
  have hlen : i < (bits.take d).length := by rwa [List.length_take_of_le hd]
  refine ⟨(bits.take d).drop (i + 1), ?_⟩
  rw [← take_eq_replicate_of_getD (hi.le.trans hd) h, List.getD_eq_getElem _ _ (hi.trans_le hd)]
  calc bits.take d = (bits.take d).take i ++ (bits.take d).drop i := (List.take_append_drop i _).symm
    _ = _ := by rw [List.take_take, min_eq_left hi.le, List.drop_eq_getElem_cons hlen, List.getElem_take]

/-- Settles O47: each 0 bit puts out one copy of the root's payload, until the bits, or the 0 bits, or OBUF's room end. -/
theorem degenerateTreeDecodesZeroBits : Obligations.DegenerateTreeDecodesZeroBits := by
  intro s r p d v hcaps hwf hin hne hr hv hp hd emitted stopsWith
  obtain ⟨⟨-, hibuf⟩, ⟨-, hobuf⟩, -⟩ := hcaps
  have hdeg : rootPayload s = some v := Option.bind_eq_some_iff.2 ⟨r, hr, hv⟩
  have hrule : ruleUnpack s = decodeStream d s := hd ▸ ruleUnpack_of_marker hin hne hp
  have hlen : d ≤ (streamBits (inputBytes s)).length := by
    rw [streamBits_length, length_inputBytes]
    omega
  have hzeros : ∀ {k : Nat} (rest : BitString), k ≤ s.caps.obufCap →
      unpackBits s.caps.obufCap s.nodes s.root (rootPayload s) 0 [] s.root (List.replicate k false ++ rest) =
        unpackBits s.caps.obufCap s.nodes s.root (some v) k (List.replicate k v) s.root rest := fun rest hk => by
    rw [hdeg, unpackBits_degenerate_zeros rest _ (by simpa using hk), Nat.zero_add, List.nil_append]
  have hstop : ∀ {k : Nat} {bit : Bool} {rest : BitString} {e : ErrorCode} {info : Word}, k ≤ s.caps.obufCap →
      (streamBits (inputBytes s)).take d = List.replicate k false ++ bit :: rest →
      unpackBits s.caps.obufCap s.nodes s.root (some v) k (List.replicate k v) s.root (bit :: rest) =
        { out := List.replicate k v, cur := s.root, error := some (e, info) } → stopsWith k e info := by
    intro k bit rest e info hk hbits h
    have hends := exec_unpack_of_stopped hwf hobuf hrule (by rw [hbits, hzeros _ hk, h])
    rwa [List.length_replicate] at hends
  refine ⟨fun hall hroom => ?_, fun i hi hone hbefore hroom => ?_, fun hlong hall => ?_⟩
  · have hbits := (take_eq_replicate_of_getD hlen hall).trans (List.append_nil _).symm
    have hends := exec_unpack_of_decoded hwf hobuf hrule (x := List.replicate d v) (by omega)
      (by rw [hbits, hzeros _ hroom, unpackBits, if_pos rfl])
    rwa [List.length_replicate] at hends
  · obtain ⟨rest, hbits⟩ := exists_take_eq_replicate_append hi hlen hbefore
    have hinfo := causeInfo_eq_or CorruptCause.degenerateOne.code i (by omega)
    refine hinfo ▸ hstop hroom hbits ?_
    rw [hone]
    exact unpackBits_degenerate_one rest
  · obtain ⟨rest, hbits⟩ := exists_take_eq_replicate_append hlong hlen fun j hj => hall j hj.le
    refine hstop (info := obufInfo) le_rfl hbits ?_
    rw [hall _ le_rfl]
    exact unpackBits_degenerate_full rest (List.length_replicate ..)

end Sys2Proof.Machine
end

section
/-! SUPPORT. The reset state (70_reset_and_hazards.md R331, R332): what its registers read, and that it meets the invariant. -/

namespace Sys2Proof.Machine

/-- The reset event puts the block into the reset state and keeps the capacities and the host (70_reset_and_hazards.md R330). -/
theorem assertReset_eq_afterReset {s : State} (h : s.resetPin = false) :
    assertReset s = State.afterReset s.caps true (s.resets + 1) s.draws s.host := by
  simp [assertReset, h]

/-- Settles O59: both are reset states with legal capacities. -/
theorem resetMeetsTheInvariant : Obligations.ResetMeetsTheInvariant := by
  refine ⟨inv_afterReset (by decide) _ _ _ _, fun s hcaps hpin => ?_⟩
  rw [assertReset_eq_afterReset hpin]
  exact inv_afterReset hcaps _ _ _ _

/-- Settles O13: both are reset states, and a reset state's registers are read off its fields. -/
theorem registersAfterReset : Obligations.RegistersAfterReset := by
  intro t ht
  obtain ⟨caps, pin, resets, draws, host, rfl⟩ :
      ∃ caps pin resets draws host, t = State.afterReset caps pin resets draws host := by
    rcases ht with rfl | ⟨s, hpin, rfl, -⟩
    · exact ⟨_, _, _, _, _, rfl⟩
    · exact ⟨_, _, _, _, _, assertReset_eq_afterReset hpin⟩
  have hstatus : readReg .status (State.afterReset caps pin resets draws host) = 0 := by
    simp only [readReg, statusWord, errFlag, errCodeField, busyFlag, State.afterReset]
    decide
  have hpath : ∀ k, readReg (.path k) (State.afterReset caps pin resets draws host) = 0 :=
    fun k => Vector.getElem_replicate k.isLt
  have hnil : (0 : BitVec 16) ++ nodeWord none = (0x0000FFFF : Word) := by decide
  exact ⟨rfl, hstatus, rfl, readReg_irqEn _, rfl, rfl, rfl, rfl, rfl, rfl, rfl, rfl, rfl, readReg_pathLen, hpath,
    readReg_result_of_notFound rfl, hnil, hnil, BitVec.eq_of_toNat_eq toNat_readReg_nodeCount, readReg_symCount, rfl, rfl, rfl,
    rfl, rfl⟩

end Sys2Proof.Machine
end

section
/-! SUPPORT. Which errors a command's rule can raise (60_exceptions.md R303): the table as data, and each rule held to its row. -/

namespace Sys2Proof.Machine

/-! ### Effects -/

/-- An effect that raises an error raises one of `codes`. -/
def Effect.RaisesOnly (e : Effect) (codes : List ErrorCode) : Prop :=
  ∀ c info u, e = .raised c info u → c ∈ codes

theorem Effect.raisesOnly_completed (s : State) (codes : List ErrorCode) : (Effect.completed s).RaisesOnly codes :=
  fun _ _ _ h => by cases h

theorem Effect.raisesOnly_raised {c : ErrorCode} {codes : List ErrorCode} (info : Word) (s : State) (hc : c ∈ codes) :
    (Effect.raised c info s).RaisesOnly codes :=
  fun _ _ _ h => by cases h; exact hc

/-- Sub-commands in order raise what one of them raises (40_command_protocol.md R127). -/
theorem Effect.RaisesOnly.andThen {e : Effect} {next : State → Effect} {codes codes' : List ErrorCode} (h : e.RaisesOnly codes)
    (hnext : ∀ u, (next u).RaisesOnly codes') : (e.andThen next).RaisesOnly (codes ++ codes') := by
  intro c info t ht
  rcases (Effect.andThen_eq_raised_iff _ _ _ _ _).1 ht with he | ⟨u, -, hu⟩
  · exact List.mem_append_left _ (h c info t he)
  · exact List.mem_append_right _ (hnext u c info t hu)

theorem Effect.RaisesOnly.mono {e : Effect} {codes codes' : List ErrorCode} (h : e.RaisesOnly codes) (hsub : codes ⊆ codes') :
    e.RaisesOnly codes' :=
  fun c info u hc => hsub (h c info u hc)

/-! ### The rules -/

/-- The table of 60_exceptions.md R303, in the order of the commands. -/
def errorsOf (i : Instr) : List ErrorCode :=
  match i with
  | .histCount | .tableSerialize | .encode => [.ioFailure]
  | .codeSet _ => [.invalidPath]
  | .pack => [.ioFailure, .missingSymbolCode]
  | .treeInsert _ => [.nodeCapacity]
  | .tableParse => [.ioFailure, .malformedTable, .invalidPath]
  | .unpack => [.ioFailure, .corruptStream]
  | .decode => [.ioFailure, .corruptStream, .malformedTable, .invalidPath]
  | .nop | .histClear | .histGet _ | .histSet _ | .treeBuild | .codeDerive | .codeClear | .codeGet _ | .treeClear | .treeSearch
  | .treeStep _ | .treeReset => []

section
variable (s : State)

theorem ruleHistCount_raisesOnly : (ruleHistCount s).RaisesOnly [.ioFailure] := by
  rw [ruleHistCount]
  split
  · exact Effect.raisesOnly_raised _ _ (by simp)
  · exact Effect.raisesOnly_completed _ _

theorem ruleCodeSet_raisesOnly (b : Byte) : (ruleCodeSet b s).RaisesOnly [.invalidPath] := by
  rw [ruleCodeSet]
  split
  · exact Effect.raisesOnly_raised _ _ (by simp)
  · exact Effect.raisesOnly_completed _ _

theorem ruleTableSerialize_raisesOnly : (ruleTableSerialize s).RaisesOnly [.ioFailure] := by
  rw [ruleTableSerialize]
  split
  · exact Effect.raisesOnly_raised _ _ (by simp)
  · exact Effect.raisesOnly_completed _ _

theorem insertPayload_raisesOnly (p : BitString) (v : Byte) : (insertPayload s p v).RaisesOnly [.nodeCapacity] := by
  simp only [insertPayload]
  split
  · exact Effect.raisesOnly_completed _ _
  · exact Effect.raisesOnly_raised _ _ (by simp)

theorem rulePack_raisesOnly : (rulePack s).RaisesOnly [.ioFailure, .missingSymbolCode] := by
  simp only [rulePack]
  split
  · exact Effect.raisesOnly_raised _ _ (by simp)
  · split
    · exact Effect.raisesOnly_raised _ _ (by simp)
    · split
      · exact Effect.raisesOnly_raised _ _ (by simp)
      · exact Effect.raisesOnly_completed _ _

variable {s}

/-- Within the legal capacities every accepted table finds room, so NODE_CAPACITY is not among the errors (46_table_parser.md
R266). -/
theorem ruleTableParse_raisesOnly (hcap : 65281 ≤ s.caps.nodeCap) :
    (ruleTableParse s).RaisesOnly [.ioFailure, .malformedTable, .invalidPath] := by
  rcases Nat.lt_or_ge s.caps.tbufCap s.tblLen.toNat with hlong | htbl
  · rw [ruleTableParse_of_text_too_long hlong]
    exact Effect.raisesOnly_raised _ _ (by simp)
  cases hparse : parseTable (tableBytes s) with
  | malformed e =>
    rw [ruleTableParse_of_malformed htbl hparse]
    exact Effect.raisesOnly_raised _ _ (by simp)
  | entries es =>
    by_cases hempty : 2 ≤ es.length ∧ ∃ e ∈ es, e.2 = []
    · obtain ⟨h2, hempty⟩ := hempty
      obtain ⟨j, hj⟩ := exists_firstEmptyCode hempty
      rw [ruleTableParse_of_empty_code htbl hparse h2 hj]
      exact Effect.raisesOnly_raised _ _ (by simp)
    · obtain ⟨nodes, -, hrule⟩ := ruleTableParse_loads hcap htbl hparse fun h2 e he hnil => hempty ⟨h2, e, he, hnil⟩
      rw [hrule]
      exact Effect.raisesOnly_completed _ _

/-- ENCODE packs with the codes of the tree built of its own input, which leave no byte without a code, so MISSING_SYMBOL_CODE
is not among its errors (45_bit_packer.md R249). -/
theorem ruleEncode_raisesOnly (hcaps : s.caps.Legal) (hwf : Memory.wf s.mem) : (ruleEncode s).RaisesOnly [.ioFailure] := by
  rcases Nat.lt_or_ge s.caps.ibufCap s.inLen.toNat with hlong | hin
  · rw [ruleEncode_of_input_too_long hlong]
    exact Effect.raisesOnly_raised _ _ (by simp)
  obtain ⟨tbl, htbl, -⟩ := builtTreesHaveCodesAndTheirTextFits (countBytes (inputBytes s))
  rcases Nat.lt_or_ge s.caps.tbufCap (tableText tbl).length with hlong | htext
  · rw [ruleEncode_of_text_too_long hin rfl rfl htbl hlong]
    exact Effect.raisesOnly_raised _ _ (by simp)
  · rw [ruleEncode_of_text_fits hin rfl rfl htbl hcaps hwf htext]
    split
    · exact Effect.raisesOnly_raised _ _ (by simp)
    · exact Effect.raisesOnly_completed _ _

end

/-- The traversal of the data bits ends in a CORRUPT_STREAM or for want of room in OBUF (47_bit_unpacker.md R284 to R287). -/
theorem unpackBits_error {cap : Nat} {nodes : List Node} {root : Option Nat} {deg : Option Byte} {e : ErrorCode} {info : Word}
    (bits : BitString) : ∀ {i : Nat} {out : List Byte} {cur : Option Nat},
      (unpackBits cap nodes root deg i out cur bits).error = some (e, info) → e ∈ [ErrorCode.ioFailure, .corruptStream] := by
  induction bits with
  | nil =>
    intro i out cur h
    simp only [unpackBits] at h
    split at h <;> cases h
    simp
  | cons bit rest ih =>
    intro i out cur h
    simp only [unpackBits] at h
    split at h
    · split at h
      · cases h
        simp
      · split at h
        · cases h
          simp
        · exact ih h
    · split at h
      · cases h
        simp
      · split at h
        · exact ih h
        · split at h
          · cases h
            simp
          · exact ih h

theorem decodeStream_raisesOnly (d : Nat) (s : State) : (decodeStream d s).RaisesOnly [.ioFailure, .corruptStream] := by
  simp only [decodeStream]
  split
  · exact Effect.raisesOnly_raised _ _ (unpackBits_error _ ‹_›)
  · exact Effect.raisesOnly_completed _ _

theorem ruleUnpack_raisesOnly (s : State) : (ruleUnpack s).RaisesOnly [.ioFailure, .corruptStream] := by
  rw [ruleUnpack]
  split
  · exact Effect.raisesOnly_raised _ _ (by simp)
  · split
    · exact Effect.raisesOnly_raised _ _ (by simp)
    · split
      · exact Effect.raisesOnly_raised _ _ (by simp)
      · exact decodeStream_raisesOnly _ s

/-! ### Every command -/

/-- Every rule raises only what its row of the table gives it. -/
theorem ruleOf_raisesOnly (i : Instr) {s : State} (hcaps : s.caps.Legal) (hwf : Memory.wf s.mem) :
    (ruleOf i s).RaisesOnly (errorsOf i) := by
  obtain ⟨-, -, -, hcap, -⟩ := id hcaps
  cases i with
  | histCount => exact ruleHistCount_raisesOnly s
  | codeSet b => exact ruleCodeSet_raisesOnly s b
  | tableSerialize => exact ruleTableSerialize_raisesOnly s
  | pack => exact rulePack_raisesOnly s
  | encode => exact ruleEncode_raisesOnly hcaps hwf
  | treeInsert b => exact insertPayload_raisesOnly s (pathOperand s) b
  | tableParse => exact ruleTableParse_raisesOnly hcap
  | unpack => exact ruleUnpack_raisesOnly s
  | decode => exact ((ruleTableParse_raisesOnly hcap).andThen ruleUnpack_raisesOnly).mono (by simp [errorsOf])
  | nop | histClear | histGet _ | histSet _ | treeBuild | codeDerive | codeClear | codeGet _ | treeClear | treeSearch | treeStep _
  | treeReset => exact fun c info u h => absurd (canRaise_of_ruleOf_raised h) (by simp [CanRaise])

/-- From a clear record an error is there only where the command's rule raised it. -/
theorem ruleOf_raised_of_errCode {i : Instr} {s t : State} {e : ErrorCode} (hs : s.errCode = none) (h : exec i s = .next t)
    (ht : t.errCode = some e) : ∃ info u, ruleOf i s = .raised e info u := by
  rcases (exec_eq_next_iff i s t).1 h with ⟨u, hu, rfl⟩ | ⟨c, info, u, hu, rfl⟩
  · have hclear : (complete u).errCode = none := ((ruleOf_frame i s).1 u hu).errCode.trans hs
    exact absurd (ht.symm.trans hclear) (Option.some_ne_none e)
  · obtain rfl : c = e := Option.some_inj.1 ht
    exact ⟨info, u, hu⟩

/-- Settles O54: an error after a clear record was raised by the command's rule, which raises only what its row of the table
gives it. -/
theorem errorsByCommand : Obligations.ErrorsByCommand := by
  intro i s t e hinv hs h ht
  obtain ⟨info, u, hraised⟩ := ruleOf_raised_of_errCode hs h ht
  have hlisted : e ∈ errorsOf i := ruleOf_raisesOnly i hinv.capsLegal hinv.memory.1 e info u hraised
  cases i with
  | histCount | codeSet _ | tableSerialize | pack | encode | treeInsert _ | tableParse | unpack | decode =>
    simpa [errorsOf] using hlisted
  | nop | histClear | histGet _ | histSet _ | treeBuild | codeDerive | codeClear | codeGet _ | treeClear | treeSearch | treeStep _
  | treeReset => exact List.not_mem_nil hlisted

end Sys2Proof.Machine
end
